-- ==== Sys2Proof/Word.lean ====
section
/-! DEFINITION. The word types of the MMB (spec 00_scope R9, R10, R12): bit 0 is the least significant bit of each. -/

namespace Sys2Proof

/-- One element register, KST word or DMEM word: 384 bits (R40, R62, R105). -/
abbrev Word := BitVec 384

/-- One instruction, and one bus word of HOST: 32 bits (R140, R102). -/
abbrev InsnWord := BitVec 32

/-- A counter, the program counter, a branch target: 16 bits (R43, R45, R147). -/
abbrev Half := BitVec 16

/-- One byte of a 64-byte window or of an IMEM word (R106). -/
abbrev Byte := BitVec 8

end Sys2Proof
end

