-- ==== Sys2Proof/Syntax.lean ====
section
/-! DEFINITION. The instructions of the MMB: one constructor per row of spec/opcode_table.json, its operands in the order of the
assembler (30_encoding R164). -/

namespace Sys2Proof

/-- The field type named by the ft field (00_scope R17, 30_encoding R146). Code 7 names none, and is no term of this type. -/
inductive FieldType where
  | F1 | F2 | F3 | F4 | F6 | F6B | F12
deriving DecidableEq, Repr

/-- The condition of BF (30_encoding R159). Codes 6 and 7 name none. -/
inductive Cond where
  | eq | ne | lt | ge | cs | cc
deriving DecidableEq, Repr

/-- The number of an element register, E0 to E63 (R40). -/
abbrev Reg := Fin 64

/-- The number of a counter, C0 to C7 (R43). -/
abbrev Ctr := Fin 8

/-- The index of a constant-store word, K0 to K127 (R62). -/
abbrev KIdx := Fin 128

/-- One instruction. A 16-bit immediate or target is a bit vector; register numbers, indices, the unscaled 14-bit offset of
LD and ST (R144) and the Frobenius power (R142) are numbers. -/
inductive Instr where
  -- prime-field and tower-field (41_field)
  | fadd (ft : FieldType) (rd rs1 rs2 : Reg)
  | fsub (ft : FieldType) (rd rs1 rs2 : Reg)
  | fneg (ft : FieldType) (rd rs1 : Reg)
  | fmul (ft : FieldType) (rd rs1 rs2 : Reg)
  | fsqr (ft : FieldType) (rd rs1 : Reg)
  | finv (ft : FieldType) (rd rs1 : Reg)
  | ffrob (ft : FieldType) (rd rs1 : Reg) (k : Fin 32)
  | fconj (ft : FieldType) (rd rs1 : Reg)
  -- cyclotomic (42_cyclotomic)
  | fcsqr (ft : FieldType) (rd rs1 : Reg)
  | fcexp (ft : FieldType) (rd rs1 rs2 : Reg)
  -- powers, constants and conversions (41_field)
  | fpow (ft : FieldType) (rd rs1 rs2 : Reg)
  | fzero (ft : FieldType) (rd : Reg)
  | fone (ft : FieldType) (rd : Reg)
  | tom (ft : FieldType) (rd rs1 : Reg)
  | fromm (ft : FieldType) (rd rs1 : Reg)
  -- moves (45_move)
  | mov (ft : FieldType) (rd rs1 : Reg)
  | ldk (ft : FieldType) (rd : Reg) (k : KIdx)
  | ld (ft : FieldType) (r : Reg) (cb : Ctr) (off : Fin 16384)
  | st (ft : FieldType) (r : Reg) (cb : Ctr) (off : Fin 16384)
  -- BigInt (40_bigint)
  | badd (rd rs1 rs2 : Reg)
  | bsub (rd rs1 rs2 : Reg)
  | bmul (rd rs1 rs2 : Reg)
  | bredc (rd rs1 : Reg)
  | bcmp (ft : FieldType) (rs1 rs2 : Reg)
  | bseti (rd : Reg) (imm : Half)
  -- points (43_point)
  | padd (ft : FieldType) (rd rs1 rs2 : Reg)
  | pmadd (ft : FieldType) (rd rs1 rs2 : Reg)
  | pdbl (ft : FieldType) (rd rs1 : Reg)
  | pneg (ft : FieldType) (rd rs1 : Reg)
  | paff (ft : FieldType) (rd rs1 : Reg)
  | ponc (ft : FieldType) (rs1 : Reg)
  | pmulq (ft : FieldType) (rd rs1 : Reg)
  -- Miller-loop accumulator (44_pairing)
  | ldbl (rd rs1 : Reg)
  | ladd (rd rs1 rs2 : Reg)
  | fmul024 (rd rs1 rs2 : Reg)
  | mlacc (rd rs1 rs2 : Reg)
  | mldbl (rd rs1 rs2 : Reg)
  | mladd (rd rs1 rs2 : Reg)
  -- control flow and counters (46_control)
  | jmp (target : Half)
  | bf (cond : Cond) (target : Half)
  | bbs (ci : Ctr) (rs : Reg) (target : Half)
  | bbc (ci : Ctr) (rs : Reg) (target : Half)
  | bcnz (cd : Ctr) (target : Half)
  | cset (cd : Ctr) (imm : Half)
  | caddi (cd cs : Ctr) (imm : Half)
  | cblen (cd : Ctr) (rs : Reg)
  | nop
  | halt
deriving DecidableEq, Repr

/-- The opcodes that are not reserved (30_encoding R156), one name each. -/
inductive Opcode where
  | fadd | fsub | fneg | fmul | fsqr | finv | ffrob | fconj | fcsqr | fcexp | fpow | fzero | fone | tom | fromm
  | mov | ldk | ld | st | badd | bsub | bmul | bredc | bcmp | bseti
  | padd | pmadd | pdbl | pneg | paff | ponc | pmulq
  | ldbl | ladd | fmul024 | mlacc | mldbl | mladd
  | jmp | bf | bbs | bbc | bcnz | cset | caddi | cblen | nop | halt
deriving DecidableEq, Repr

end Sys2Proof
end

