-- ==== Sys2Proof/WellFormed.lean ====
section
/-! DEFINITION. Which instruction terms the encoding admits: the legal field types of each opcode (30_encoding R157). Every other
bound of an operand is in its type. -/

namespace Sys2Proof

/-- The quadratic extensions, the only types FCONJ accepts (R157, R262). -/
def FieldType.isQuadratic : FieldType → Bool
  | .F2 | .F4 | .F6B | .F12 => true
  | .F1 | .F3 | .F6 => false

/-- The types with a cyclotomic subgroup, for FCSQR and FCEXP (R157, R301). -/
def FieldType.isCyclotomic : FieldType → Bool
  | .F6B | .F12 => true
  | .F1 | .F2 | .F3 | .F4 | .F6 => false

/-- The coordinate rings of the point unit (R157, R320). -/
def FieldType.isPoint : FieldType → Bool
  | .F1 | .F2 | .F3 => true
  | .F4 | .F6 | .F6B | .F12 => false

/-- The coordinate rings of a twist, for PMULQ (R157, R328). -/
def FieldType.isTwist : FieldType → Bool
  | .F2 | .F3 => true
  | .F1 | .F4 | .F6 | .F6B | .F12 => false

/-- The instruction is one that some instruction word encodes (R157, R158). -/
def Instr.wellFormed : Instr → Bool
  | .fconj ft _ _ => ft.isQuadratic
  | .fcsqr ft _ _ => ft.isCyclotomic
  | .fcexp ft _ _ _ => ft.isCyclotomic
  | .padd ft _ _ _ => ft.isPoint
  | .pmadd ft _ _ _ => ft.isPoint
  | .pdbl ft _ _ => ft.isPoint
  | .pneg ft _ _ => ft.isPoint
  | .paff ft _ _ => ft.isPoint
  | .ponc ft _ => ft.isPoint
  | .pmulq ft _ _ => ft.isTwist
  | .fadd .. | .fsub .. | .fneg .. | .fmul .. | .fsqr .. | .finv .. | .ffrob .. | .fpow .. | .fzero .. | .fone .. | .tom ..
  | .fromm .. | .mov .. | .ldk .. | .ld .. | .st .. | .badd .. | .bsub .. | .bmul .. | .bredc .. | .bcmp .. | .bseti ..
  | .ldbl .. | .ladd .. | .fmul024 .. | .mlacc .. | .mldbl .. | .mladd .. | .jmp .. | .bf .. | .bbs .. | .bbc .. | .bcnz ..
  | .cset .. | .caddi .. | .cblen .. | .nop | .halt => true

end Sys2Proof
end

