-- ==== Sys2Proof/Decode.lean ====
section
/-! DEFINITION. Decoding and encoding of the 32-bit instruction word (30_encoding): fields, the opcode map, the decode checks of R162
in their order, the byte layout of IMEM, and the encoder, written from the same tables. -/

namespace Sys2Proof

/-! ## Fields -/

/-- Bits [lo + len - 1 : lo] of an instruction word, as a number (R12). -/
def InsnWord.field (w : InsnWord) (lo len : Nat) : Nat := w.toNat / 2 ^ lo % 2 ^ len

/-- The code of a field type (R146). -/
def FieldType.code : FieldType → Nat
  | .F1 => 0
  | .F2 => 1
  | .F3 => 2
  | .F4 => 3
  | .F6 => 4
  | .F6B => 5
  | .F12 => 6

/-- The field type of a code; code 7 names none (R146). -/
def FieldType.ofCode : Nat → Option FieldType
  | 0 => some .F1
  | 1 => some .F2
  | 2 => some .F3
  | 3 => some .F4
  | 4 => some .F6
  | 5 => some .F6B
  | 6 => some .F12
  | _ => none

/-- The code of a BF condition (R159). -/
def Cond.code : Cond → Nat
  | .eq => 0
  | .ne => 1
  | .lt => 2
  | .ge => 3
  | .cs => 4
  | .cc => 5

/-- The BF condition of a code; codes 6 and 7 are reserved (R159). -/
def Cond.ofCode : Nat → Option Cond
  | 0 => some .eq
  | 1 => some .ne
  | 2 => some .lt
  | 3 => some .ge
  | 4 => some .cs
  | 5 => some .cc
  | _ => none

/-! ## The opcode map (R156) -/

/-- Bits [31:26] of each opcode (R156). -/
def Opcode.code : Opcode → Nat
  | .fadd => 0x01
  | .fsub => 0x02
  | .fneg => 0x03
  | .fmul => 0x04
  | .fsqr => 0x05
  | .finv => 0x06
  | .ffrob => 0x07
  | .fconj => 0x08
  | .fcsqr => 0x09
  | .fcexp => 0x0A
  | .fpow => 0x0B
  | .fzero => 0x0C
  | .fone => 0x0D
  | .tom => 0x0E
  | .fromm => 0x0F
  | .mov => 0x10
  | .ldk => 0x11
  | .ld => 0x12
  | .st => 0x13
  | .badd => 0x14
  | .bsub => 0x15
  | .bmul => 0x16
  | .bredc => 0x17
  | .bcmp => 0x18
  | .bseti => 0x19
  | .padd => 0x20
  | .pmadd => 0x21
  | .pdbl => 0x22
  | .pneg => 0x23
  | .paff => 0x24
  | .ponc => 0x25
  | .pmulq => 0x26
  | .ldbl => 0x28
  | .ladd => 0x29
  | .fmul024 => 0x2A
  | .mlacc => 0x2B
  | .mldbl => 0x2C
  | .mladd => 0x2D
  | .jmp => 0x30
  | .bf => 0x31
  | .bbs => 0x32
  | .bbc => 0x33
  | .bcnz => 0x34
  | .cset => 0x35
  | .caddi => 0x36
  | .cblen => 0x37
  | .nop => 0x3E
  | .halt => 0x3F

/-- Every opcode that is not reserved, in the order of the map. -/
def Opcode.all : List Opcode :=
  [.fadd, .fsub, .fneg, .fmul, .fsqr, .finv, .ffrob, .fconj, .fcsqr, .fcexp, .fpow, .fzero, .fone, .tom, .fromm] ++
  [.mov, .ldk, .ld, .st, .badd, .bsub, .bmul, .bredc, .bcmp, .bseti] ++
  [.padd, .pmadd, .pdbl, .pneg, .paff, .ponc, .pmulq] ++
  [.ldbl, .ladd, .fmul024, .mlacc, .mldbl, .mladd] ++
  [.jmp, .bf, .bbs, .bbc, .bcnz, .cset, .caddi, .cblen, .nop, .halt]

/-- The opcode of a 6-bit code, none for the 16 reserved codes (R156). -/
def Opcode.ofCode (n : Nat) : Option Opcode := Opcode.all.find? fun op => op.code == n

/-! ## Decoding -/

/-- Why a word is illegal: the four subcodes of R162, by name. -/
inductive Illegal where
  /-- Subcode 1: a reserved opcode. -/
  | reservedOpcode
  /-- Subcode 2: a field type outside the opcode's legal set. -/
  | illegalFt
  /-- Subcode 3: a 1 in a must-be-zero bit. -/
  | mustBeZero
  /-- Subcode 4: condition 6 or 7 of BF. -/
  | illegalCond
deriving DecidableEq, Repr

/-- The subcode that EINFO records (R162, R501). -/
def Illegal.subcode : Illegal → Nat
  | .reservedOpcode => 1
  | .illegalFt => 2
  | .mustBeZero => 3
  | .illegalCond => 4

/-- Why bytes are no instruction: fewer than the four of an instruction word (R140), or an illegal word. -/
inductive DecodeError where
  | tooFewBytes
  | illegal (k : Illegal)
deriving DecidableEq, Repr

/-- Every listed group of bits, (lowest bit, length), is zero. -/
def InsnWord.allZero (w : InsnWord) (zs : List (Nat × Nat)) : Bool := zs.all fun z => w.field z.1 z.2 == 0

/-- Step 3 of R162, then the instruction. -/
def InsnWord.checkZero (w : InsnWord) (zs : List (Nat × Nat)) (i : Instr) : Except Illegal Instr :=
  if w.allZero zs then .ok i else .error .mustBeZero

/-- Step 2 of R162 for a format with an ft field, then step 3. -/
def InsnWord.withFt (w : InsnWord) (legal : FieldType → Bool) (zs : List (Nat × Nat)) (mk : FieldType → Instr) :
    Except Illegal Instr :=
  match FieldType.ofCode (w.field 23 3) with
  | some ft => if legal ft then w.checkZero zs (mk ft) else .error .illegalFt
  | none => .error .illegalFt

/-- Step 2 of R162 for BF, then step 3. -/
def InsnWord.withCond (w : InsnWord) (zs : List (Nat × Nat)) (mk : Cond → Instr) : Except Illegal Instr :=
  match Cond.ofCode (w.field 23 3) with
  | some c => w.checkZero zs (mk c)
  | none => .error .illegalCond

/-- Field rd of formats R, K, I; r of M; rs of T and L (R142-R153). -/
def InsnWord.rd (w : InsnWord) : Reg := Fin.ofNat 64 (w.field 17 6)
/-- Field rs1 of format R (R142). -/
def InsnWord.rs1 (w : InsnWord) : Reg := Fin.ofNat 64 (w.field 11 6)
/-- Field rs2 of format R (R142). -/
def InsnWord.rs2 (w : InsnWord) : Reg := Fin.ofNat 64 (w.field 5 6)
/-- Field aux of format R (R142). -/
def InsnWord.aux (w : InsnWord) : Fin 32 := Fin.ofNat 32 (w.field 0 5)
/-- Field kidx of format K (R143). -/
def InsnWord.kidx (w : InsnWord) : KIdx := Fin.ofNat 128 (w.field 10 7)
/-- Field cb of format M (R144). -/
def InsnWord.cb (w : InsnWord) : Ctr := Fin.ofNat 8 (w.field 14 3)
/-- Field off of format M (R144). -/
def InsnWord.off (w : InsnWord) : Fin 16384 := Fin.ofNat 16384 (w.field 0 14)
/-- The counter in bits [25:23]: ci of format T, cd of N, S, A and L (R149-R153). -/
def InsnWord.ctr (w : InsnWord) : Ctr := Fin.ofNat 8 (w.field 23 3)
/-- Field cs of format A (R152). -/
def InsnWord.cs (w : InsnWord) : Ctr := Fin.ofNat 8 (w.field 20 3)
/-- Bits [15:0]: an immediate or a branch target (R145-R152, R155). -/
def InsnWord.imm16 (w : InsnWord) : Half := BitVec.ofNat 16 (w.field 0 16)

/-- Every field type is legal (R157, first row). -/
def anyFt (_ : FieldType) : Bool := true
/-- Only ft = 0 is legal (R157: the BigInt and the pairing opcodes). -/
def onlyF1 (ft : FieldType) : Bool := ft == .F1

/-- Steps 2 to 4 of R162, opcode by opcode: the legal field types (R157), the must-be-zero bits (R141, R158), the operands. -/
def InsnWord.decodeOp (w : InsnWord) : Opcode → Except Illegal Instr
  | .fadd => w.withFt anyFt [(0, 5)] fun ft => .fadd ft w.rd w.rs1 w.rs2
  | .fsub => w.withFt anyFt [(0, 5)] fun ft => .fsub ft w.rd w.rs1 w.rs2
  | .fneg => w.withFt anyFt [(5, 6), (0, 5)] fun ft => .fneg ft w.rd w.rs1
  | .fmul => w.withFt anyFt [(0, 5)] fun ft => .fmul ft w.rd w.rs1 w.rs2
  | .fsqr => w.withFt anyFt [(5, 6), (0, 5)] fun ft => .fsqr ft w.rd w.rs1
  | .finv => w.withFt anyFt [(5, 6), (0, 5)] fun ft => .finv ft w.rd w.rs1
  | .ffrob => w.withFt anyFt [(5, 6)] fun ft => .ffrob ft w.rd w.rs1 w.aux
  | .fconj => w.withFt FieldType.isQuadratic [(5, 6), (0, 5)] fun ft => .fconj ft w.rd w.rs1
  | .fcsqr => w.withFt FieldType.isCyclotomic [(5, 6), (0, 5)] fun ft => .fcsqr ft w.rd w.rs1
  | .fcexp => w.withFt FieldType.isCyclotomic [(0, 5)] fun ft => .fcexp ft w.rd w.rs1 w.rs2
  | .fpow => w.withFt anyFt [(0, 5)] fun ft => .fpow ft w.rd w.rs1 w.rs2
  | .fzero => w.withFt anyFt [(11, 6), (5, 6), (0, 5)] fun ft => .fzero ft w.rd
  | .fone => w.withFt anyFt [(11, 6), (5, 6), (0, 5)] fun ft => .fone ft w.rd
  | .tom => w.withFt anyFt [(5, 6), (0, 5)] fun ft => .tom ft w.rd w.rs1
  | .fromm => w.withFt anyFt [(5, 6), (0, 5)] fun ft => .fromm ft w.rd w.rs1
  | .mov => w.withFt anyFt [(5, 6), (0, 5)] fun ft => .mov ft w.rd w.rs1
  | .ldk => w.withFt anyFt [(0, 10)] fun ft => .ldk ft w.rd w.kidx
  | .ld => w.withFt anyFt [] fun ft => .ld ft w.rd w.cb w.off
  | .st => w.withFt anyFt [] fun ft => .st ft w.rd w.cb w.off
  | .badd => w.withFt onlyF1 [(0, 5)] fun _ => .badd w.rd w.rs1 w.rs2
  | .bsub => w.withFt onlyF1 [(0, 5)] fun _ => .bsub w.rd w.rs1 w.rs2
  | .bmul => w.withFt onlyF1 [(0, 5)] fun _ => .bmul w.rd w.rs1 w.rs2
  | .bredc => w.withFt onlyF1 [(5, 6), (0, 5)] fun _ => .bredc w.rd w.rs1
  | .bcmp => w.withFt anyFt [(17, 6), (0, 5)] fun ft => .bcmp ft w.rs1 w.rs2
  | .bseti => w.withFt onlyF1 [(16, 1)] fun _ => .bseti w.rd w.imm16
  | .padd => w.withFt FieldType.isPoint [(0, 5)] fun ft => .padd ft w.rd w.rs1 w.rs2
  | .pmadd => w.withFt FieldType.isPoint [(0, 5)] fun ft => .pmadd ft w.rd w.rs1 w.rs2
  | .pdbl => w.withFt FieldType.isPoint [(5, 6), (0, 5)] fun ft => .pdbl ft w.rd w.rs1
  | .pneg => w.withFt FieldType.isPoint [(5, 6), (0, 5)] fun ft => .pneg ft w.rd w.rs1
  | .paff => w.withFt FieldType.isPoint [(5, 6), (0, 5)] fun ft => .paff ft w.rd w.rs1
  | .ponc => w.withFt FieldType.isPoint [(17, 6), (5, 6), (0, 5)] fun ft => .ponc ft w.rs1
  | .pmulq => w.withFt FieldType.isTwist [(5, 6), (0, 5)] fun ft => .pmulq ft w.rd w.rs1
  | .ldbl => w.withFt onlyF1 [(5, 6), (0, 5)] fun _ => .ldbl w.rd w.rs1
  | .ladd => w.withFt onlyF1 [(0, 5)] fun _ => .ladd w.rd w.rs1 w.rs2
  | .fmul024 => w.withFt onlyF1 [(0, 5)] fun _ => .fmul024 w.rd w.rs1 w.rs2
  | .mlacc => w.withFt onlyF1 [(0, 5)] fun _ => .mlacc w.rd w.rs1 w.rs2
  | .mldbl => w.withFt onlyF1 [(0, 5)] fun _ => .mldbl w.rd w.rs1 w.rs2
  | .mladd => w.withFt onlyF1 [(0, 5)] fun _ => .mladd w.rd w.rs1 w.rs2
  | .jmp => w.checkZero [(16, 10)] (.jmp w.imm16)
  | .bf => w.withCond [(16, 7)] fun c => .bf c w.imm16
  | .bbs => w.checkZero [(16, 1)] (.bbs w.ctr w.rd w.imm16)
  | .bbc => w.checkZero [(16, 1)] (.bbc w.ctr w.rd w.imm16)
  | .bcnz => w.checkZero [(16, 7)] (.bcnz w.ctr w.imm16)
  | .cset => w.checkZero [(16, 7)] (.cset w.ctr w.imm16)
  | .caddi => w.checkZero [(16, 4)] (.caddi w.ctr w.cs w.imm16)
  | .cblen => w.checkZero [(0, 17)] (.cblen w.ctr w.rd)
  | .nop => w.checkZero [(0, 26)] .nop
  | .halt => w.checkZero [(0, 26)] .halt

/-- Decode (R162): the same for every state (R163). -/
def decode (w : InsnWord) : Except Illegal Instr :=
  match Opcode.ofCode (w.field 26 6) with
  | some op => w.decodeOp op
  | none => .error .reservedOpcode

/-! ## Bytes -/

/-- The number that bytes stand for, the first byte least significant (R106). -/
def natOfBytes : List Byte → Nat
  | [] => 0
  | b :: bs => b.toNat + 256 * natOfBytes bs

/-- The `n` least significant bytes of a number, the least significant first (R106). -/
def bytesOfNat : Nat → Nat → List Byte
  | 0, _ => []
  | n + 1, v => BitVec.ofNat 8 v :: bytesOfNat n (v / 256)

/-- Decode one instruction from the front of a list of bytes: the four bytes of a word (R140), the least significant at the
lowest address (R106). The rest of the list comes back. -/
def decodeBytes (bs : List Byte) : Except DecodeError (Instr × List Byte) :=
  if bs.length < 4 then .error .tooFewBytes
  else
    match decode (BitVec.ofNat 32 (natOfBytes (bs.take 4))) with
    | .ok i => .ok (i, bs.drop 4)
    | .error k => .error (.illegal k)

/-- What the decoder reads from the instruction whose bits are `w`: bits from `nbits` up are zero, and the word is laid out as
IMEM stores it. -/
def decodeTableWord (nbits w : Nat) : Option Instr :=
  match decodeBytes (bytesOfNat 4 (w % 2 ^ nbits)) with
  | .ok (i, _) => some i
  | .error _ => none

/-! ## Encoding -/

/-- The opcode of an instruction (R156). -/
def Instr.opcode : Instr → Opcode
  | .fadd .. => .fadd
  | .fsub .. => .fsub
  | .fneg .. => .fneg
  | .fmul .. => .fmul
  | .fsqr .. => .fsqr
  | .finv .. => .finv
  | .ffrob .. => .ffrob
  | .fconj .. => .fconj
  | .fcsqr .. => .fcsqr
  | .fcexp .. => .fcexp
  | .fpow .. => .fpow
  | .fzero .. => .fzero
  | .fone .. => .fone
  | .tom .. => .tom
  | .fromm .. => .fromm
  | .mov .. => .mov
  | .ldk .. => .ldk
  | .ld .. => .ld
  | .st .. => .st
  | .badd .. => .badd
  | .bsub .. => .bsub
  | .bmul .. => .bmul
  | .bredc .. => .bredc
  | .bcmp .. => .bcmp
  | .bseti .. => .bseti
  | .padd .. => .padd
  | .pmadd .. => .pmadd
  | .pdbl .. => .pdbl
  | .pneg .. => .pneg
  | .paff .. => .paff
  | .ponc .. => .ponc
  | .pmulq .. => .pmulq
  | .ldbl .. => .ldbl
  | .ladd .. => .ladd
  | .fmul024 .. => .fmul024
  | .mlacc .. => .mlacc
  | .mldbl .. => .mldbl
  | .mladd .. => .mladd
  | .jmp .. => .jmp
  | .bf .. => .bf
  | .bbs .. => .bbs
  | .bbc .. => .bbc
  | .bcnz .. => .bcnz
  | .cset .. => .cset
  | .caddi .. => .caddi
  | .cblen .. => .cblen
  | .nop => .nop
  | .halt => .halt

/-- A word of format R (R142). -/
def encR (op : Opcode) (ft rd rs1 rs2 aux : Nat) : InsnWord :=
  BitVec.ofNat 32 (op.code * 2 ^ 26 + ft * 2 ^ 23 + rd * 2 ^ 17 + rs1 * 2 ^ 11 + rs2 * 2 ^ 5 + aux)

/-- A word of format K (R143). -/
def encK (op : Opcode) (ft rd k : Nat) : InsnWord :=
  BitVec.ofNat 32 (op.code * 2 ^ 26 + ft * 2 ^ 23 + rd * 2 ^ 17 + k * 2 ^ 10)

/-- A word of format M (R144). -/
def encM (op : Opcode) (ft r cb off : Nat) : InsnWord :=
  BitVec.ofNat 32 (op.code * 2 ^ 26 + ft * 2 ^ 23 + r * 2 ^ 17 + cb * 2 ^ 14 + off)

/-- A word of format I (R145), and of every format with a 3-bit field at 23, a register at 17 and a 16-bit field at 0: T, L
(R149, R153), and, with the register field zero, B, N and S (R148, R150, R151). -/
def encI (op : Opcode) (top rd imm : Nat) : InsnWord :=
  BitVec.ofNat 32 (op.code * 2 ^ 26 + top * 2 ^ 23 + rd * 2 ^ 17 + imm)

/-- A word of format A (R152). -/
def encA (op : Opcode) (cd cs imm : Nat) : InsnWord :=
  BitVec.ofNat 32 (op.code * 2 ^ 26 + cd * 2 ^ 23 + cs * 2 ^ 20 + imm)

/-- The instruction word of an instruction (R141-R158); unused fields are zero. -/
def encode : Instr → InsnWord
  | .fadd ft rd rs1 rs2 => encR .fadd ft.code rd rs1 rs2 0
  | .fsub ft rd rs1 rs2 => encR .fsub ft.code rd rs1 rs2 0
  | .fneg ft rd rs1 => encR .fneg ft.code rd rs1 0 0
  | .fmul ft rd rs1 rs2 => encR .fmul ft.code rd rs1 rs2 0
  | .fsqr ft rd rs1 => encR .fsqr ft.code rd rs1 0 0
  | .finv ft rd rs1 => encR .finv ft.code rd rs1 0 0
  | .ffrob ft rd rs1 k => encR .ffrob ft.code rd rs1 0 k
  | .fconj ft rd rs1 => encR .fconj ft.code rd rs1 0 0
  | .fcsqr ft rd rs1 => encR .fcsqr ft.code rd rs1 0 0
  | .fcexp ft rd rs1 rs2 => encR .fcexp ft.code rd rs1 rs2 0
  | .fpow ft rd rs1 rs2 => encR .fpow ft.code rd rs1 rs2 0
  | .fzero ft rd => encR .fzero ft.code rd 0 0 0
  | .fone ft rd => encR .fone ft.code rd 0 0 0
  | .tom ft rd rs1 => encR .tom ft.code rd rs1 0 0
  | .fromm ft rd rs1 => encR .fromm ft.code rd rs1 0 0
  | .mov ft rd rs1 => encR .mov ft.code rd rs1 0 0
  | .ldk ft rd k => encK .ldk ft.code rd k
  | .ld ft r cb off => encM .ld ft.code r cb off
  | .st ft r cb off => encM .st ft.code r cb off
  | .badd rd rs1 rs2 => encR .badd 0 rd rs1 rs2 0
  | .bsub rd rs1 rs2 => encR .bsub 0 rd rs1 rs2 0
  | .bmul rd rs1 rs2 => encR .bmul 0 rd rs1 rs2 0
  | .bredc rd rs1 => encR .bredc 0 rd rs1 0 0
  | .bcmp ft rs1 rs2 => encR .bcmp ft.code 0 rs1 rs2 0
  | .bseti rd imm => encI .bseti 0 rd imm.toNat
  | .padd ft rd rs1 rs2 => encR .padd ft.code rd rs1 rs2 0
  | .pmadd ft rd rs1 rs2 => encR .pmadd ft.code rd rs1 rs2 0
  | .pdbl ft rd rs1 => encR .pdbl ft.code rd rs1 0 0
  | .pneg ft rd rs1 => encR .pneg ft.code rd rs1 0 0
  | .paff ft rd rs1 => encR .paff ft.code rd rs1 0 0
  | .ponc ft rs1 => encR .ponc ft.code 0 rs1 0 0
  | .pmulq ft rd rs1 => encR .pmulq ft.code rd rs1 0 0
  | .ldbl rd rs1 => encR .ldbl 0 rd rs1 0 0
  | .ladd rd rs1 rs2 => encR .ladd 0 rd rs1 rs2 0
  | .fmul024 rd rs1 rs2 => encR .fmul024 0 rd rs1 rs2 0
  | .mlacc rd rs1 rs2 => encR .mlacc 0 rd rs1 rs2 0
  | .mldbl rd rs1 rs2 => encR .mldbl 0 rd rs1 rs2 0
  | .mladd rd rs1 rs2 => encR .mladd 0 rd rs1 rs2 0
  | .jmp target => encI .jmp 0 0 target.toNat
  | .bf cond target => encI .bf cond.code 0 target.toNat
  | .bbs ci rs target => encI .bbs ci rs target.toNat
  | .bbc ci rs target => encI .bbc ci rs target.toNat
  | .bcnz cd target => encI .bcnz cd 0 target.toNat
  | .cset cd imm => encI .cset cd 0 imm.toNat
  | .caddi cd cs imm => encA .caddi cd cs imm.toNat
  | .cblen cd rs => encI .cblen cd rs 0
  | .nop => encI .nop 0 0 0
  | .halt => encI .halt 0 0 0

end Sys2Proof
end

