-- ==== Sys2Proof/Config.lean ====
section
/-! DEFINITION. What the spec leaves to an implementation: the three parameters (00_scope R10), and the free values, constants
without a body of which nothing can be proved (93_implementation_defined I1, I10). -/

namespace Sys2Proof

/-- The parameters a model takes as arguments (R10): the sizes of IMEM (R104) and DMEM (R105) in words, and the bus address
of the block (R100). State carries them; nothing writes them (log 4). -/
structure Params where
  imemWords : Nat
  dmemWords : Nat
  base : Nat
deriving DecidableEq, Repr

/-- The range each parameter may take (R100, R104, R105). -/
def Params.valid (P : Params) : Bool :=
  decide (1 ≤ P.imemWords) && decide (P.imemWords ≤ 65536) && decide (1 ≤ P.dmemWords) && decide (P.dmemWords ≤ 8192)
    && decide (P.base % 2 ^ 20 = 0)

/-- The sizes the spec gives as defaults (R104, R105); the base address is OPEN, and this is the model's choice (log 4). -/
def Params.default : Params := { imemWords := 4096, dmemWords := 4096, base := 0 }

/-- What register `i` holds after the `epoch`-th hardware reset: any value (R42, I1; log 1). -/
opaque Config.unwrittenReg (epoch i : Nat) : Word

/-- What KST word `k` holds after the `epoch`-th hardware reset: any value (R63, I1; log 2). -/
opaque Config.unwrittenKst (epoch k : Nat) : Word

/-- What the byte of IMEM or DMEM at block offset `a` reads as while nothing has written it since the `epoch`-th hardware
reset: any value, always the same one (R104, R105, R552, I1; log 3). -/
opaque Config.unwrittenByte (epoch a : Nat) : Byte

/-- The `n`-th free word: what FCSQR and FCEXP write outside the cyclotomic subgroup, before reduction below p (I10; log 5). -/
opaque Config.freeWord (n : Nat) : Word

end Sys2Proof
end

