-- ==== Sys2Proof/Machine/State.lean ====
section
/-! DEFINITION. The state of the MMB (10_state, 20_memory), its value after hardware reset (70_reset R550), and the reasons a step
of the model may stop. -/

namespace Sys2Proof.Machine

/-- STATUS.STATE (R49, R61). -/
inductive SeqState where
  | idle | running | done | error
deriving DecidableEq, Repr

/-- The causes of a fault of the block (R501). -/
inductive Cause where
  | fetchRange | illegalInsn | regRange | regOverlap | dmemRange | config | notReduced | notInvertible
deriving DecidableEq, Repr

/-- The fault record: CAUSE, EPC, EINFO and FAULTINSN (R56). -/
structure FaultRecord where
  cause : BitVec 8
  epc : Half
  einfo : BitVec 32
  insn : InsnWord
deriving DecidableEq, Repr

/-- CFGSTAT: what the last CFGCOMMIT found wrong (R54, R60). -/
structure CfgStat where
  badEven : Bool
  badSmall : Bool
  badWide : Bool
deriving DecidableEq, Repr

/-- One input of the block (20_memory R100-R102; 70_reset R550). `addr` is the bus address and `size` the width in bytes. -/
inductive HostEvent where
  | read (addr size : Nat)
  | write (addr size : Nat) (data : BitVec 32)
  /-- The platform's reset input. -/
  | reset
deriving DecidableEq, Repr

/-- IMEM and DMEM: cells at byte offsets of the block's window (R101), offsets strictly rising (log 3). -/
abbrev Memory := List Host.Cell

/-- The state of the block, and last the model's own fields. -/
structure State where
  /-- E0 to E63 (R40). -/
  e : Vector Word 64
  /-- C0 to C7 (R43). -/
  c : Vector Half 8
  /-- FL.C, FL.EQ, FL.LT (R44). -/
  flC : Bool
  flEq : Bool
  flLt : Bool
  /-- The program counter (R45). -/
  pc : Half
  /-- STATUS.STATE, and the two latches of SEQ (R61). -/
  seq : SeqState
  stepPending : Bool
  haltRequested : Bool
  /-- STATUS.CFGOK and STATUS.HERR (R49). -/
  cfgok : Bool
  herr : Bool
  /-- NLIMBS, as L - 1: its legal values are 1 to 6 (R52; log 14). -/
  nlimbs : Fin 6
  /-- MODP (R53), and PINV, RSQ and RONE (R55). -/
  modp : Word
  pinv : Word
  rsq : Word
  rone : Word
  /-- CFGSTAT (R60). -/
  cfgstat : CfgStat
  /-- CAUSE, EPC, EINFO, FAULTINSN (R56). -/
  fault : FaultRecord
  /-- IRQEN and IRQPEND (R57). -/
  irqenDone : Bool
  irqenErr : Bool
  irqpendDone : Bool
  irqpendErr : Bool
  /-- INSTRET (R58). -/
  instret : BitVec 64
  /-- The constant store (R62). -/
  kst : Vector Word 128
  /-- IMEM and DMEM (R104, R105). -/
  mem : Memory
  /-- The parameters (R10); nothing writes them. -/
  params : Params
  /-- Model's own (log 20): how many hardware resets have happened. -/
  epoch : Nat
  /-- Model's own (log 5): how many free words have been drawn. -/
  freeCtr : Nat
  /-- Model's own (log 6): the inputs to come, in order. The number beside an input is how many steps SEQ makes, while it runs,
  before the input lands. -/
  bus : List (Nat × HostEvent)
  /-- Model's own (log 7): the data the bus returned for HOST's last read of the block. -/
  rdata : BitVec 32
deriving DecidableEq, Repr

/-- No step of the model stops with a fault: every fault of the block is an exception that the machine takes, a next state
(R510). Nothing raises a term of this type; it has none. -/
inductive Fault
deriving DecidableEq, Repr

/-- Why a step has no meaning. -/
inductive Refusal where
  /-- Raised by `exec` for an instruction without a meaning, by its mnemonic; safe. No arm of `exec` raises it. -/
  | notModelled (mnemonic : String)
deriving DecidableEq, Repr

/-- The state after the `epoch`-th hardware reset (R550) of a block with parameters `P`. -/
def State.hardwareReset (P : Params) (epoch : Nat) : State where
  e := Vector.ofFn fun i => Config.unwrittenReg epoch i
  c := Vector.replicate 8 0
  flC := false
  flEq := false
  flLt := false
  pc := 0
  seq := .idle
  stepPending := false
  haltRequested := false
  cfgok := false
  herr := false
  nlimbs := 5
  modp := 0
  pinv := 0
  rsq := 0
  rone := 0
  cfgstat := { badEven := false, badSmall := false, badWide := false }
  fault := { cause := 0, epc := 0, einfo := 0, insn := 0 }
  irqenDone := false
  irqenErr := false
  irqpendDone := false
  irqpendErr := false
  instret := 0
  kst := Vector.ofFn fun k => Config.unwrittenKst epoch k
  mem := []
  params := P
  epoch := epoch
  freeCtr := 0
  bus := []
  rdata := 0

/-- The machine right after reset (R550), with the default parameters. -/
def State.reset : State := State.hardwareReset Params.default 0

end Sys2Proof.Machine
end

