-- ==== Sys2Proof/Machine/Ops.lean ====
section
/-! DEFINITION. The named operations over the state: bytes and words of IMEM and DMEM, registers, counters and constants, the active
width, taking a fault and the return from it, retirement, reset, and the interrupt output. -/

namespace Sys2Proof.Machine

/-! ## Memory cells (log 3) -/

/-- The byte listed at an offset, none where nothing has been written since hardware reset. -/
def Memory.byteAt? (m : Memory) (a : Nat) : Option Byte := (m.find? fun cell => cell.1 == a).map Prod.snd

/-- The cells of consecutive bytes from offset `a` up. -/
def Memory.cellsFrom : Nat → List Byte → Memory
  | _, [] => []
  | a, b :: bs => (a, b) :: Memory.cellsFrom (a + 1) bs

/-- Store bytes at consecutive offsets from `a` up. -/
def Memory.store (m : Memory) (a : Nat) (bs : List Byte) : Memory :=
  (m.filter fun cell => decide (cell.1 < a)) ++ Memory.cellsFrom a bs
    ++ m.filter fun cell => decide (a + bs.length ≤ cell.1)

/-- The canonical form: offsets strictly rising. An unlisted offset reads as no stored byte, so no entry equals what an
unlisted offset reads as, and writing a byte always lists it. -/
abbrev Memory.wf (m : Memory) : Prop := m.Pairwise fun x y => x.1 < y.1

/-- The byte at a block offset of IMEM or DMEM: the stored one, or, where nothing has been written, the free value (R552). -/
def State.readByte (s : State) (a : Nat) : Byte :=
  match s.mem.byteAt? a with
  | some b => b
  | none => Config.unwrittenByte s.epoch a

/-- The number in `n` bytes from offset `a` up, little-endian (R106). -/
def State.readNat (s : State) (a n : Nat) : Nat := natOfBytes ((List.range n).map fun j => s.readByte (a + j))

/-- Store bytes from offset `a` up. -/
def State.storeBytes (s : State) (a : Nat) (bs : List Byte) : State := { s with mem := s.mem.store a bs }

/-! ## IMEM and DMEM (R101, R104, R105, R110) -/

/-- The block offset of IMEM word `i` (R101). -/
def imemAddr (i : Nat) : Nat := 0x40000 + 4 * i

/-- The block offset of DMEM word `i` (R101). -/
def dmemAddr (i : Nat) : Nat := 0x80000 + 64 * i

/-- IMEM word `i` (R104). -/
def State.imemWord (s : State) (i : Nat) : InsnWord := BitVec.ofNat 32 (s.readNat (imemAddr i) 4)

/-- DMEM word `i` (R105). -/
def State.dmemWord (s : State) (i : Nat) : Word := BitVec.ofNat 384 (s.readNat (dmemAddr i) 48)

/-- DMemRead(ea, n) (R110). -/
def State.dmemRead (s : State) (ea n : Nat) : List Word := (List.range n).map fun j => s.dmemWord (ea + j)

/-- DMemWrite(ea, n, ws) (R110). -/
def State.dmemWrite (s : State) (ea : Nat) : List Word → State
  | [] => s
  | w :: ws => State.dmemWrite (s.storeBytes (dmemAddr ea) (bytesOfNat 48 w.toNat)) (ea + 1) ws

/-! ## Registers, counters, constants (R13) -/

/-- E[i]. An index past E63 names no register (R41); the range check keeps it from being read. -/
def State.getE (s : State) (i : Nat) : Word := s.e.getD i 0

/-- E[i] <- v. -/
def State.setE (s : State) (i : Nat) (v : Word) : State := { s with e := s.e.setIfInBounds i v }

/-- E[i..i+n-1]. -/
def State.group (s : State) (i n : Nat) : List Word := (List.range n).map fun j => s.getE (i + j)

/-- E[i..] <- ws, one register a word. -/
def State.setGroup (s : State) (i : Nat) : List Word → State
  | [] => s
  | w :: ws => State.setGroup (s.setE i w) (i + 1) ws

/-- C[i]. -/
def State.getC (s : State) (i : Ctr) : Half := s.c[i.val]

/-- C[i] <- v. -/
def State.setC (s : State) (i : Ctr) (v : Half) : State := { s with c := s.c.set i.val v }

/-- KST[k]. An index past K127 names no word (R401); the range check keeps it from being read. -/
def State.getK (s : State) (k : Nat) : Word := s.kst.getD k 0

/-! ## The active width (R10, R16) -/

/-- L. -/
def State.limbs (s : State) : Nat := s.nlimbs.val + 1

/-- W = 64 L. -/
def State.width (s : State) : Nat := 64 * s.limbs

/-- R = 2^W. -/
def State.radix (s : State) : Nat := 2 ^ s.width

/-- The configured modulus: the low W bits of MODP (R53). -/
def State.p (s : State) : Nat := s.modp.toNat % s.radix

/-- w(i): the active-width value of a register (R13). -/
def State.w (s : State) (i : Nat) : Nat := (s.getE i).toNat % s.radix

/-- kw(k): the active-width value of a constant (R13). -/
def State.kw (s : State) (k : Nat) : Nat := (s.getK k).toNat % s.radix

/-- A W-bit result as a register word (R16). -/
def wordOf (n : Nat) : Word := BitVec.ofNat 384 n

/-! ## Faults (R501, R510-R512) -/

/-- The cause code (R501). -/
def Cause.code : Cause → Nat
  | .fetchRange => 1
  | .illegalInsn => 2
  | .regRange => 3
  | .regOverlap => 4
  | .dmemRange => 5
  | .config => 6
  | .notReduced => 7
  | .notInvertible => 8

/-- A cause with its EINFO. -/
abbrev FaultInfo := Cause × Nat

/-- Fault(cause, einfo): the fault record, STATE = ERROR and IRQPEND.ERR (R510); both latches clear (R61, R504). -/
def State.takeFault (s : State) (cause : Cause) (einfo : Nat) (insn : InsnWord) : State :=
  { s with
    fault := { cause := BitVec.ofNat 8 cause.code, epc := s.pc, einfo := BitVec.ofNat 32 einfo, insn := insn }
    seq := .error
    irqpendErr := true
    stepPending := false
    haltRequested := false }

/-- CTRL.START while not RUNNING: the return from a fault, and the start of any run (R48, R512). -/
def State.start (s : State) : State :=
  { s with fault := { cause := 0, epc := 0, einfo := 0, insn := 0 }, seq := .running }

/-- CTRL.STEP while not RUNNING: as START, for one instruction (R48, R61). -/
def State.startStep (s : State) : State := { s.start with stepPending := true }

/-! ## Retirement (R506, R421) -/

/-- What executing an instruction gives: the state with its results written, the next pc, and whether it is HALT. -/
structure Result where
  state : State
  pc : Half
  halt : Bool

/-- The result of an instruction that is no taken branch: pc + 1 (R421). -/
def State.fallThrough (s : State) : Result := { state := s, pc := s.pc + 1, halt := false }

/-- The result of a branch (R421). -/
def State.branch (s : State) (taken : Bool) (target : Half) : Result :=
  { state := s, pc := if taken then target else s.pc + 1, halt := false }

/-- Retire (R506): pc, INSTRET, then the state of SEQ; both latches clear when it leaves RUNNING. -/
def Result.retire (r : Result) : State :=
  let t := { r.state with pc := r.pc, instret := r.state.instret + 1 }
  if r.halt then { t with seq := .done, irqpendDone := true, stepPending := false, haltRequested := false }
  else if t.stepPending || t.haltRequested then { t with seq := .idle, stepPending := false, haltRequested := false }
  else t

/-! ## Reset and the interrupt output -/

/-- Soft reset, CTRL.SRST (R48, R550): all but the four storage arrays and the parameters; the model's own fields stay. -/
def State.softReset (s : State) : State :=
  { State.hardwareReset s.params s.epoch with
    e := s.e, kst := s.kst, mem := s.mem, freeCtr := s.freeCtr, bus := s.bus, rdata := s.rdata }

/-- Hardware reset of a running block (R550): fresh unspecified storage; the inputs still to come stay (log 20). -/
def State.hardReset (s : State) : State :=
  { State.hardwareReset s.params (s.epoch + 1) with freeCtr := s.freeCtr, bus := s.bus, rdata := s.rdata }

/-- The IRQ output (R520). -/
def State.irq (s : State) : Bool := (s.irqpendDone && s.irqenDone) || (s.irqpendErr && s.irqenErr)

end Sys2Proof.Machine
end

