-- ==== Sys2Proof/Machine/Flags.lean ====
section
/-! DEFINITION. The flags FL.C, FL.EQ and FL.LT (10_state R44): who writes what, and the conditions of BF (30_encoding R159). -/

namespace Sys2Proof.Machine

/-- FL.C <- b. -/
def State.setFlC (s : State) (b : Bool) : State := { s with flC := b }

/-- FL.EQ <- b. -/
def State.setFlEq (s : State) (b : Bool) : State := { s with flEq := b }

/-- FL.EQ and FL.LT of an unsigned comparison (R206). -/
def State.setComparison (s : State) (a b : Nat) : State := { s with flEq := decide (a = b), flLt := decide (a < b) }

/-- The carry out of the W-bit sum of two W-bit values: bit W (R202). -/
def carryOut (W a b : Nat) : Bool := (a + b).testBit W

/-- The borrow: the subtrahend exceeds the minuend (R203). -/
def borrowOut (a b : Nat) : Bool := decide (a < b)

/-- A condition of BF holds (R159). -/
def State.holds (s : State) : Cond → Bool
  | .eq => s.flEq
  | .ne => !s.flEq
  | .lt => s.flLt
  | .ge => !s.flLt
  | .cs => s.flC
  | .cc => !s.flC

end Sys2Proof.Machine
end

