-- ==== Sys2Proof/Machine/Montgomery.lean ====
section
/-! DEFINITION. Arithmetic modulo p: the Montgomery constants and reduction (00_scope R15, 41_field R232), the inverse modulo p, and
the maps phi and val between residues and Montgomery words. -/

namespace Sys2Proof.Machine

/-- Rinv = R^-1 mod p for odd p and R = 2^W: (p + 1)/2 is the inverse of 2 (R15, R360; log 17). -/
def rInv (p W : Nat) : Nat := ((p + 1) / 2) ^ W % p

/-- pinv = (-p^-1) mod R for odd p and R = 2^W: R * Rinv - 1 is a multiple of p, and the quotient is the value (R15; log 17). -/
def negPInv (p W : Nat) : Nat := (2 ^ W * rInv p W - 1) / p

/-- REDC(T), with the quotient factor reduced mod R (R232, C1). -/
def redc (p pinv R T : Nat) : Nat :=
  let m := (T % R * pinv) % R
  let t := (T + m * p) / R
  if t ≥ p then t - p else t

/-- The loop of the extended Euclidean algorithm modulo p, on remainders r0 > r1 with r_i = t_i * a mod p: what is left is the
greatest common divisor and its factor. Each turn lowers r1, so `fuel` above the first r1 suffices. -/
def euclid (p : Nat) : Nat → Nat → Nat → Nat → Nat → Nat × Nat
  | 0, r0, t0, _, _ => (r0, t0)
  | fuel + 1, r0, t0, r1, t1 =>
    if r1 = 0 then (r0, t0)
    else euclid p fuel r1 t1 (r0 % r1) ((t0 + (p - r0 / r1 % p * t1 % p)) % p)

/-- The inverse of a residue modulo p, if it has one (R256; log 16). -/
def modInv (p a : Nat) : Option Nat :=
  let x := euclid p (p + 1) p 0 (a % p) (1 % p)
  if x.1 = 1 then some x.2 else none

/-- bitlen: 0 for 0, else one more than the index of the top bit (R432). -/
def bitlen (n : Nat) : Nat := if n = 0 then 0 else n.log2 + 1

/-- REDC with the configured p, PINV and R (R232). -/
def State.redc (s : State) (T : Nat) : Nat := Machine.redc s.p s.pinv.toNat s.radix T

/-- mont(a, b) = REDC(a * b) (R234). -/
def State.mont (s : State) (a b : Nat) : Nat := s.redc (a * b)

/-- phi: the Montgomery word of a residue (R15). -/
def State.phi (s : State) (x : Nat) : Nat := x * s.radix % s.p

/-- val: the residue that a word represents (R15). -/
def State.val (s : State) (w : Nat) : Nat := w * rInv s.p s.width % s.p

/-- The residue that KST word `k` represents. -/
def State.kv (s : State) (k : Nat) : Nat := s.val (s.kw k)

end Sys2Proof.Machine
end

