-- ==== Sys2Proof/Machine/Operands.lean ====
section
/-! DEFINITION. The operand groups of every instruction (30_encoding R161), the common checks in their order (60_exceptions R503), the
effective address of LD and ST (45_move R402), and `perform`, the shared course of one instruction (R505). -/

namespace Sys2Proof.Machine

/-- deg(ft), the number of words of an element (R17, R146). -/
def degree : FieldType → Nat
  | .F1 => 1
  | .F2 => 2
  | .F3 => 3
  | .F4 => 4
  | .F6 => 6
  | .F6B => 6
  | .F12 => 12

/-- The role of an operand group (R161). -/
inductive Role where
  | src | raw | dst | srcdst
deriving DecidableEq, Repr

/-- The words of a group are reduction-checked (R161). -/
def Role.checked : Role → Bool
  | .src | .srcdst => true
  | .raw | .dst => false

/-- A register group: E[base .. base + size - 1] (R41). -/
structure Group where
  base : Nat
  size : Nat
  role : Role
deriving DecidableEq, Repr

/-- What the common checks of an instruction need to know (R161, R503). -/
structure Operands where
  /-- The groups of the fields rd, rs1 and rs2 (r of format M and rs of T and L stand in `rd` or `rs1`). -/
  rd : Option Group := none
  rs1 : Option Group := none
  rs2 : Option Group := none
  /-- LDK's constant-store group: first word and size. -/
  kGroup : Option (Nat × Nat) := none
  /-- The rd and rs1 groups must not share a register (R14). -/
  noOverlap : Bool := false
  /-- The instruction needs the configuration (R231). -/
  config : Bool := false
  /-- The DMEM group of LD and ST: base counter, offset, size. -/
  dmem : Option (Ctr × Nat × Nat) := none
  /-- The KST words the instruction lists, in ascending order. -/
  kst : List Nat := []
deriving DecidableEq, Repr

/-- The group of `n` registers from a register up. -/
def groupAt (r : Reg) (n : Nat) (role : Role) : Option Group := some { base := r.val, size := n, role := role }

/-! ## The constant-store words of each operation (R161, R237, R259) -/

/-- nr_set(ft) (R237). -/
def nrSet : FieldType → List Nat
  | .F1 => []
  | .F2 => [0]
  | .F3 => [1]
  | .F4 => [0]
  | .F6 => [0, 2, 3]
  | .F6B => [1]
  | .F12 => [0, 2, 3]

/-- frob_set(ft, k) (R259), in ascending order. -/
def frobSet (ft : FieldType) (k : Nat) : List Nat :=
  match ft with
  | .F1 => []
  | .F2 => [4 + k % 2]
  | .F3 => [6 + k % 3, 9 + k % 3]
  | .F4 => [4 + k % 2, 12 + k % 4]
  | .F6 => [0, 4 + k % 2, 16 + 2 * (k % 6), 17 + 2 * (k % 6), 28 + 2 * (k % 6), 29 + 2 * (k % 6)]
  | .F6B => [6 + k % 3, 9 + k % 3, 40 + k % 6]
  | .F12 => [0, 4 + k % 2, 16 + 2 * (k % 6), 17 + 2 * (k % 6), 28 + 2 * (k % 6), 29 + 2 * (k % 6),
      46 + 2 * (k % 12), 47 + 2 * (k % 12)]

/-- The index of the first word of the curve coefficient a: G1_A or G2_A (R62, R321). -/
def curveAIdx : FieldType → Nat
  | .F1 => 70
  | .F2 | .F3 | .F4 | .F6 | .F6B | .F12 => 72

/-- The index of the first word of the curve coefficient b: G1_B or G2_B (R62, R321). -/
def curveBIdx : FieldType → Nat
  | .F1 => 71
  | .F2 | .F3 | .F4 | .F6 | .F6B | .F12 => 75

/-- The words k .. k + deg(ft) - 1. -/
def kstSpan (ft : FieldType) (k : Nat) : List Nat := (List.range (degree ft)).map fun j => k + j

/-! ## The table of R161 -/

/-- rd dst, rs1 src, rs2 src, each `n` words, with the configuration. -/
def Operands.three (n : Nat) (rd rs1 rs2 : Reg) (kst : List Nat) : Operands :=
  { rd := groupAt rd n .dst, rs1 := groupAt rs1 n .src, rs2 := groupAt rs2 n .src, config := true, kst := kst }

/-- rd dst, rs1 src, each `n` words, with the configuration. -/
def Operands.two (n : Nat) (rd rs1 : Reg) (kst : List Nat) : Operands :=
  { rd := groupAt rd n .dst, rs1 := groupAt rs1 n .src, config := true, kst := kst }

/-- The operand groups of every instruction (R161). -/
def operandsOf : Instr → Operands
  | .fadd ft rd rs1 rs2 => .three (degree ft) rd rs1 rs2 []
  | .fsub ft rd rs1 rs2 => .three (degree ft) rd rs1 rs2 []
  | .fneg ft rd rs1 => .two (degree ft) rd rs1 []
  | .fmul ft rd rs1 rs2 => .three (degree ft) rd rs1 rs2 (nrSet ft)
  | .fsqr ft rd rs1 => .two (degree ft) rd rs1 (nrSet ft)
  | .finv ft rd rs1 => .two (degree ft) rd rs1 (nrSet ft)
  | .ffrob ft rd rs1 k => .two (degree ft) rd rs1 (frobSet ft k.val)
  | .fconj ft rd rs1 => .two (degree ft) rd rs1 []
  | .fcsqr ft rd rs1 => .two (degree ft) rd rs1 (nrSet ft)
  | .fcexp ft rd rs1 rs2 => { Operands.two (degree ft) rd rs1 (nrSet ft) with rs2 := groupAt rs2 1 .raw }
  | .fpow ft rd rs1 rs2 => { Operands.two (degree ft) rd rs1 (nrSet ft) with rs2 := groupAt rs2 1 .raw }
  | .fzero ft rd => { rd := groupAt rd (degree ft) .dst, config := true }
  | .fone ft rd => { rd := groupAt rd (degree ft) .dst, config := true }
  | .tom ft rd rs1 => { rd := groupAt rd (degree ft) .dst, rs1 := groupAt rs1 (degree ft) .raw, config := true }
  | .fromm ft rd rs1 => { rd := groupAt rd (degree ft) .dst, rs1 := groupAt rs1 (degree ft) .raw, config := true }
  | .mov ft rd rs1 => { rd := groupAt rd (degree ft) .dst, rs1 := groupAt rs1 (degree ft) .raw }
  | .ldk ft rd k => { rd := groupAt rd (degree ft) .dst, kGroup := some (k.val, degree ft) }
  | .ld ft r cb off => { rd := groupAt r (degree ft) .dst, dmem := some (cb, off.val, degree ft) }
  | .st ft r cb off => { rd := groupAt r (degree ft) .raw, dmem := some (cb, off.val, degree ft) }
  | .badd rd rs1 rs2 => { rd := groupAt rd 1 .dst, rs1 := groupAt rs1 1 .raw, rs2 := groupAt rs2 1 .raw }
  | .bsub rd rs1 rs2 => { rd := groupAt rd 1 .dst, rs1 := groupAt rs1 1 .raw, rs2 := groupAt rs2 1 .raw }
  | .bmul rd rs1 rs2 => { rd := groupAt rd 2 .dst, rs1 := groupAt rs1 1 .raw, rs2 := groupAt rs2 1 .raw }
  | .bredc rd rs1 => { rd := groupAt rd 1 .dst, rs1 := groupAt rs1 2 .raw, config := true }
  | .bcmp ft rs1 rs2 => { rs1 := groupAt rs1 (degree ft) .raw, rs2 := groupAt rs2 (degree ft) .raw }
  | .bseti rd _ => { rd := groupAt rd 1 .dst }
  | .padd ft rd rs1 rs2 => .three (3 * degree ft) rd rs1 rs2 (nrSet ft ++ kstSpan ft (curveAIdx ft))
  | .pmadd ft rd rs1 rs2 => .three (3 * degree ft) rd rs1 rs2 (nrSet ft ++ kstSpan ft (curveAIdx ft))
  | .pdbl ft rd rs1 => .two (3 * degree ft) rd rs1 (nrSet ft ++ kstSpan ft (curveAIdx ft))
  | .pneg ft rd rs1 => .two (3 * degree ft) rd rs1 []
  | .paff ft rd rs1 => .two (3 * degree ft) rd rs1 (nrSet ft)
  | .ponc ft rs1 =>
    { rs1 := groupAt rs1 (3 * degree ft) .src, config := true
      kst := nrSet ft ++ kstSpan ft (curveAIdx ft) ++ kstSpan ft (curveBIdx ft) }
  | .pmulq ft rd rs1 =>
    .two (3 * degree ft) rd rs1 (nrSet ft ++ frobSet ft 1 ++ kstSpan ft 80 ++ kstSpan ft 83)
  | .ldbl rd rs1 =>
    { rd := groupAt rd 6 .dst, rs1 := groupAt rs1 6 .srcdst, noOverlap := true, config := true, kst := [0, 75, 76, 78, 79] }
  | .ladd rd rs1 rs2 =>
    { rd := groupAt rd 6 .dst, rs1 := groupAt rs1 6 .srcdst, rs2 := groupAt rs2 4 .src, noOverlap := true, config := true
      kst := [0, 78, 79] }
  | .fmul024 rd rs1 rs2 =>
    { rd := groupAt rd 12 .dst, rs1 := groupAt rs1 12 .src, rs2 := groupAt rs2 6 .src, config := true, kst := [0, 2, 3] }
  | .mlacc rd rs1 rs2 =>
    { rd := groupAt rd 12 .srcdst, rs1 := groupAt rs1 6 .src, rs2 := groupAt rs2 2 .src, config := true, kst := [0, 2, 3] }
  | .mldbl rd rs1 rs2 =>
    { rd := groupAt rd 12 .srcdst, rs1 := groupAt rs1 6 .srcdst, rs2 := groupAt rs2 2 .src, noOverlap := true, config := true
      kst := [0, 2, 3, 75, 76, 78, 79] }
  | .mladd rd rs1 rs2 =>
    { rd := groupAt rd 12 .srcdst, rs1 := groupAt rs1 6 .srcdst, rs2 := groupAt rs2 6 .src, noOverlap := true, config := true
      kst := [0, 2, 3, 78, 79] }
  | .bbs _ rs _ => { rs1 := groupAt rs 1 .raw }
  | .bbc _ rs _ => { rs1 := groupAt rs 1 .raw }
  | .cblen _ rs => { rs1 := groupAt rs 1 .raw }
  | .jmp _ => {}
  | .bf _ _ => {}
  | .bcnz _ _ => {}
  | .cset _ _ => {}
  | .caddi _ _ _ => {}
  | .nop => {}
  | .halt => {}

/-! ## The common checks (R503, steps 3 to 7) -/

/-- The groups an instruction names, in the field order rd, rs1, rs2 (R503). -/
def Operands.groups (o : Operands) : List Group := o.rd.toList ++ o.rs1.toList ++ o.rs2.toList

/-- The group runs past E63 (R41). -/
def Group.pastEnd (g : Group) : Bool := decide (64 < g.base + g.size)

/-- Step 3, the register groups: EINFO is the base of the first group out of range. -/
def checkRegRange (o : Operands) : Option FaultInfo :=
  (o.groups.find? Group.pastEnd).map fun g => (.regRange, g.base)

/-- Step 3, LDK's constant-store group: EINFO is 0x100 + kidx (R401). -/
def checkKRange (o : Operands) : Option FaultInfo :=
  match o.kGroup with
  | some (k, n) => if 128 < k + n then some (.regRange, 0x100 + k) else none
  | none => none

/-- Two groups share a register. -/
def Group.meets (g h : Group) : Bool := decide (g.base < h.base + h.size) && decide (h.base < g.base + g.size)

/-- Step 4: REG_OVERLAP. -/
def checkOverlap (o : Operands) : Option FaultInfo :=
  match o.rd, o.rs1 with
  | some g, some h => if o.noOverlap && g.meets h then some (.regOverlap, 0) else none
  | _, _ => none

/-- Step 5: CONFIG (R231). -/
def checkConfig (s : State) (o : Operands) : Option FaultInfo :=
  if o.config && !s.cfgok then some (.config, 0) else none

/-- The DMEM word index of LD and ST, in unbounded integers (R402). -/
def State.dmemEa (s : State) (cb : Ctr) (off : Nat) : Nat := (s.getC cb).toNat + off

/-- Step 6: DMEM_RANGE (R402). -/
def checkDmem (s : State) (o : Operands) : Option FaultInfo :=
  match o.dmem with
  | some (cb, off, d) =>
    if s.params.dmemWords < s.dmemEa cb off + d then some (.dmemRange, s.dmemEa cb off) else none
  | none => none

/-- The registers whose reduction is checked, in the order of step 7: rs1, rs2, then rd. -/
def Operands.checkedRegs (o : Operands) : List Nat :=
  (o.rs1.toList ++ o.rs2.toList ++ o.rd.toList).flatMap fun g =>
    if g.role.checked then (List.range g.size).map fun j => g.base + j else []

/-- Step 7, the registers: EINFO is the index of the first word not below p. -/
def checkReducedRegs (s : State) (o : Operands) : Option FaultInfo :=
  (o.checkedRegs.find? fun i => decide (s.p ≤ s.w i)).map fun i => (.notReduced, i)

/-- Step 7, the constants: EINFO is 0x100 + the index of the first word not below p. -/
def checkReducedKst (s : State) (o : Operands) : Option FaultInfo :=
  (o.kst.find? fun k => decide (s.p ≤ s.kw k)).map fun k => (.notReduced, 0x100 + k)

/-- Steps 3 to 7 of R503: the first check that fails. -/
def State.commonChecks (s : State) (o : Operands) : Option FaultInfo :=
  [checkRegRange o, checkKRange o, checkOverlap o, checkConfig s o, checkDmem s o, checkReducedRegs s o,
    checkReducedKst s o].findSome? id

/-! ## The course of one instruction (R505) -/

/-- Check, execute, retire; or take the fault of the first check that fails, or the one execution finds. The instruction word
of the fault record is the one that encodes the instruction, and a term no word encodes is the illegal field type that its
encoding would be (log 15). -/
def perform (i : Instr) (s : State) (run : State → Except FaultInfo Result) : Host.Outcome State Fault Refusal :=
  .next <|
    if i.wellFormed then
      match s.commonChecks (operandsOf i) with
      | some (cause, einfo) => s.takeFault cause einfo (encode i)
      | none =>
        match run s with
        | .error (cause, einfo) => s.takeFault cause einfo (encode i)
        | .ok r => r.retire
    else s.takeFault .illegalInsn Illegal.illegalFt.subcode (encode i)

end Sys2Proof.Machine
end

