-- ==== Sys2Proof/Machine/Tower.lean ====
section
/-! DEFINITION. The tower of rings (00_scope R17-R19, 41_field R236, R237): elements, the ring operations of each level, powers,
inverses by value (R256), the Frobenius formula (R259), and reading and writing elements in registers. -/

namespace Sys2Proof.Machine

/-- The operations of one ring of the tower, on elements of type `α`. -/
structure RingOps (α : Type) where
  /-- The number of base-field coefficients. -/
  deg : Nat
  zero : α
  one : α
  add : α → α → α
  sub : α → α → α
  neg : α → α
  mul : α → α → α
  /-- The inverse, if there is one. -/
  inv : α → Option α
  /-- Equality. -/
  beq : α → α → Bool
  /-- A base-field scalar times every coefficient. -/
  scale : Nat → α → α
  /-- The base-field coefficients in the word layout of R18. -/
  coeffs : α → List Nat
  /-- The element with the first coefficients of a list. -/
  ofCoeffs : List Nat → α

/-- F1 = Z/pZ, residues in [0, p) (R236). -/
def primeRing (p : Nat) : RingOps Nat where
  deg := 1
  zero := 0
  one := 1 % p
  add a b := (a + b) % p
  sub a b := (a + (p - b % p)) % p
  neg a := (p - a % p) % p
  mul a b := a * b % p
  inv a := modInv p a
  beq a b := a == b
  scale c a := c * a % p
  coeffs a := [a]
  ofCoeffs l := l.headD 0

/-- The quadratic extension of a child ring, g^2 = NR, where `nr x` is NR * x in the child (R237). An element is invertible
exactly when its norm is (log 16). -/
def quadRing {α : Type} (c : RingOps α) (nr : α → α) : RingOps (α × α) where
  deg := 2 * c.deg
  zero := (c.zero, c.zero)
  one := (c.one, c.zero)
  add a b := (c.add a.1 b.1, c.add a.2 b.2)
  sub a b := (c.sub a.1 b.1, c.sub a.2 b.2)
  neg a := (c.neg a.1, c.neg a.2)
  mul a b := (c.add (c.mul a.1 b.1) (nr (c.mul a.2 b.2)), c.add (c.mul a.1 b.2) (c.mul a.2 b.1))
  inv a :=
    match c.inv (c.sub (c.mul a.1 a.1) (nr (c.mul a.2 a.2))) with
    | some n => some (c.mul a.1 n, c.neg (c.mul a.2 n))
    | none => none
  beq a b := c.beq a.1 b.1 && c.beq a.2 b.2
  scale k a := (c.scale k a.1, c.scale k a.2)
  coeffs a := c.coeffs a.1 ++ c.coeffs a.2
  ofCoeffs l := (c.ofCoeffs l, c.ofCoeffs (l.drop c.deg))

/-- The cubic extension of a child ring, g^3 = NR (R237). An element is invertible exactly when its norm is (log 16). -/
def cubicRing {α : Type} (c : RingOps α) (nr : α → α) : RingOps (α × α × α) where
  deg := 3 * c.deg
  zero := (c.zero, c.zero, c.zero)
  one := (c.one, c.zero, c.zero)
  add a b := (c.add a.1 b.1, c.add a.2.1 b.2.1, c.add a.2.2 b.2.2)
  sub a b := (c.sub a.1 b.1, c.sub a.2.1 b.2.1, c.sub a.2.2 b.2.2)
  neg a := (c.neg a.1, c.neg a.2.1, c.neg a.2.2)
  mul a b :=
    (c.add (c.mul a.1 b.1) (nr (c.add (c.mul a.2.1 b.2.2) (c.mul a.2.2 b.2.1))),
      c.add (c.add (c.mul a.1 b.2.1) (c.mul a.2.1 b.1)) (nr (c.mul a.2.2 b.2.2)),
      c.add (c.add (c.mul a.1 b.2.2) (c.mul a.2.1 b.2.1)) (c.mul a.2.2 b.1))
  inv a :=
    let t0 := c.sub (c.mul a.1 a.1) (nr (c.mul a.2.1 a.2.2))
    let t1 := c.sub (nr (c.mul a.2.2 a.2.2)) (c.mul a.1 a.2.1)
    let t2 := c.sub (c.mul a.2.1 a.2.1) (c.mul a.1 a.2.2)
    match c.inv (c.add (c.mul a.1 t0) (nr (c.add (c.mul a.2.2 t1) (c.mul a.2.1 t2)))) with
    | some n => some (c.mul t0 n, c.mul t1 n, c.mul t2 n)
    | none => none
  beq a b := c.beq a.1 b.1 && c.beq a.2.1 b.2.1 && c.beq a.2.2 b.2.2
  scale k a := (c.scale k a.1, c.scale k a.2.1, c.scale k a.2.2)
  coeffs a := c.coeffs a.1 ++ c.coeffs a.2.1 ++ c.coeffs a.2.2
  ofCoeffs l := (c.ofCoeffs l, c.ofCoeffs (l.drop c.deg), c.ofCoeffs (l.drop (2 * c.deg)))

/-! ## The levels (R17, R237) -/

/-- An element of F2: c0 + c1 u. -/
abbrev E2 := Nat × Nat
/-- An element of F3: c0 + c1 t + c2 t^2. -/
abbrev E3 := Nat × Nat × Nat
/-- An element of F6: c0 + c1 v + c2 v^2 over F2. -/
abbrev E6 := E2 × E2 × E2

/-- The elements of F_ft (R17). -/
@[reducible] def Elt : FieldType → Type
  | .F1 => Nat
  | .F2 => E2
  | .F3 => E3
  | .F4 => E2 × E2
  | .F6 => E6
  | .F6B => E3 × E3
  | .F12 => E6 × E6

/-- F2 = F_p[u]/(u^2 - beta), beta in KST word 0. -/
def ring2 (p : Nat) (kv : Nat → Nat) : RingOps E2 := quadRing (primeRing p) fun x => kv 0 * x % p

/-- F3 = F_p[t]/(t^3 - gamma), gamma in KST word 1. -/
def ring3 (p : Nat) (kv : Nat → Nat) : RingOps E3 := cubicRing (primeRing p) fun x => kv 1 * x % p

/-- F4 = F2[s]/(s^2 - u): u * x = (beta * x1, x0). -/
def ring4 (p : Nat) (kv : Nat → Nat) : RingOps (E2 × E2) := quadRing (ring2 p kv) fun x => (kv 0 * x.2 % p, x.1)

/-- xi * x in F2, xi in KST words 2 and 3. -/
def mulXi (p : Nat) (kv : Nat → Nat) (x : E2) : E2 := (ring2 p kv).mul (kv 2, kv 3) x

/-- F6 = F2[v]/(v^3 - xi). -/
def ring6 (p : Nat) (kv : Nat → Nat) : RingOps E6 := cubicRing (ring2 p kv) (mulXi p kv)

/-- F6B = F3[y]/(y^2 - t): t * x = (gamma * x2, x0, x1). -/
def ring6B (p : Nat) (kv : Nat → Nat) : RingOps (E3 × E3) :=
  quadRing (ring3 p kv) fun x => (kv 1 * x.2.2 % p, x.1, x.2.1)

/-- F12 = F6[w]/(w^2 - v): v * x = (xi * x2, x0, x1). -/
def ring12 (p : Nat) (kv : Nat → Nat) : RingOps (E6 × E6) :=
  quadRing (ring6 p kv) fun x => (mulXi p kv x.2.2, x.1, x.2.1)

/-- The ring F_ft for the modulus `p` and the constants `kv` (R236). -/
def ringOf (p : Nat) (kv : Nat → Nat) : (ft : FieldType) → RingOps (Elt ft)
  | .F1 => primeRing p
  | .F2 => ring2 p kv
  | .F3 => ring3 p kv
  | .F4 => ring4 p kv
  | .F6 => ring6 p kv
  | .F6B => ring6B p kv
  | .F12 => ring12 p kv

/-! ## Powers (R264) -/

/-- The left-to-right bit scan from bit n - 1 down: r <- r * r, and r * x where the bit is set. -/
def RingOps.scan {α : Type} (F : RingOps α) (x : α) (e : Nat) : Nat → α → α
  | 0, r => r
  | n + 1, r =>
    let r2 := F.mul r r
    RingOps.scan F x e n (if e.testBit n then F.mul r2 x else r2)

/-- x^e by the bit scan from the top bit (R264). -/
def RingOps.pow {α : Type} (F : RingOps α) (x : α) (e : Nat) : α := F.scan x e (bitlen e) F.one

/-! ## Frobenius and conjugation (R259, R262) -/

/-- frob_F2(x, k). -/
def frob2 (p : Nat) (kv : Nat → Nat) (x : E2) (k : Nat) : E2 := (x.1, kv (4 + k % 2) * x.2 % p)

/-- frob_F3(x, k). -/
def frob3 (p : Nat) (kv : Nat → Nat) (x : E3) (k : Nat) : E3 :=
  (x.1, kv (6 + k % 3) * x.2.1 % p, kv (9 + k % 3) * x.2.2 % p)

/-- The F2 value in KST words `k` and `k + 1`. -/
def kv2 (kv : Nat → Nat) (k : Nat) : E2 := (kv k, kv (k + 1))

/-- frob_F6(x, k). -/
def frob6 (p : Nat) (kv : Nat → Nat) (x : E6) (k : Nat) : E6 :=
  (frob2 p kv x.1 k, (ring2 p kv).mul (kv2 kv (16 + 2 * (k % 6))) (frob2 p kv x.2.1 k),
    (ring2 p kv).mul (kv2 kv (28 + 2 * (k % 6))) (frob2 p kv x.2.2 k))

/-- frob_ft(x, k) (R259). -/
def frob (p : Nat) (kv : Nat → Nat) : (ft : FieldType) → Elt ft → Nat → Elt ft
  | .F1, a, _ => a
  | .F2, x, k => frob2 p kv x k
  | .F3, x, k => frob3 p kv x k
  | .F4, x, k => (frob2 p kv x.1 k, (ring2 p kv).scale (kv (12 + k % 4)) (frob2 p kv x.2 k))
  | .F6, x, k => frob6 p kv x k
  | .F6B, x, k => (frob3 p kv x.1 k, (ring3 p kv).scale (kv (40 + k % 6)) (frob3 p kv x.2 k))
  | .F12, x, k =>
    let c := kv2 kv (46 + 2 * (k % 12))
    let b := frob6 p kv x.2 k
    (frob6 p kv x.1 k, ((ring2 p kv).mul c b.1, (ring2 p kv).mul c b.2.1, (ring2 p kv).mul c b.2.2))

/-- Conjugation of the top half on a quadratic extension (R262). The other types have no top half; FCONJ is illegal there. -/
def conj (p : Nat) (kv : Nat → Nat) : (ft : FieldType) → Elt ft → Elt ft
  | .F2, x => (x.1, (primeRing p).neg x.2)
  | .F4, x => (x.1, (ring2 p kv).neg x.2)
  | .F6B, x => (x.1, (ring3 p kv).neg x.2)
  | .F12, x => (x.1, (ring6 p kv).neg x.2)
  | .F1, x => x
  | .F3, x => x
  | .F6, x => x

/-! ## Elements in registers (R19) -/

/-- The ring F_ft of the current configuration. -/
def State.ring (s : State) (ft : FieldType) : RingOps (Elt ft) := ringOf s.p s.kv ft

/-- V_ft(i): the element in the group at register `i` (R19). -/
def State.elt (s : State) (ft : FieldType) (i : Nat) : Elt ft :=
  (s.ring ft).ofCoeffs ((List.range (degree ft)).map fun j => s.val (s.w (i + j)))

/-- The element of F_ft in the KST words from `k` up. -/
def State.kelt (s : State) (ft : FieldType) (k : Nat) : Elt ft :=
  (s.ring ft).ofCoeffs ((List.range (degree ft)).map fun j => s.kv (k + j))

/-- Write the Montgomery words of residues to the registers from `i` up (R19, R16). -/
def State.putCoeffs (s : State) (i : Nat) (xs : List Nat) : State := s.setGroup i (xs.map fun x => wordOf (s.phi x))

/-- Put_ft(i, x) (R19). -/
def State.putElt (s : State) (ft : FieldType) (i : Nat) (x : Elt ft) : State := s.putCoeffs i ((s.ring ft).coeffs x)

end Sys2Proof.Machine
end

