-- ==== Sys2Proof/Machine/BigInt.lean ====
section
/-! DEFINITION. The BigInt instructions (40_bigint R202-R207). -/

namespace Sys2Proof.Machine

/-- BADD (R202). -/
def execBadd (rd rs1 rs2 : Reg) (s : State) : Host.Outcome State Fault Refusal :=
  perform (.badd rd rs1 rs2) s fun s =>
    let sum := s.w rs1 + s.w rs2
    .ok ((s.setE rd (wordOf (sum % s.radix))).setFlC (carryOut s.width (s.w rs1) (s.w rs2))).fallThrough

/-- BSUB (R203). -/
def execBsub (rd rs1 rs2 : Reg) (s : State) : Host.Outcome State Fault Refusal :=
  perform (.bsub rd rs1 rs2) s fun s =>
    let diff := (s.w rs1 + (s.radix - s.w rs2)) % s.radix
    .ok ((s.setE rd (wordOf diff)).setFlC (borrowOut (s.w rs1) (s.w rs2))).fallThrough

/-- BMUL (R204): the low half to rd, the high half to rd + 1. -/
def execBmul (rd rs1 rs2 : Reg) (s : State) : Host.Outcome State Fault Refusal :=
  perform (.bmul rd rs1 rs2) s fun s =>
    let t := s.w rs1 * s.w rs2
    .ok (s.setGroup rd [wordOf (t % s.radix), wordOf (t / s.radix)]).fallThrough

/-- BREDC (R205): T = w(rs1 + 1) * 2^W + w(rs1). -/
def execBredc (rd rs1 : Reg) (s : State) : Host.Outcome State Fault Refusal :=
  perform (.bredc rd rs1) s fun s =>
    .ok (s.setE rd (wordOf (s.redc (s.w (rs1.val + 1) * s.radix + s.w rs1)))).fallThrough

/-- The integer in `n` registers, the first least significant (R206). -/
def State.multiword (s : State) (i : Nat) : Nat → Nat
  | 0 => 0
  | n + 1 => s.w i + s.radix * s.multiword (i + 1) n

/-- BCMP (R206). -/
def execBcmp (ft : FieldType) (rs1 rs2 : Reg) (s : State) : Host.Outcome State Fault Refusal :=
  perform (.bcmp ft rs1 rs2) s fun s =>
    .ok (s.setComparison (s.multiword rs1 (degree ft)) (s.multiword rs2 (degree ft))).fallThrough

/-- BSETI (R207). -/
def execBseti (rd : Reg) (imm : Half) (s : State) : Host.Outcome State Fault Refusal :=
  perform (.bseti rd imm) s fun s => .ok (s.setE rd (wordOf imm.toNat)).fallThrough

end Sys2Proof.Machine
end

