-- ==== Sys2Proof/Machine/Control.lean ====
section
/-! DEFINITION. Control flow and counters (46_control R422-R434). -/

namespace Sys2Proof.Machine

/-- Bit `i` of the active-width value of a register, 0 from W up (R424). -/
def State.bitOf (s : State) (r : Reg) (i : Nat) : Bool := decide (i < s.width) && (s.w r).testBit i

/-- JMP (R422). -/
def execJmp (target : Half) (s : State) : Host.Outcome State Fault Refusal :=
  perform (.jmp target) s fun s => .ok (s.branch true target)

/-- BF (R423). -/
def execBf (cond : Cond) (target : Half) (s : State) : Host.Outcome State Fault Refusal :=
  perform (.bf cond target) s fun s => .ok (s.branch (s.holds cond) target)

/-- BBS (R424). -/
def execBbs (ci : Ctr) (rs : Reg) (target : Half) (s : State) : Host.Outcome State Fault Refusal :=
  perform (.bbs ci rs target) s fun s => .ok (s.branch (s.bitOf rs (s.getC ci).toNat) target)

/-- BBC (R425). -/
def execBbc (ci : Ctr) (rs : Reg) (target : Half) (s : State) : Host.Outcome State Fault Refusal :=
  perform (.bbc ci rs target) s fun s => .ok (s.branch (!s.bitOf rs (s.getC ci).toNat) target)

/-- BCNZ (R426). -/
def execBcnz (cd : Ctr) (target : Half) (s : State) : Host.Outcome State Fault Refusal :=
  perform (.bcnz cd target) s fun s =>
    let v := s.getC cd - 1
    .ok ((s.setC cd v).branch (v != 0) target)

/-- CSET (R430). -/
def execCset (cd : Ctr) (imm : Half) (s : State) : Host.Outcome State Fault Refusal :=
  perform (.cset cd imm) s fun s => .ok (s.setC cd imm).fallThrough

/-- CADDI (R431): sext_16 of a 16-bit immediate added mod 2^16 is the 16-bit sum. -/
def execCaddi (cd cs : Ctr) (imm : Half) (s : State) : Host.Outcome State Fault Refusal :=
  perform (.caddi cd cs imm) s fun s => .ok (s.setC cd (s.getC cs + imm)).fallThrough

/-- CBLEN (R432). -/
def execCblen (cd : Ctr) (rs : Reg) (s : State) : Host.Outcome State Fault Refusal :=
  perform (.cblen cd rs) s fun s => .ok (s.setC cd (BitVec.ofNat 16 (bitlen (s.w rs)))).fallThrough

/-- NOP (R433). -/
def execNop (s : State) : Host.Outcome State Fault Refusal := perform .nop s fun s => .ok s.fallThrough

/-- HALT (R434). -/
def execHalt (s : State) : Host.Outcome State Fault Refusal :=
  perform .halt s fun s => .ok { s.fallThrough with halt := true }

end Sys2Proof.Machine
end

