-- ==== Sys2Proof/Machine/Cyclotomic.lean ====
section
/-! DEFINITION. Cyclotomic squaring and exponentiation (42_cyclotomic R302-R304). -/

namespace Sys2Proof.Machine

/-- Phi(p) (R302): Phi6(p) for F6B, Phi12(p) for F12. The other types have no cyclotomic subgroup here; FCSQR and FCEXP are
illegal there. -/
def cyclotomicOrder (p : Nat) : FieldType → Nat
  | .F12 => p ^ 4 - p ^ 2 + 1
  | .F6B => p ^ 2 - p + 1
  | .F1 | .F2 | .F3 | .F4 | .F6 => 0

/-- x is in G_ft: x^Phi(p) = one (R302). -/
def State.inCyclotomic (s : State) (ft : FieldType) (x : Elt ft) : Bool :=
  (s.ring ft).beq ((s.ring ft).pow x (cyclotomicOrder s.p ft)) (s.ring ft).one

/-- Write `n` free words, each below p, to the registers from `i` up, and draw as many (I10; log 5). -/
def State.putFree (s : State) (i n : Nat) : State :=
  let words := (List.range n).map fun j => wordOf ((Config.freeWord (s.freeCtr + j)).toNat % s.p)
  { s.setGroup i words with freeCtr := s.freeCtr + n }

/-- FCSQR (R303). -/
def execFcsqr (ft : FieldType) (rd rs1 : Reg) (s : State) : Host.Outcome State Fault Refusal :=
  perform (.fcsqr ft rd rs1) s fun s =>
    let x := s.elt ft rs1
    if s.inCyclotomic ft x then .ok (s.putElt ft rd ((s.ring ft).mul x x)).fallThrough
    else .ok (s.putFree rd (degree ft)).fallThrough

/-- FCEXP (R304). -/
def execFcexp (ft : FieldType) (rd rs1 rs2 : Reg) (s : State) : Host.Outcome State Fault Refusal :=
  perform (.fcexp ft rd rs1 rs2) s fun s =>
    let x := s.elt ft rs1
    let e := s.w rs2
    if e = 0 then .ok (s.putElt ft rd (s.ring ft).one).fallThrough
    else if s.inCyclotomic ft x then .ok (s.putElt ft rd ((s.ring ft).pow x e)).fallThrough
    else .ok (s.putFree rd (degree ft)).fallThrough

end Sys2Proof.Machine
end

