-- ==== Sys2Proof/Machine/FieldInsns.lean ====
section
/-! DEFINITION. The prime-field and tower-field instructions (41_field R240-R271). -/

namespace Sys2Proof.Machine

/-- FADD (R240). -/
def execFadd (ft : FieldType) (rd rs1 rs2 : Reg) (s : State) : Host.Outcome State Fault Refusal :=
  perform (.fadd ft rd rs1 rs2) s fun s =>
    .ok (s.putElt ft rd ((s.ring ft).add (s.elt ft rs1) (s.elt ft rs2))).fallThrough

/-- FSUB (R241). -/
def execFsub (ft : FieldType) (rd rs1 rs2 : Reg) (s : State) : Host.Outcome State Fault Refusal :=
  perform (.fsub ft rd rs1 rs2) s fun s =>
    .ok (s.putElt ft rd ((s.ring ft).sub (s.elt ft rs1) (s.elt ft rs2))).fallThrough

/-- FNEG (R242). -/
def execFneg (ft : FieldType) (rd rs1 : Reg) (s : State) : Host.Outcome State Fault Refusal :=
  perform (.fneg ft rd rs1) s fun s => .ok (s.putElt ft rd ((s.ring ft).neg (s.elt ft rs1))).fallThrough

/-- FMUL (R243): on F1 the Montgomery multiplier, on an extension the ring product. -/
def execFmul (ft : FieldType) (rd rs1 rs2 : Reg) (s : State) : Host.Outcome State Fault Refusal :=
  perform (.fmul ft rd rs1 rs2) s fun s =>
    match ft with
    | .F1 => .ok (s.setE rd (wordOf (s.mont (s.w rs1) (s.w rs2)))).fallThrough
    | ft => .ok (s.putElt ft rd ((s.ring ft).mul (s.elt ft rs1) (s.elt ft rs2))).fallThrough

/-- FSQR (R244). -/
def execFsqr (ft : FieldType) (rd rs1 : Reg) (s : State) : Host.Outcome State Fault Refusal :=
  perform (.fsqr ft rd rs1) s fun s =>
    .ok (s.putElt ft rd ((s.ring ft).mul (s.elt ft rs1) (s.elt ft rs1))).fallThrough

/-- FINV (R256). -/
def execFinv (ft : FieldType) (rd rs1 : Reg) (s : State) : Host.Outcome State Fault Refusal :=
  perform (.finv ft rd rs1) s fun s =>
    match (s.ring ft).inv (s.elt ft rs1) with
    | some b => .ok (s.putElt ft rd b).fallThrough
    | none => .error (.notInvertible, rs1.val)

/-- FFROB (R261). -/
def execFfrob (ft : FieldType) (rd rs1 : Reg) (k : Fin 32) (s : State) : Host.Outcome State Fault Refusal :=
  perform (.ffrob ft rd rs1 k) s fun s => .ok (s.putElt ft rd (frob s.p s.kv ft (s.elt ft rs1) k.val)).fallThrough

/-- FCONJ (R262). -/
def execFconj (ft : FieldType) (rd rs1 : Reg) (s : State) : Host.Outcome State Fault Refusal :=
  perform (.fconj ft rd rs1) s fun s => .ok (s.putElt ft rd (conj s.p s.kv ft (s.elt ft rs1))).fallThrough

/-- FPOW (R264). -/
def execFpow (ft : FieldType) (rd rs1 rs2 : Reg) (s : State) : Host.Outcome State Fault Refusal :=
  perform (.fpow ft rd rs1 rs2) s fun s =>
    .ok (s.putElt ft rd ((s.ring ft).pow (s.elt ft rs1) (s.w rs2))).fallThrough

/-- FZERO (R266). -/
def execFzero (ft : FieldType) (rd : Reg) (s : State) : Host.Outcome State Fault Refusal :=
  perform (.fzero ft rd) s fun s => .ok (s.setGroup rd (List.replicate (degree ft) 0)).fallThrough

/-- FONE (R268): RONE, then zeros. -/
def execFone (ft : FieldType) (rd : Reg) (s : State) : Host.Outcome State Fault Refusal :=
  perform (.fone ft rd) s fun s =>
    .ok (s.setGroup rd (s.rone :: List.replicate (degree ft - 1) 0)).fallThrough

/-- TOM (R270): mont(w, RSQ), word by word. -/
def execTom (ft : FieldType) (rd rs1 : Reg) (s : State) : Host.Outcome State Fault Refusal :=
  perform (.tom ft rd rs1) s fun s =>
    .ok (s.setGroup rd ((List.range (degree ft)).map fun j => wordOf (s.mont (s.w (rs1.val + j)) s.rsq.toNat))).fallThrough

/-- FROMM (R271): REDC(w), word by word. -/
def execFromm (ft : FieldType) (rd rs1 : Reg) (s : State) : Host.Outcome State Fault Refusal :=
  perform (.fromm ft rd rs1) s fun s =>
    .ok (s.setGroup rd ((List.range (degree ft)).map fun j => wordOf (s.redc (s.w (rs1.val + j))))).fallThrough

end Sys2Proof.Machine
end

