-- ==== Sys2Proof/Machine/Move.lean ====
section
/-! DEFINITION. The moves (45_move R400-R404): all 384 bits of every word, no configuration, no reduction check. -/

namespace Sys2Proof.Machine

/-- MOV (R400). -/
def execMov (ft : FieldType) (rd rs1 : Reg) (s : State) : Host.Outcome State Fault Refusal :=
  perform (.mov ft rd rs1) s fun s => .ok (s.setGroup rd (s.group rs1 (degree ft))).fallThrough

/-- LDK (R401). -/
def execLdk (ft : FieldType) (rd : Reg) (k : KIdx) (s : State) : Host.Outcome State Fault Refusal :=
  perform (.ldk ft rd k) s fun s =>
    .ok (s.setGroup rd ((List.range (degree ft)).map fun j => s.getK (k.val + j))).fallThrough

/-- LD (R403). -/
def execLd (ft : FieldType) (r : Reg) (cb : Ctr) (off : Fin 16384) (s : State) : Host.Outcome State Fault Refusal :=
  perform (.ld ft r cb off) s fun s =>
    .ok (s.setGroup r (s.dmemRead (s.dmemEa cb off.val) (degree ft))).fallThrough

/-- ST (R404). -/
def execSt (ft : FieldType) (r : Reg) (cb : Ctr) (off : Fin 16384) (s : State) : Host.Outcome State Fault Refusal :=
  perform (.st ft r cb off) s fun s =>
    .ok (s.dmemWrite (s.dmemEa cb off.val) (s.group r (degree ft))).fallThrough

end Sys2Proof.Machine
end

