-- ==== Sys2Proof/Machine/Points.lean ====
section
/-! DEFINITION. The elliptic-curve point instructions (43_point R320-R328): the formulas over any ring of the tower, computed as
written, then the instructions. -/

namespace Sys2Proof.Machine

/-- A projective point (X : Y : Z) (R20). -/
structure Point (α : Type) where
  x : α
  y : α
  z : α
deriving DecidableEq, Repr

/-- 2x = x + x (R321). -/
def RingOps.twice {α : Type} (F : RingOps α) (x : α) : α := F.add x x

/-- 3x = x + x + x (R321). -/
def RingOps.thrice {α : Type} (F : RingOps α) (x : α) : α := F.add (F.add x x) x

/-- x = 0. -/
def RingOps.isZero {α : Type} (F : RingOps α) (x : α) : Bool := F.beq x F.zero

/-- DBL (R324), for the curve coefficient `a`. -/
def pointDouble {α : Type} (F : RingOps α) (a : α) (P : Point α) : Point α :=
  if F.isZero P.z then P
  else
    let XX := F.mul P.x P.x
    let ZZ := F.mul P.z P.z
    let w := F.add (F.mul a ZZ) (F.thrice XX)
    let s := F.mul (F.twice P.y) P.z
    let ss := F.mul s s
    let sss := F.mul s ss
    let R := F.mul P.y s
    let RR := F.mul R R
    let B := F.sub (F.sub (F.mul (F.add P.x R) (F.add P.x R)) XX) RR
    let h := F.sub (F.mul w w) (F.twice B)
    { x := F.mul h s, y := F.sub (F.mul w (F.sub B h)) (F.twice RR), z := sss }

/-- The sum of two points (R322), with its special cases. -/
def pointAdd {α : Type} (F : RingOps α) (a : α) (P Q : Point α) : Point α :=
  if F.isZero P.z then Q
  else if F.isZero Q.z then P
  else if F.beq (F.mul P.x Q.z) (F.mul Q.x P.z) && F.beq (F.mul P.y Q.z) (F.mul Q.y P.z) then pointDouble F a P
  else
    let Y1Z2 := F.mul P.y Q.z
    let X1Z2 := F.mul P.x Q.z
    let Z1Z2 := F.mul P.z Q.z
    let u := F.sub (F.mul Q.y P.z) Y1Z2
    let uu := F.mul u u
    let v := F.sub (F.mul Q.x P.z) X1Z2
    let vv := F.mul v v
    let vvv := F.mul v vv
    let R := F.mul vv X1Z2
    let A := F.sub (F.sub (F.mul uu Z1Z2) vvv) (F.twice R)
    { x := F.mul v A, y := F.sub (F.mul u (F.sub R A)) (F.mul vvv Y1Z2), z := F.mul vvv Z1Z2 }

/-- Mixed addition (R323, D15): a nonzero Z2 is taken as 1, also where Z1 = 0, as the rule's operands and corner cases have it;
DEDUCED there, against the Z2 as it stands of the rule's pseudocode (log 23). -/
def pointMixedAdd {α : Type} (F : RingOps α) (a : α) (P Q : Point α) : Point α :=
  if F.isZero P.z then (if F.isZero Q.z then Q else { Q with z := F.one })
  else if F.isZero Q.z then P
  else if F.beq P.x (F.mul Q.x P.z) && F.beq P.y (F.mul Q.y P.z) then pointDouble F a P
  else
    let u := F.sub (F.mul Q.y P.z) P.y
    let uu := F.mul u u
    let v := F.sub (F.mul Q.x P.z) P.x
    let vv := F.mul v v
    let vvv := F.mul v vv
    let R := F.mul vv P.x
    let A := F.sub (F.sub (F.mul uu P.z) vvv) (F.twice R)
    { x := F.mul v A, y := F.sub (F.mul u (F.sub R A)) (F.mul vvv P.y), z := F.mul vvv P.z }

/-- The negative of a point (R325). -/
def pointNeg {α : Type} (F : RingOps α) (P : Point α) : Point α := { P with y := F.neg P.y }

/-- The affine form with the sentinel (0, one, 0) for the identity; none where Z is nonzero and has no inverse (R326). -/
def pointAffine {α : Type} (F : RingOps α) (P : Point α) : Option (Point α) :=
  if F.isZero P.z then some { x := F.zero, y := F.one, z := F.zero }
  else
    match F.inv P.z with
    | some zi => some { x := F.mul P.x zi, y := F.mul P.y zi, z := F.one }
    | none => none

/-- The on-curve test (R327). -/
def pointOnCurve {α : Type} (F : RingOps α) (a b : α) (P : Point α) : Bool :=
  F.beq (F.mul (F.mul P.y P.y) P.z)
      (F.add (F.add (F.mul (F.mul P.x P.x) P.x) (F.mul (F.mul (F.mul a P.x) P.z) P.z))
        (F.mul (F.mul (F.mul b P.z) P.z) P.z))
    && !(F.isZero P.x && F.isZero P.y && F.isZero P.z)

/-- The point in the group at register `i` (R20). -/
def State.point (s : State) (ft : FieldType) (i : Nat) : Point (Elt ft) :=
  { x := s.elt ft i, y := s.elt ft (i + degree ft), z := s.elt ft (i + 2 * degree ft) }

/-- Write the three coordinates, each by Put_ft (R322). -/
def State.putPoint (s : State) (ft : FieldType) (i : Nat) (P : Point (Elt ft)) : State :=
  s.putCoeffs i ((s.ring ft).coeffs P.x ++ (s.ring ft).coeffs P.y ++ (s.ring ft).coeffs P.z)

/-- The curve coefficient a (R321). -/
def State.curveA (s : State) (ft : FieldType) : Elt ft := s.kelt ft (curveAIdx ft)

/-- The curve coefficient b (R321). -/
def State.curveB (s : State) (ft : FieldType) : Elt ft := s.kelt ft (curveBIdx ft)

/-- PADD (R322). -/
def execPadd (ft : FieldType) (rd rs1 rs2 : Reg) (s : State) : Host.Outcome State Fault Refusal :=
  perform (.padd ft rd rs1 rs2) s fun s =>
    .ok (s.putPoint ft rd (pointAdd (s.ring ft) (s.curveA ft) (s.point ft rs1) (s.point ft rs2))).fallThrough

/-- PMADD (R323). -/
def execPmadd (ft : FieldType) (rd rs1 rs2 : Reg) (s : State) : Host.Outcome State Fault Refusal :=
  perform (.pmadd ft rd rs1 rs2) s fun s =>
    .ok (s.putPoint ft rd (pointMixedAdd (s.ring ft) (s.curveA ft) (s.point ft rs1) (s.point ft rs2))).fallThrough

/-- PDBL (R324). -/
def execPdbl (ft : FieldType) (rd rs1 : Reg) (s : State) : Host.Outcome State Fault Refusal :=
  perform (.pdbl ft rd rs1) s fun s =>
    .ok (s.putPoint ft rd (pointDouble (s.ring ft) (s.curveA ft) (s.point ft rs1))).fallThrough

/-- PNEG (R325). -/
def execPneg (ft : FieldType) (rd rs1 : Reg) (s : State) : Host.Outcome State Fault Refusal :=
  perform (.pneg ft rd rs1) s fun s => .ok (s.putPoint ft rd (pointNeg (s.ring ft) (s.point ft rs1))).fallThrough

/-- PAFF (R326). -/
def execPaff (ft : FieldType) (rd rs1 : Reg) (s : State) : Host.Outcome State Fault Refusal :=
  perform (.paff ft rd rs1) s fun s =>
    match pointAffine (s.ring ft) (s.point ft rs1) with
    | some P => .ok (s.putPoint ft rd P).fallThrough
    | none => .error (.notInvertible, rs1.val + 2 * degree ft)

/-- PONC (R327). -/
def execPonc (ft : FieldType) (rs1 : Reg) (s : State) : Host.Outcome State Fault Refusal :=
  perform (.ponc ft rs1) s fun s =>
    .ok (s.setFlEq (pointOnCurve (s.ring ft) (s.curveA ft) (s.curveB ft) (s.point ft rs1))).fallThrough

/-- PMULQ (R328): MULQ_X in KST words 80 on, MULQ_Y in 83 on. -/
def execPmulq (ft : FieldType) (rd rs1 : Reg) (s : State) : Host.Outcome State Fault Refusal :=
  perform (.pmulq ft rd rs1) s fun s =>
    let P := s.point ft rs1
    .ok (s.putPoint ft rd
      { x := (s.ring ft).mul (s.kelt ft 80) (frob s.p s.kv ft P.x 1)
        y := (s.ring ft).mul (s.kelt ft 83) (frob s.p s.kv ft P.y 1)
        z := frob s.p s.kv ft P.z 1 }).fallThrough

end Sys2Proof.Machine
end

