-- ==== Sys2Proof/Machine/Pairing.lean ====
section
/-! DEFINITION. The Miller-loop accumulator (44_pairing R360-R371): line functions, the sparse product, the iterate steps. -/

namespace Sys2Proof.Machine

/-- An EllCoeff (R20): ell_0, ell_VW, ell_VV. -/
structure EllCoeff where
  ell0 : E2
  ellVW : E2
  ellVV : E2
deriving DecidableEq, Repr

/-- x/2 in F2: x * h with h = (p + 1)/2 (R360). -/
def half2 (p : Nat) (F : RingOps E2) (x : E2) : E2 := F.scale ((p + 1) / 2) x

/-- The line at the doubling of R, and 2R (R366): b' is the twist's b, xi' the twist constant. -/
def lineDouble (p : Nat) (F : RingOps E2) (b' xi' : E2) (R : Point E2) : EllCoeff × Point E2 :=
  let A := half2 p F (F.mul R.x R.y)
  let B := F.mul R.y R.y
  let C := F.mul R.z R.z
  let D := F.thrice C
  let E := F.mul b' D
  let F3 := F.thrice E
  let G := half2 p F (F.add B F3)
  let H := F.sub (F.mul (F.add R.y R.z) (F.add R.y R.z)) (F.add B C)
  let I := F.sub E B
  let J := F.mul R.x R.x
  let E2' := F.mul E E
  ({ ell0 := F.mul xi' I, ellVW := F.neg H, ellVV := F.thrice J },
    { x := F.mul A (F.sub B F3), y := F.sub (F.mul G G) (F.thrice E2'), z := F.mul B H })

/-- The line through R and the affine Q = (x2, y2), and R + Q (R367). -/
def lineAdd (F : RingOps E2) (xi' : E2) (R : Point E2) (x2 y2 : E2) : EllCoeff × Point E2 :=
  let D := F.sub R.x (F.mul x2 R.z)
  let E := F.sub R.y (F.mul y2 R.z)
  let F2 := F.mul D D
  let G := F.mul E E
  let H := F.mul D F2
  let I := F.mul R.x F2
  let J := F.sub (F.add H (F.mul R.z G)) (F.add I I)
  ({ ell0 := F.mul xi' (F.sub (F.mul E x2) (F.mul D y2)), ellVW := D, ellVV := F.neg E },
    { x := F.mul D J, y := F.sub (F.mul E (F.sub I J)) (F.mul H R.y), z := F.mul R.z H })

/-- sparse(x0, x2, x4) = x0 + x2 v^2 + x4 v w (R365). -/
def sparse (x0 x2 x4 : E2) : E6 × E6 := ((x0, (0, 0), x2), ((0, 0), x4, (0, 0)))

/-- The EllCoeff in the group at register `i` (R20). -/
def State.ellCoeff (s : State) (i : Nat) : EllCoeff :=
  { ell0 := s.elt .F2 i, ellVW := s.elt .F2 (i + 2), ellVV := s.elt .F2 (i + 4) }

/-- The base-field coefficients of an EllCoeff, in its layout. -/
def EllCoeff.coeffs (c : EllCoeff) : List Nat :=
  [c.ell0.1, c.ell0.2, c.ellVW.1, c.ellVW.2, c.ellVV.1, c.ellVV.2]

/-- The residue that register `i` represents. -/
def State.residue (s : State) (i : Nat) : Nat := s.val (s.w i)

/-- f * mul_by_024(ell_0, PY * ell_VW, PX * ell_VV) (R369). -/
def State.accumulate (s : State) (f : E6 × E6) (c : EllCoeff) (px py : Nat) : E6 × E6 :=
  (s.ring .F12).mul f (sparse c.ell0 ((s.ring .F2).scale px c.ellVV) ((s.ring .F2).scale py c.ellVW))

/-- The line and the point of LDBL on the point at register `i`: b' is KST 75-76, xi' is KST 78-79 (R366). -/
def State.lineDoubleAt (s : State) (i : Nat) : EllCoeff × Point E2 :=
  lineDouble s.p (s.ring .F2) (s.kelt .F2 75) (s.kelt .F2 78) (s.point .F2 i)

/-- The line and the point of LADD on the point at register `i` and the affine Q at register `j` (R367). -/
def State.lineAddAt (s : State) (i j : Nat) : EllCoeff × Point E2 :=
  lineAdd (s.ring .F2) (s.kelt .F2 78) (s.point .F2 i) (s.elt .F2 j) (s.elt .F2 (j + 2))

/-- LDBL (R366). -/
def execLdbl (rd rs1 : Reg) (s : State) : Host.Outcome State Fault Refusal :=
  perform (.ldbl rd rs1) s fun s =>
    let cR := s.lineDoubleAt rs1
    .ok ((s.putCoeffs rd cR.1.coeffs).putPoint .F2 rs1 cR.2).fallThrough

/-- LADD (R367). -/
def execLadd (rd rs1 rs2 : Reg) (s : State) : Host.Outcome State Fault Refusal :=
  perform (.ladd rd rs1 rs2) s fun s =>
    let cR := s.lineAddAt rs1 rs2
    .ok ((s.putCoeffs rd cR.1.coeffs).putPoint .F2 rs1 cR.2).fallThrough

/-- FMUL024 (R368). -/
def execFmul024 (rd rs1 rs2 : Reg) (s : State) : Host.Outcome State Fault Refusal :=
  perform (.fmul024 rd rs1 rs2) s fun s =>
    let c := s.ellCoeff rs2
    .ok (s.putElt .F12 rd ((s.ring .F12).mul (s.elt .F12 rs1) (sparse c.ell0 c.ellVV c.ellVW))).fallThrough

/-- MLACC (R369). -/
def execMlacc (rd rs1 rs2 : Reg) (s : State) : Host.Outcome State Fault Refusal :=
  perform (.mlacc rd rs1 rs2) s fun s =>
    .ok (s.putElt .F12 rd
      (s.accumulate (s.elt .F12 rd) (s.ellCoeff rs1) (s.residue rs2) (s.residue (rs2.val + 1)))).fallThrough

/-- MLDBL (R370). -/
def execMldbl (rd rs1 rs2 : Reg) (s : State) : Host.Outcome State Fault Refusal :=
  perform (.mldbl rd rs1 rs2) s fun s =>
    let cR := s.lineDoubleAt rs1
    let f := s.elt .F12 rd
    let f' := s.accumulate ((s.ring .F12).mul f f) cR.1 (s.residue rs2) (s.residue (rs2.val + 1))
    .ok ((s.putElt .F12 rd f').putPoint .F2 rs1 cR.2).fallThrough

/-- MLADD (R371). -/
def execMladd (rd rs1 rs2 : Reg) (s : State) : Host.Outcome State Fault Refusal :=
  perform (.mladd rd rs1 rs2) s fun s =>
    let cR := s.lineAddAt rs1 rs2
    let f' := s.accumulate (s.elt .F12 rd) cR.1 (s.residue (rs2.val + 4)) (s.residue (rs2.val + 5))
    .ok ((s.putElt .F12 rd f').putPoint .F2 rs1 cR.2).fallThrough

end Sys2Proof.Machine
end

