-- ==== Sys2Proof/Machine/Dispatch.lean ====
section
/-! DEFINITION. The meaning of each instruction, one arm per constructor. -/

namespace Sys2Proof.Machine

def exec (i : Instr) (s : State) : Host.Outcome State Fault Refusal :=
  match i with
  | .fadd ft rd rs1 rs2 => Sys2Proof.Machine.execFadd ft rd rs1 rs2 s
  | .fsub ft rd rs1 rs2 => Sys2Proof.Machine.execFsub ft rd rs1 rs2 s
  | .fneg ft rd rs1 => Sys2Proof.Machine.execFneg ft rd rs1 s
  | .fmul ft rd rs1 rs2 => Sys2Proof.Machine.execFmul ft rd rs1 rs2 s
  | .fsqr ft rd rs1 => Sys2Proof.Machine.execFsqr ft rd rs1 s
  | .finv ft rd rs1 => Sys2Proof.Machine.execFinv ft rd rs1 s
  | .ffrob ft rd rs1 k => Sys2Proof.Machine.execFfrob ft rd rs1 k s
  | .fconj ft rd rs1 => Sys2Proof.Machine.execFconj ft rd rs1 s
  | .fcsqr ft rd rs1 => Sys2Proof.Machine.execFcsqr ft rd rs1 s
  | .fcexp ft rd rs1 rs2 => Sys2Proof.Machine.execFcexp ft rd rs1 rs2 s
  | .fpow ft rd rs1 rs2 => Sys2Proof.Machine.execFpow ft rd rs1 rs2 s
  | .fzero ft rd => Sys2Proof.Machine.execFzero ft rd s
  | .fone ft rd => Sys2Proof.Machine.execFone ft rd s
  | .tom ft rd rs1 => Sys2Proof.Machine.execTom ft rd rs1 s
  | .fromm ft rd rs1 => Sys2Proof.Machine.execFromm ft rd rs1 s
  | .mov ft rd rs1 => Sys2Proof.Machine.execMov ft rd rs1 s
  | .ldk ft rd k => Sys2Proof.Machine.execLdk ft rd k s
  | .ld ft r cb off => Sys2Proof.Machine.execLd ft r cb off s
  | .st ft r cb off => Sys2Proof.Machine.execSt ft r cb off s
  | .badd rd rs1 rs2 => Sys2Proof.Machine.execBadd rd rs1 rs2 s
  | .bsub rd rs1 rs2 => Sys2Proof.Machine.execBsub rd rs1 rs2 s
  | .bmul rd rs1 rs2 => Sys2Proof.Machine.execBmul rd rs1 rs2 s
  | .bredc rd rs1 => Sys2Proof.Machine.execBredc rd rs1 s
  | .bcmp ft rs1 rs2 => Sys2Proof.Machine.execBcmp ft rs1 rs2 s
  | .bseti rd imm => Sys2Proof.Machine.execBseti rd imm s
  | .padd ft rd rs1 rs2 => Sys2Proof.Machine.execPadd ft rd rs1 rs2 s
  | .pmadd ft rd rs1 rs2 => Sys2Proof.Machine.execPmadd ft rd rs1 rs2 s
  | .pdbl ft rd rs1 => Sys2Proof.Machine.execPdbl ft rd rs1 s
  | .pneg ft rd rs1 => Sys2Proof.Machine.execPneg ft rd rs1 s
  | .paff ft rd rs1 => Sys2Proof.Machine.execPaff ft rd rs1 s
  | .ponc ft rs1 => Sys2Proof.Machine.execPonc ft rs1 s
  | .pmulq ft rd rs1 => Sys2Proof.Machine.execPmulq ft rd rs1 s
  | .ldbl rd rs1 => Sys2Proof.Machine.execLdbl rd rs1 s
  | .ladd rd rs1 rs2 => Sys2Proof.Machine.execLadd rd rs1 rs2 s
  | .fmul024 rd rs1 rs2 => Sys2Proof.Machine.execFmul024 rd rs1 rs2 s
  | .mlacc rd rs1 rs2 => Sys2Proof.Machine.execMlacc rd rs1 rs2 s
  | .mldbl rd rs1 rs2 => Sys2Proof.Machine.execMldbl rd rs1 rs2 s
  | .mladd rd rs1 rs2 => Sys2Proof.Machine.execMladd rd rs1 rs2 s
  | .jmp target => Sys2Proof.Machine.execJmp target s
  | .bf cond target => Sys2Proof.Machine.execBf cond target s
  | .bbs ci rs target => Sys2Proof.Machine.execBbs ci rs target s
  | .bbc ci rs target => Sys2Proof.Machine.execBbc ci rs target s
  | .bcnz cd target => Sys2Proof.Machine.execBcnz cd target s
  | .cset cd imm => Sys2Proof.Machine.execCset cd imm s
  | .caddi cd cs imm => Sys2Proof.Machine.execCaddi cd cs imm s
  | .cblen cd rs => Sys2Proof.Machine.execCblen cd rs s
  | .nop => Sys2Proof.Machine.execNop s
  | .halt => Sys2Proof.Machine.execHalt s

end Sys2Proof.Machine
end

