-- ==== Sys2Proof/Machine/Fetch.lean ====
section
/-! DEFINITION. The instruction fetch and decode of a step (60_exceptions R505, R503 steps 1 and 2). -/

namespace Sys2Proof.Machine

/-- Fetch and decode at pc: the instruction, or the fault with the FAULTINSN it records (R505, R510). -/
def State.fetch (s : State) : Except (FaultInfo × InsnWord) Instr :=
  if s.pc.toNat < s.params.imemWords then
    match decode (s.imemWord s.pc.toNat) with
    | .ok i => .ok i
    | .error k => .error ((.illegalInsn, k.subcode), s.imemWord s.pc.toNat)
  else .error ((.fetchRange, s.pc.toNat), 0)

end Sys2Proof.Machine
end

