-- ==== Sys2Proof/Machine/HostBus.lean ====
section
/-! DEFINITION. The host interface (10_state R46-R60, 20_memory R100-R112): the address map, reads, writes, refusals, CTRL and the
configuration commit, and where an input lands (log 6). -/

namespace Sys2Proof.Machine

/-! ## The address map (R46, R101) -/

/-- The 32-bit registers of the CSR page. -/
inductive Csr where
  | id | ctrl | status | flags | pc | cause | epc | einfo | faultinsn | irqen | irqpend | nlimbs | cfgstat | imemsz | dmemsz
  | instretLo | instretHi
  | ctr (i : Ctr)
deriving DecidableEq, Repr

/-- The 64-byte windows of one 384-bit word each. -/
inductive Window where
  | modp | pinv | rsq | rone
  | ereg (i : Nat)
  | kst (k : Nat)
  | dmem (i : Nat)
deriving DecidableEq, Repr

/-- What an aligned offset of the block names. `slot` is the bus word of a window; slots 12 to 15 are padding (R107). -/
inductive Target where
  | csr (r : Csr)
  | window (w : Window) (slot : Nat)
  | imem (i : Nat)
  | reserved
deriving DecidableEq, Repr

/-- The offset of a CSR (R46, CSR summary). -/
def Csr.offset : Csr → Nat
  | .id => 0x000
  | .ctrl => 0x004
  | .status => 0x008
  | .flags => 0x00C
  | .pc => 0x010
  | .cause => 0x014
  | .epc => 0x018
  | .einfo => 0x01C
  | .faultinsn => 0x020
  | .irqen => 0x024
  | .irqpend => 0x028
  | .nlimbs => 0x02C
  | .cfgstat => 0x030
  | .imemsz => 0x034
  | .dmemsz => 0x038
  | .instretLo => 0x040
  | .instretHi => 0x044
  | .ctr i => 0x060 + 4 * i.val

/-- Every CSR. -/
def Csr.all : List Csr :=
  [.id, .ctrl, .status, .flags, .pc, .cause, .epc, .einfo, .faultinsn, .irqen, .irqpend, .nlimbs, .cfgstat, .imemsz, .dmemsz,
    .instretLo, .instretHi] ++ [.ctr 0, .ctr 1, .ctr 2, .ctr 3, .ctr 4, .ctr 5, .ctr 6, .ctr 7]

/-- The CSR at an offset below 0x100. -/
def Csr.at (off : Nat) : Option Csr := Csr.all.find? fun r => r.offset == off

/-- The window of an offset from 0x100 to 0x1FF (R53, R55). -/
def csrWindow (off : Nat) : Window :=
  if off < 0x140 then .modp else if off < 0x180 then .pinv else if off < 0x1C0 then .rsq else .rone

/-- The address map (R101, R46). -/
def State.locate (s : State) (off : Nat) : Target :=
  if off < 0x100 then
    match Csr.at off with
    | some r => .csr r
    | none => .reserved
  else if off < 0x200 then .window (csrWindow off) (off % 64 / 4)
  else if off < 0x1000 then .reserved
  else if off < 0x2000 then .window (.ereg ((off - 0x1000) / 64)) (off % 64 / 4)
  else if off < 0x4000 then .window (.kst ((off - 0x2000) / 64)) (off % 64 / 4)
  else if off < 0x40000 then .reserved
  else if off < 0x80000 then
    if (off - 0x40000) / 4 < s.params.imemWords then .imem ((off - 0x40000) / 4) else .reserved
  else if (off - 0x80000) / 64 < s.params.dmemWords then .window (.dmem ((off - 0x80000) / 64)) (off % 64 / 4)
  else .reserved

/-! ## Values of CSRs and windows -/

/-- A number from bits, the first at bit 0. -/
def bitsToNat : List Bool → Nat
  | [] => 0
  | b :: bs => (if b then 1 else 0) + 2 * bitsToNat bs

/-- The code of STATUS.STATE (R49). -/
def SeqState.code : SeqState → Nat
  | .idle => 0
  | .running => 1
  | .done => 2
  | .error => 3

/-- What HOST reads from a CSR (R46-R60). Reserved bits read 0. -/
def State.csrValue (s : State) : Csr → BitVec 32
  | .id => 0x4D4D4201
  | .ctrl => 0
  | .status => BitVec.ofNat 32 (s.seq.code + 4 * bitsToNat [s.cfgok, s.herr])
  | .flags => BitVec.ofNat 32 (bitsToNat [s.flC, s.flEq, s.flLt])
  | .pc => s.pc.setWidth 32
  | .cause => s.fault.cause.setWidth 32
  | .epc => s.fault.epc.setWidth 32
  | .einfo => s.fault.einfo
  | .faultinsn => s.fault.insn
  | .irqen => BitVec.ofNat 32 (bitsToNat [s.irqenDone, s.irqenErr])
  | .irqpend => BitVec.ofNat 32 (bitsToNat [s.irqpendDone, s.irqpendErr])
  | .nlimbs => BitVec.ofNat 32 s.limbs
  | .cfgstat => BitVec.ofNat 32 (bitsToNat [s.cfgstat.badEven, s.cfgstat.badSmall, s.cfgstat.badWide])
  | .imemsz => BitVec.ofNat 32 s.params.imemWords
  | .dmemsz => BitVec.ofNat 32 s.params.dmemWords
  | .instretLo => BitVec.ofNat 32 s.instret.toNat
  | .instretHi => BitVec.ofNat 32 (s.instret.toNat / 2 ^ 32)
  | .ctr i => (s.getC i).setWidth 32

/-- Bits 32k + 31 .. 32k of a 384-bit word (R106). -/
def sliceOf (w : Word) (k : Nat) : BitVec 32 := BitVec.ofNat 32 (w.toNat / 2 ^ (32 * k))

/-- The word with bits 32k + 31 .. 32k replaced (R106). -/
def setSlice (w : Word) (k : Nat) (d : BitVec 32) : Word :=
  BitVec.ofNat 384
    (w.toNat % 2 ^ (32 * k) + d.toNat * 2 ^ (32 * k) + w.toNat / 2 ^ (32 * (k + 1)) * 2 ^ (32 * (k + 1)))

/-- What HOST reads from a bus word of a window; padding reads 0 (R106, R107). -/
def State.windowValue (s : State) (w : Window) (slot : Nat) : BitVec 32 :=
  if 12 ≤ slot then 0
  else
    match w with
    | .modp => sliceOf s.modp slot
    | .pinv => sliceOf s.pinv slot
    | .rsq => sliceOf s.rsq slot
    | .rone => sliceOf s.rone slot
    | .ereg i => sliceOf (s.getE i) slot
    | .kst k => sliceOf (s.getK k) slot
    | .dmem i => BitVec.ofNat 32 (s.readNat (dmemAddr i + 4 * slot) 4)

/-! ## CTRL (R48) and the configuration commit (R54) -/

/-- CFGCOMMIT while not RUNNING (R54). -/
def State.commitConfig (s : State) : State :=
  let even := s.p % 2 == 0
  let small := decide (s.p < 3)
  let t := { s with cfgstat := { badEven := even, badSmall := small, badWide := false } }
  if even || small then { t with pinv := 0, rsq := 0, rone := 0, cfgok := false }
  else
    { t with
      pinv := wordOf (negPInv s.p s.width)
      rsq := wordOf (s.radix * s.radix % s.p)
      rone := wordOf (s.radix % s.p)
      cfgok := true }

/-- SEQ is running. -/
def State.running (s : State) : Bool := s.seq == .running

/-- A refused access sets HERR (R111). -/
def State.refuse (s : State) : State := { s with herr := true }

/-- CTRL bit CFGCOMMIT: ignored while RUNNING, and sets HERR (R48). -/
def State.ctrlCommit (s : State) : State := if s.running then s.refuse else s.commitConfig

/-- CTRL bit HALTREQ: acts only while RUNNING (R48). -/
def State.ctrlHaltReq (s : State) : State := if s.running then { s with haltRequested := true } else s

/-- CTRL bit START: ignored while RUNNING (R48). -/
def State.ctrlStart (s : State) : State := if s.running then s else s.start

/-- CTRL bit STEP: ignored while RUNNING (R48). -/
def State.ctrlStep (s : State) : State := if s.running then s else s.startStep

/-- A write of CTRL: the bits set act in the order SRST (alone), CFGCOMMIT, HALTREQ, START, STEP without START (R48). -/
def State.writeCtrl (s : State) (d : BitVec 32) : State :=
  if d.getLsbD 3 then s.softReset
  else
    let s1 := if d.getLsbD 2 then s.ctrlCommit else s
    let s2 := if d.getLsbD 1 then s1.ctrlHaltReq else s1
    if d.getLsbD 0 then s2.ctrlStart else if d.getLsbD 4 then s2.ctrlStep else s2

/-! ## Writes -/

/-- A write of NLIMBS or MODP clears CFGOK and CFGSTAT (R52, R53, R60). -/
def State.unconfigure (s : State) : State :=
  { s with cfgok := false, cfgstat := { badEven := false, badSmall := false, badWide := false } }

/-- A write of NLIMBS: 0 and 7 are ignored (R52; log 14). -/
def State.writeNlimbs (s : State) (v : Nat) : State :=
  match v with
  | 1 => { s.unconfigure with nlimbs := 0 }
  | 2 => { s.unconfigure with nlimbs := 1 }
  | 3 => { s.unconfigure with nlimbs := 2 }
  | 4 => { s.unconfigure with nlimbs := 3 }
  | 5 => { s.unconfigure with nlimbs := 4 }
  | 6 => { s.unconfigure with nlimbs := 5 }
  | _ => s

/-- The effect of a write of a CSR that is not refused (R46-R60). Writes of RO registers and of reserved bits are ignored. -/
def State.writeCsr (s : State) (d : BitVec 32) : Csr → State
  | .ctrl => s.writeCtrl d
  | .status => if d.getLsbD 3 then { s with herr := false } else s
  | .flags => { s with flC := d.getLsbD 0, flEq := d.getLsbD 1, flLt := d.getLsbD 2 }
  | .pc => { s with pc := d.setWidth 16 }
  | .irqen => { s with irqenDone := d.getLsbD 0, irqenErr := d.getLsbD 1 }
  | .irqpend =>
    { s with irqpendDone := s.irqpendDone && !d.getLsbD 0, irqpendErr := s.irqpendErr && !d.getLsbD 1 }
  | .nlimbs => s.writeNlimbs (d.toNat % 8)
  | .instretLo => { s with instret := BitVec.ofNat 64 (s.instret.toNat / 2 ^ 32 * 2 ^ 32 + d.toNat) }
  | .instretHi => { s with instret := BitVec.ofNat 64 (d.toNat * 2 ^ 32 + s.instret.toNat % 2 ^ 32) }
  | .ctr i => s.setC i (d.setWidth 16)
  | .id => s
  | .cause => s
  | .epc => s
  | .einfo => s
  | .faultinsn => s
  | .cfgstat => s
  | .imemsz => s
  | .dmemsz => s

/-- The effect of a write of a bus word of a window that is not refused; padding and RO windows ignore it (R107, R55; log 13). -/
def State.writeWindow (s : State) (d : BitVec 32) (w : Window) (slot : Nat) : State :=
  if 12 ≤ slot then s
  else
    match w with
    | .modp => { s.unconfigure with modp := setSlice s.modp slot d }
    | .ereg i => s.setE i (setSlice (s.getE i) slot d)
    | .kst k => { s with kst := s.kst.setIfInBounds k (setSlice (s.getK k) slot d) }
    | .dmem i => s.storeBytes (dmemAddr i + 4 * slot) (bytesOfNat 4 d.toNat)
    | .pinv => s
    | .rsq => s
    | .rone => s

/-! ## Refusals while RUNNING (R112) -/

/-- The RWI registers (R46). -/
def Csr.isRwi : Csr → Bool
  | .flags | .pc | .nlimbs | .instretLo | .instretHi | .ctr _ => true
  | .id | .ctrl | .status | .cause | .epc | .einfo | .faultinsn | .irqen | .irqpend | .cfgstat | .imemsz | .dmemsz => false

/-- A window of the register file or of storage, closed to HOST while RUNNING. -/
def Window.isStorage : Window → Bool
  | .ereg _ | .kst _ | .dmem _ => true
  | .modp | .pinv | .rsq | .rone => false

/-- A read that is refused: a reserved offset (R111), or storage while RUNNING (R112). -/
def State.refusesRead (s : State) : Target → Bool
  | .csr _ => false
  | .window w _ => s.running && w.isStorage
  | .imem _ => s.running
  | .reserved => true

/-- A write that is refused: a reserved offset (R111), or, while RUNNING, storage, an RWI register or MODP (R112; logs 12, 13). -/
def State.refusesWrite (s : State) : Target → Bool
  | .csr r => s.running && r.isRwi
  | .window w _ => s.running && (w.isStorage || w == .modp)
  | .imem _ => s.running
  | .reserved => true

/-! ## HOST accesses -/

/-- The data of a read that is not refused. -/
def State.targetValue (s : State) : Target → BitVec 32
  | .csr r => s.csrValue r
  | .window w slot => s.windowValue w slot
  | .imem i => s.imemWord i
  | .reserved => 0

/-- The effect of a write that is not refused. -/
def State.writeTarget (s : State) (d : BitVec 32) : Target → State
  | .csr r => s.writeCsr d r
  | .window w slot => s.writeWindow d w slot
  | .imem i => s.storeBytes (imemAddr i) (bytesOfNat 4 d.toNat)
  | .reserved => s

/-- The access is an aligned 32-bit one (R102). -/
def aligned32 (off size : Nat) : Bool := size == 4 && off % 4 == 0

/-- HOST reads the block at an offset: the data, or 0 where the access is refused (R111). -/
def State.hostRead (s : State) (off size : Nat) : State :=
  if aligned32 off size && !s.refusesRead (s.locate off) then { s with rdata := s.targetValue (s.locate off) }
  else { s.refuse with rdata := 0 }

/-- HOST writes the block at an offset; a refused write changes nothing but HERR (R111). -/
def State.hostWrite (s : State) (off size : Nat) (d : BitVec 32) : State :=
  if aligned32 off size && !s.refusesWrite (s.locate off) then s.writeTarget d (s.locate off) else s.refuse

/-- A bus address inside the block's window (R100). -/
def inWindow (P : Params) (addr : Nat) : Bool := decide (P.base ≤ addr) && decide (addr < P.base + 2 ^ 20)

/-- The effect of one input. An access outside the window does not reach the block (R100). -/
def State.hostEvent (s : State) : HostEvent → State
  | .read addr size => if inWindow s.params addr then s.hostRead (addr - s.params.base) size else s
  | .write addr size d => if inWindow s.params addr then s.hostWrite (addr - s.params.base) size d else s
  | .reset => s.hardReset

/-! ## Where an input lands (log 6) -/

/-- What moves next: an input lands, SEQ makes a step, or nothing moves. The state is the one it starts from. -/
inductive Move where
  | input (ev : HostEvent) (s : State)
  | sequencer (s : State)
  | rest
deriving DecidableEq, Repr

/-- The schedule: an input whose delay is used up lands; otherwise SEQ makes a step if it is RUNNING (R61), and an input lands
without waiting if it is not (log 18). -/
def State.nextMove (s : State) : Move :=
  match s.bus with
  | [] => if s.running then .sequencer s else .rest
  | (0, ev) :: rest => .input ev { s with bus := rest }
  | (n + 1, ev) :: rest =>
    if s.running then .sequencer { s with bus := (n, ev) :: rest } else .input ev { s with bus := rest }

end Sys2Proof.Machine
end

