-- ==== Sys2Proof/Machine/Step.lean ====
section
/-! DEFINITION. One step of the machine: an input lands, or SEQ fetches, decodes and executes one instruction (60_exceptions R505), or
nothing moves. -/

namespace Sys2Proof.Machine

/-- One step of SEQ (R505). -/
def seqStep (s : State) : Host.Outcome State Fault Refusal :=
  match s.fetch with
  | .ok i => exec i s
  | .error (f, insn) => .next (s.takeFault f.1 f.2 insn)

/-- One step of the machine. Where SEQ is not RUNNING and no input is to come, the block keeps its state (R535). -/
def step (s : State) : Host.Outcome State Fault Refusal :=
  match s.nextMove with
  | .input ev t => .next (t.hostEvent ev)
  | .sequencer t => seqStep t
  | .rest => .next s

/-- The index `step` fetches from after `withFetchWord`: pc, or 0 where pc is past the end of IMEM. -/
def State.fetchIndex (s : State) : Nat := if s.pc.toNat < s.params.imemWords then s.pc.toNat else 0

/-- `s` with an instruction word stored where the next step fetches, SEQ RUNNING, and an input that was to land now delayed by
one step of SEQ. It stands for HOST's load of IMEM and its write of CTRL.START (R551; log 8). -/
def State.withFetchWord (s : State) (nbits w : Nat) : State :=
  { s with
    mem := s.mem.store (imemAddr s.fetchIndex) (bytesOfNat 4 (w % 2 ^ nbits))
    pc := BitVec.ofNat 16 s.fetchIndex
    seq := .running
    bus :=
      match s.bus with
      | (0, ev) :: rest => (1, ev) :: rest
      | bus => bus }

end Sys2Proof.Machine
end

