-- ==== Sys2Proof/Safety.lean ====
section
/-! DEFINITION. The terms claims use: when an instruction executes without a fault, what it may write, the state after
retirement, powers by value, the address ranges of the host map, and the invariant of the machine. -/

namespace Sys2Proof.Machine

/-! ## When an instruction executes -/

/-- A group of `n` registers from `i` up lies in the file (R41). -/
def Fits (i n : Nat) : Prop := i + n ≤ 64

/-- Two register groups share no register (R14). -/
def Apart (i m j n : Nat) : Prop := i + m ≤ j ∨ j + n ≤ i

/-- Every word of a register group is below p (R502). -/
def State.Reduced (s : State) (i n : Nat) : Prop := ∀ j, j < n → s.w (i + j) < s.p

/-- Every listed KST word is below p (R503 step 7). -/
def State.KstReduced (s : State) (ks : List Nat) : Prop := ∀ k ∈ ks, s.kw k < s.p

/-- A committed configuration, as R54 leaves it: CFGOK, a legal modulus, and PINV, RSQ and RONE for the current p and R. -/
structure State.Configured (s : State) : Prop where
  cfgok : s.cfgok = true
  odd : s.p % 2 = 1
  three : 3 ≤ s.p
  pinv_lt : s.pinv.toNat < s.radix
  pinv : (s.pinv.toNat * s.p + 1) % s.radix = 0
  rsq : s.rsq.toNat = s.radix * s.radix % s.p
  rone : s.rone.toNat = s.radix % s.p

/-- The configuration is committed, every group named, (base, size), lies in the file, every word of the groups of `srcs` and
every KST word of `ks` is below p: no common check of an instruction with these operands fails (R503). `dsts` lists the groups
that are not checked for reduction. -/
def State.Ready (s : State) (dsts srcs : List (Nat × Nat)) (ks : List Nat) : Prop :=
  s.Configured ∧ (∀ g ∈ dsts ++ srcs, Fits g.1 g.2) ∧ (∀ g ∈ srcs, s.Reduced g.1 g.2) ∧ s.KstReduced ks

/-! ## What an instruction may write (R161, R44, R43) -/

/-- The register groups an instruction writes, (base, size): the dst and srcdst groups of R161. -/
def destGroups : Instr → List (Nat × Nat)
  | .fadd ft rd _ _ | .fsub ft rd _ _ | .fneg ft rd _ | .fmul ft rd _ _ | .fsqr ft rd _ | .finv ft rd _ | .ffrob ft rd _ _
  | .fconj ft rd _ | .fcsqr ft rd _ | .fcexp ft rd _ _ | .fpow ft rd _ _ | .fzero ft rd | .fone ft rd | .tom ft rd _
  | .fromm ft rd _ | .mov ft rd _ | .ldk ft rd _ | .ld ft rd _ _ => [(rd.val, degree ft)]
  | .badd rd _ _ | .bsub rd _ _ | .bredc rd _ | .bseti rd _ => [(rd.val, 1)]
  | .bmul rd _ _ => [(rd.val, 2)]
  | .padd ft rd _ _ | .pmadd ft rd _ _ | .pdbl ft rd _ | .pneg ft rd _ | .paff ft rd _ | .pmulq ft rd _ =>
    [(rd.val, 3 * degree ft)]
  | .ldbl rd rs1 | .ladd rd rs1 _ => [(rd.val, 6), (rs1.val, 6)]
  | .fmul024 rd _ _ | .mlacc rd _ _ => [(rd.val, 12)]
  | .mldbl rd rs1 _ | .mladd rd rs1 _ => [(rd.val, 12), (rs1.val, 6)]
  | .st .. | .bcmp .. | .ponc .. | .jmp .. | .bf .. | .bbs .. | .bbc .. | .bcnz .. | .cset .. | .caddi .. | .cblen .. | .nop
  | .halt => []

/-- The counter an instruction writes (R43). -/
def destCtr : Instr → Option Ctr
  | .bcnz cd _ | .cset cd _ | .caddi cd _ _ | .cblen cd _ => some cd
  | .fadd .. | .fsub .. | .fneg .. | .fmul .. | .fsqr .. | .finv .. | .ffrob .. | .fconj .. | .fcsqr .. | .fcexp .. | .fpow ..
  | .fzero .. | .fone .. | .tom .. | .fromm .. | .mov .. | .ldk .. | .ld .. | .st .. | .badd .. | .bsub .. | .bmul ..
  | .bredc .. | .bcmp .. | .bseti .. | .padd .. | .pmadd .. | .pdbl .. | .pneg .. | .paff .. | .ponc .. | .pmulq .. | .ldbl ..
  | .ladd .. | .fmul024 .. | .mlacc .. | .mldbl .. | .mladd .. | .jmp .. | .bf .. | .bbs .. | .bbc .. | .nop | .halt => none

/-- The opcodes of the field, cyclotomic, point and pairing families: their results are reduced words (R19, R230). -/
def isFieldResult : Opcode → Bool
  | .fadd | .fsub | .fneg | .fmul | .fsqr | .finv | .ffrob | .fconj | .fcsqr | .fcexp | .fpow | .fzero | .fone | .tom | .fromm
  | .padd | .pmadd | .pdbl | .pneg | .paff | .pmulq | .ldbl | .ladd | .fmul024 | .mlacc | .mldbl | .mladd => true
  | .mov | .ldk | .ld | .st | .badd | .bsub | .bmul | .bredc | .bcmp | .bseti | .ponc | .jmp | .bf | .bbs | .bbc | .bcnz
  | .cset | .caddi | .cblen | .nop | .halt => false

/-- The instruction is HALT. -/
def isHalt (i : Instr) : Bool := i.opcode == .halt

/-- The target of a branch; none for every other instruction (R421). -/
def branchTarget : Instr → Option Half
  | .jmp t | .bf _ t | .bbs _ _ t | .bbc _ _ t | .bcnz _ t => some t
  | .fadd .. | .fsub .. | .fneg .. | .fmul .. | .fsqr .. | .finv .. | .ffrob .. | .fconj .. | .fcsqr .. | .fcexp .. | .fpow ..
  | .fzero .. | .fone .. | .tom .. | .fromm .. | .mov .. | .ldk .. | .ld .. | .st .. | .badd .. | .bsub .. | .bmul ..
  | .bredc .. | .bcmp .. | .bseti .. | .padd .. | .pmadd .. | .pdbl .. | .pneg .. | .paff .. | .ponc .. | .pmulq .. | .ldbl ..
  | .ladd .. | .fmul024 .. | .mlacc .. | .mldbl .. | .mladd .. | .cset .. | .caddi .. | .cblen .. | .nop | .halt => none

/-- The legal ft codes of every opcode whose format has an ft field; none for formats J, B, T, N, S, A, L and Z (R157). -/
def legalFtCodes : Opcode → Option (List Nat)
  | .fadd | .fsub | .fneg | .fmul | .fsqr | .finv | .ffrob | .fpow | .fzero | .fone | .tom | .fromm | .mov | .bcmp | .ldk | .ld
  | .st => some [0, 1, 2, 3, 4, 5, 6]
  | .fconj => some [1, 3, 5, 6]
  | .fcsqr | .fcexp => some [5, 6]
  | .badd | .bsub | .bmul | .bredc | .bseti => some [0]
  | .padd | .pmadd | .pdbl | .pneg | .paff | .ponc => some [0, 1, 2]
  | .pmulq => some [1, 2]
  | .ldbl | .ladd | .fmul024 | .mlacc | .mldbl | .mladd => some [0]
  | .jmp | .bf | .bbs | .bbc | .bcnz | .cset | .caddi | .cblen | .nop | .halt => none

/-! ## After an instruction (R506, R421) -/

/-- The state after an instruction other than HALT retires, from the state with its results written: the next pc, INSTRET, and
IDLE where a latch is set; both latches clear. -/
def State.retired (s : State) (pc : Half) : State :=
  { s with
    pc := pc
    instret := s.instret + 1
    seq := if s.stepPending || s.haltRequested then .idle else s.seq
    stepPending := false
    haltRequested := false }

/-- The schedule after one step of SEQ: the next input is one step nearer (log 6). -/
def State.tick (s : State) : State :=
  { s with
    bus :=
      match s.bus with
      | (n + 1, ev) :: rest => (n, ev) :: rest
      | bus => bus }

/-- No input lands before the next step of SEQ (log 6). -/
def State.noInputDue (s : State) : Bool :=
  match s.bus with
  | (0, _) :: _ => false
  | _ => true

/-! ## Elements by value -/

/-- The words of a list of words below p. -/
def WordsBelow (p : Nat) (ws : List Word) : Prop := ∀ w ∈ ws, w.toNat < p

/-- An element of F_ft in canonical form: every base-field coefficient below p (R19). -/
def Canonical (p : Nat) (kv : Nat → Nat) (ft : FieldType) (x : Elt ft) : Prop := ∀ c ∈ (ringOf p kv ft).coeffs x, c < p

/-- x^n as a repeated product. -/
def RingOps.npow {α : Type} (F : RingOps α) (x : α) : Nat → α
  | 0 => F.one
  | n + 1 => F.mul (F.npow x n) x

/-- x lies in the cyclotomic subgroup G_ft (R302). -/
def State.InG (s : State) (ft : FieldType) (x : Elt ft) : Prop :=
  (s.ring ft).npow x (cyclotomicOrder s.p ft) = (s.ring ft).one

/-! ## The host map (R101) -/

/-- An offset of a bus word of storage: EREG, KST, existing DMEM (no padding), or existing IMEM. -/
def StorageOffset (P : Params) (off : Nat) : Prop :=
  off % 4 = 0
    ∧ ((0x1000 ≤ off ∧ off < 0x4000 ∧ off % 64 < 48)
      ∨ (0x40000 ≤ off ∧ off < 0x40000 + 4 * P.imemWords)
      ∨ (0x80000 ≤ off ∧ off < 0x80000 + 64 * P.dmemWords ∧ off % 64 < 48))

/-- An offset of the last 16 bytes of a 64-byte window that exists (R107). -/
def PaddingOffset (P : Params) (off : Nat) : Prop :=
  off % 4 = 0 ∧ 48 ≤ off % 64
    ∧ ((0x100 ≤ off ∧ off < 0x200) ∨ (0x1000 ≤ off ∧ off < 0x4000)
      ∨ (0x80000 ≤ off ∧ off < 0x80000 + 64 * P.dmemWords))

/-- The offsets of the registers of the CSR page (R46, CSR summary): two runs and the counters. -/
def CsrOffset (off : Nat) : Prop :=
  off % 4 = 0 ∧ (off ≤ 0x38 ∨ (0x40 ≤ off ∧ off ≤ 0x44) ∨ (0x60 ≤ off ∧ off ≤ 0x7C))

/-- A reserved offset of the block's window: no register, window or existing storage (R46, R101). -/
def ReservedOffset (P : Params) (off : Nat) : Prop :=
  off % 4 = 0
    ∧ ((off < 0x100 ∧ ¬ CsrOffset off) ∨ (0x200 ≤ off ∧ off < 0x1000) ∨ (0x4000 ≤ off ∧ off < 0x40000)
      ∨ (0x40000 + 4 * P.imemWords ≤ off ∧ off < 0x80000)
      ∨ (0x80000 + 64 * P.dmemWords ≤ off ∧ off < 0x100000))

/-! ## The invariant of the machine -/

/-- The byte at a block offset belongs to a word of IMEM or DMEM that exists (R101, R104, R105). -/
def ByteExists (P : Params) (a : Nat) : Prop :=
  (0x40000 ≤ a ∧ a < 0x40000 + 4 * P.imemWords)
    ∨ (0x80000 ≤ a ∧ a < 0x80000 + 64 * P.dmemWords ∧ (a - 0x80000) % 64 < 48)

/-- CFGOK says what it should (R49, R54): the configuration is as a commit left it. -/
def State.ConfigInv (s : State) : Prop := s.cfgok = true → s.Configured

/-- What every step of the machine keeps. -/
structure State.Inv (s : State) : Prop where
  /-- The parameters are in range (R100, R104, R105). -/
  params : s.params.valid = true
  /-- Memory keeps its canonical form, and lists only bytes that exist. -/
  mem_wf : s.mem.wf
  mem_exists : ∀ cell ∈ s.mem, ByteExists s.params cell.1
  /-- CFGOK stands for a committed configuration, and CFGSTAT found nothing wrong in it (R54, R60). -/
  config : s.ConfigInv
  cfgstat : s.cfgok = true → s.cfgstat = { badEven := false, badSmall := false, badWide := false }
  /-- BADP_WIDE is always 0 (R54, I22). -/
  badWide : s.cfgstat.badWide = false
  /-- Both latches are clear outside RUNNING (R61). -/
  latches : s.seq ≠ .running → s.stepPending = false ∧ s.haltRequested = false
  /-- A fault record exists exactly in ERROR, with a cause of R501. -/
  no_record : s.seq ≠ .error → s.fault = { cause := 0, epc := 0, einfo := 0, insn := 0 }
  record : s.seq = .error → 1 ≤ s.fault.cause.toNat ∧ s.fault.cause.toNat ≤ 8

end Sys2Proof.Machine
end

