-- ==== Sys2Proof/Certificates/Slice0/Obligations.lean ====
section
/-! DEFINITION. The statements to prove about the machine. Each docstring names the rule of spec/ it formalises. -/

open Sys2Proof Sys2Proof.Machine

/-! ## Reset, steps and the invariant -/

/-- R550: what hardware reset and soft reset leave; a soft reset keeps the four storage arrays. -/
def Obligations.ResetValues : Prop :=
  (∀ t : State, (t = State.reset ∨ (∃ s : State, t = s.hardReset) ∨ ∃ s : State, t = s.softReset) →
    (∀ i : Ctr, t.getC i = 0) ∧ t.flC = false ∧ t.flEq = false ∧ t.flLt = false ∧ t.pc = 0 ∧ t.seq = .idle
      ∧ t.stepPending = false ∧ t.haltRequested = false ∧ t.cfgok = false ∧ t.herr = false ∧ t.limbs = 6
      ∧ t.modp = 0 ∧ t.pinv = 0 ∧ t.rsq = 0 ∧ t.rone = 0
      ∧ t.cfgstat = { badEven := false, badSmall := false, badWide := false }
      ∧ t.fault = { cause := 0, epc := 0, einfo := 0, insn := 0 }
      ∧ t.irqenDone = false ∧ t.irqenErr = false ∧ t.irqpendDone = false ∧ t.irqpendErr = false ∧ t.irq = false
      ∧ t.instret = 0 ∧ t.csrValue .id = 0x4D4D4201
      ∧ t.csrValue .imemsz = BitVec.ofNat 32 t.params.imemWords ∧ t.csrValue .dmemsz = BitVec.ofNat 32 t.params.dmemWords)
  ∧ (∀ s : State, s.softReset.e = s.e ∧ s.softReset.kst = s.kst ∧ s.softReset.mem = s.mem
      ∧ s.softReset.epoch = s.epoch ∧ s.softReset.params = s.params)
  ∧ (∀ (s : State) (d : BitVec 32), d.getLsbD 3 = true → s.hostWrite 0x004 4 d = s.softReset)

/-- The invariant of the machine holds right after reset (R550, with the parameters' defaults of log 4). -/
def Obligations.InvAtReset : Prop := State.reset.Inv

/-- Every step keeps the invariant: the canonical form of memory, the meaning of CFGOK, the latches, the fault record. -/
def Obligations.StepKeepsInv : Prop := ∀ s t : State, s.Inv → step s = .next t → t.Inv

/-- While SEQ runs and no input is due, the step is `exec` of the instruction at pc; the next input is one step nearer (R505;
log 6). -/
def Obligations.StepRunsDecoded : Prop :=
  ∀ (s : State) (i : Instr), s.seq = .running → s.noInputDue = true → s.pc.toNat < s.params.imemWords →
    decode (s.imemWord s.pc.toNat) = .ok i → step s = exec i s.tick

/-- An input that is due lands, and a block that is not RUNNING with no input to come keeps its state (R61, R535; logs 6, 18). -/
def Obligations.StepWithoutInstruction : Prop :=
  (∀ (s : State) (ev : HostEvent) (rest : List (Nat × HostEvent)), s.bus = (0, ev) :: rest →
    step s = .next (({ s with bus := rest } : State).hostEvent ev))
  ∧ (∀ (s : State) (n : Nat) (ev : HostEvent) (rest : List (Nat × HostEvent)), s.seq ≠ .running → s.bus = (n, ev) :: rest →
    step s = .next (({ s with bus := rest } : State).hostEvent ev))
  ∧ ∀ s : State, s.seq ≠ .running → s.bus = [] → step s = .next s

/-- The fetch and decode faults of R505: FETCH_RANGE with FAULTINSN 0, ILLEGAL_INSN with the subcode and the word fetched. -/
def Obligations.FetchAndDecodeFaults : Prop :=
  ∀ s : State, s.seq = .running → s.noInputDue = true →
    (s.params.imemWords ≤ s.pc.toNat → step s = .next (s.tick.takeFault .fetchRange s.pc.toNat 0))
    ∧ ∀ k : Illegal, s.pc.toNat < s.params.imemWords → decode (s.imemWord s.pc.toNat) = .error k →
      step s = .next (s.tick.takeFault .illegalInsn k.subcode (s.imemWord s.pc.toNat))

/-- R510: a step that faults writes the fault record, STATE and IRQPEND.ERR (and clears the latches, R61), and nothing else; the
record stays until a write of CTRL that starts, steps or resets. -/
def Obligations.FaultStepIsPrecise : Prop :=
  (∀ s t : State, s.seq = .running → s.noInputDue = true → step s = .next t → t.seq = .error →
    ∃ (cause : Cause) (einfo : Nat) (insn : InsnWord),
      insn = (if s.pc.toNat < s.params.imemWords then s.imemWord s.pc.toNat else 0)
      ∧ (cause = .fetchRange ↔ s.params.imemWords ≤ s.pc.toNat)
      ∧ t =
        { s.tick with
          fault := { cause := BitVec.ofNat 8 cause.code, epc := s.pc, einfo := BitVec.ofNat 32 einfo, insn := insn }
          seq := .error
          irqpendErr := true
          stepPending := false
          haltRequested := false })
  ∧ (∀ (s : State) (addr size : Nat) (d : BitVec 32), (s.hostEvent (.write addr size d)).fault ≠ s.fault →
      addr = s.params.base + 0x004 ∧ size = 4 ∧ (d.getLsbD 0 || d.getLsbD 3 || d.getLsbD 4) = true)
  ∧ (∀ (s : State) (addr size : Nat), (s.hostEvent (.read addr size)).fault = s.fault)
  ∧ ∀ s t : State, s.seq = .error → s.nextMove ≠ .sequencer t

/-- R506: an instruction that takes no fault retires: it counts once in INSTRET, sets pc, and leaves STATE as the latches and HALT
say. -/
def Obligations.RetiredInstruction : Prop :=
  ∀ (i : Instr) (s t : State), exec i s = .next t →
    (∀ (cause : Cause) (einfo : Nat), t ≠ s.takeFault cause einfo (encode i)) →
    t.instret = s.instret + 1
    ∧ (t.pc = s.pc + 1 ∨ branchTarget i = some t.pc)
    ∧ (isHalt i = true → t.seq = .done ∧ t.irqpendDone = true ∧ t.stepPending = false ∧ t.haltRequested = false)
    ∧ (isHalt i = false → (s.stepPending || s.haltRequested) = true →
      t.seq = .idle ∧ t.irqpendDone = s.irqpendDone ∧ t.stepPending = false ∧ t.haltRequested = false)
    ∧ (isHalt i = false → s.stepPending = false → s.haltRequested = false →
      t.seq = s.seq ∧ t.irqpendDone = s.irqpendDone ∧ t.stepPending = false ∧ t.haltRequested = false)
    ∧ t.irqpendErr = s.irqpendErr ∧ t.fault = s.fault

/-- R520: the IRQ output, and what sets and clears the bits of IRQPEND: HALT, a fault, a write of 1, a reset, nothing else. -/
def Obligations.InterruptOutput : Prop :=
  (∀ s : State, s.irq = ((s.irqpendDone && s.irqenDone) || (s.irqpendErr && s.irqenErr)))
  ∧ (∀ (i : Instr) (s t : State), exec i s = .next t →
      t.irqpendDone = (s.irqpendDone || isHalt i) ∧ t.irqpendErr = (s.irqpendErr || decide (t.instret = s.instret)))
  ∧ (∀ (s : State) (cause : Cause) (einfo : Nat) (insn : InsnWord),
      (s.takeFault cause einfo insn).irqpendErr = true ∧ (s.takeFault cause einfo insn).irqpendDone = s.irqpendDone)
  ∧ (∀ (s : State) (d : BitVec 32), d.getLsbD 3 = true →
      (s.hostWrite 0x004 4 d).irqpendDone = false ∧ (s.hostWrite 0x004 4 d).irqpendErr = false)
  ∧ (∀ s : State, s.hardReset.irqpendDone = false ∧ s.hardReset.irqpendErr = false)
  ∧ (∀ (s : State) (d : BitVec 32),
      (s.hostWrite 0x028 4 d).irqpendDone = (s.irqpendDone && !d.getLsbD 0)
      ∧ (s.hostWrite 0x028 4 d).irqpendErr = (s.irqpendErr && !d.getLsbD 1))
  ∧ (∀ (s : State) (off size : Nat) (d : BitVec 32), off ≠ 0x028 → ¬ (off = 0x004 ∧ d.getLsbD 3 = true) →
      (s.hostWrite off size d).irqpendDone = s.irqpendDone ∧ (s.hostWrite off size d).irqpendErr = s.irqpendErr)

/-! ## The checks of an instruction (R503) -/

/-- REG_RANGE: the first group past E63, in the order rd, rs1, rs2, is the fault; for LDK then the KST group (R503 step 3, R501). -/
def Obligations.RegRangeFaults : Prop :=
  (∀ (i : Instr) (s : State) (pre post : List Group) (g : Group), i.wellFormed = true →
    (operandsOf i).groups = pre ++ g :: post → (∀ h ∈ pre, Fits h.base h.size) → ¬ Fits g.base g.size →
    exec i s = .next (s.takeFault .regRange g.base (encode i)))
  ∧ ∀ (ft : FieldType) (rd : Reg) (k : KIdx) (s : State), Fits rd.val (degree ft) → 128 < k.val + degree ft →
    exec (.ldk ft rd k) s = .next (s.takeFault .regRange (0x100 + k.val) (encode (.ldk ft rd k)))

/-- REG_OVERLAP: LDBL, LADD, MLDBL and MLADD fault where the rd group and the rs1 group share a register (R14, R503 step 4). -/
def Obligations.RegOverlapFaults : Prop :=
  ∀ (rd rs1 rs2 : Reg) (s : State), Fits rs1.val 6 →
    (Fits rd.val 6 → ¬ Apart rd.val 6 rs1.val 6 →
      exec (.ldbl rd rs1) s = .next (s.takeFault .regOverlap 0 (encode (.ldbl rd rs1))))
    ∧ (Fits rd.val 6 → Fits rs2.val 4 → ¬ Apart rd.val 6 rs1.val 6 →
      exec (.ladd rd rs1 rs2) s = .next (s.takeFault .regOverlap 0 (encode (.ladd rd rs1 rs2))))
    ∧ (Fits rd.val 12 → Fits rs2.val 2 → ¬ Apart rd.val 12 rs1.val 6 →
      exec (.mldbl rd rs1 rs2) s = .next (s.takeFault .regOverlap 0 (encode (.mldbl rd rs1 rs2))))
    ∧ (Fits rd.val 12 → Fits rs2.val 6 → ¬ Apart rd.val 12 rs1.val 6 →
      exec (.mladd rd rs1 rs2) s = .next (s.takeFault .regOverlap 0 (encode (.mladd rd rs1 rs2))))

/-- R231: with CFGOK = 0, every instruction of the field, cyclotomic, point and pairing families, PONC and BREDC faults with
CONFIG, once its groups are in range and apart. -/
def Obligations.ConfigFaults : Prop :=
  ∀ (i : Instr) (s : State), (isFieldResult i.opcode = true ∨ i.opcode = .ponc ∨ i.opcode = .bredc) →
    i.wellFormed = true → (∀ g ∈ (operandsOf i).groups, Fits g.base g.size) → checkOverlap (operandsOf i) = none →
    s.cfgok = false → exec i s = .next (s.takeFault .config 0 (encode i))

/-- R402: ea is the unbounded sum of the counter and the offset; past DMEM_WORDS, and only there, both LD and ST fault with
DMEM_RANGE and ea; a register group past E63 is the earlier fault. -/
def Obligations.DmemRangeFaults : Prop :=
  ∀ (ft : FieldType) (r : Reg) (cb : Ctr) (off : Fin 16384) (s : State),
    (Fits r.val (degree ft) →
      (exec (.ld ft r cb off) s
          = .next (s.takeFault .dmemRange ((s.getC cb).toNat + off.val) (encode (.ld ft r cb off)))
        ↔ s.params.dmemWords < (s.getC cb).toNat + off.val + degree ft)
      ∧ (exec (.st ft r cb off) s
          = .next (s.takeFault .dmemRange ((s.getC cb).toNat + off.val) (encode (.st ft r cb off)))
        ↔ s.params.dmemWords < (s.getC cb).toNat + off.val + degree ft))
    ∧ (¬ Fits r.val (degree ft) →
      exec (.ld ft r cb off) s = .next (s.takeFault .regRange r.val (encode (.ld ft r cb off)))
      ∧ exec (.st ft r cb off) s = .next (s.takeFault .regRange r.val (encode (.st ft r cb off))))
    ∧ (s.getC cb).toNat + off.val ≤ 81918
    ∧ (s.takeFault .dmemRange ((s.getC cb).toNat + off.val) 0).fault.einfo.toNat = (s.getC cb).toNat + off.val

/-- NOT_REDUCED: the first checked register word not below p, in the order rs1, rs2, rd, is the fault; then the first listed KST
word (R503 step 7, R502). -/
def Obligations.NotReducedFaults : Prop :=
  ∀ (i : Instr) (s : State), i.wellFormed = true → (∀ g ∈ (operandsOf i).groups, Fits g.base g.size) →
    checkOverlap (operandsOf i) = none → ((operandsOf i).config = true → s.cfgok = true) →
    (∀ (pre post : List Nat) (j : Nat), (operandsOf i).checkedRegs = pre ++ j :: post → (∀ x ∈ pre, s.w x < s.p) →
      s.p ≤ s.w j → exec i s = .next (s.takeFault .notReduced j (encode i)))
    ∧ ∀ (pre post : List Nat) (k : Nat), (∀ x ∈ (operandsOf i).checkedRegs, s.w x < s.p) →
      (operandsOf i).kst = pre ++ k :: post → (∀ x ∈ pre, s.kw x < s.p) → s.p ≤ s.kw k →
      exec i s = .next (s.takeFault .notReduced (0x100 + k) (encode i))

/-! ## BigInt (40_bigint) -/

/-- BADD and BSUB wrap mod 2^W, write the carry or the borrow to FL.C, and never fault (R202, R203). -/
def Obligations.BaddBsubResults : Prop :=
  ∀ (rd rs1 rs2 : Reg) (s : State),
    exec (.badd rd rs1 rs2) s
        = .next (((s.setE rd.val (wordOf ((s.w rs1 + s.w rs2) % 2 ^ s.width))).setFlC
            (decide (2 ^ s.width ≤ s.w rs1 + s.w rs2))).retired (s.pc + 1))
      ∧ exec (.bsub rd rs1 rs2) s
        = .next (((s.setE rd.val (wordOf (((s.w rs1 : Int) - (s.w rs2 : Int)) % 2 ^ s.width).toNat)).setFlC
            (decide (s.w rs1 < s.w rs2))).retired (s.pc + 1))

/-- BMUL is exact in two words, low then high (R204); BREDC is the Montgomery reduction of a double word, within the bounds of
R233 (R205). -/
def Obligations.BmulBredcResults : Prop :=
  (∀ (rd rs1 rs2 : Reg) (s : State), Fits rd.val 2 →
    ∃ lo hi : Nat, lo < 2 ^ s.width ∧ hi < 2 ^ s.width ∧ lo + hi * 2 ^ s.width = s.w rs1 * s.w rs2
      ∧ exec (.bmul rd rs1 rs2) s = .next ((s.setGroup rd.val [wordOf lo, wordOf hi]).retired (s.pc + 1)))
  ∧ ∀ (rd rs1 : Reg) (s : State), s.Configured → Fits rs1.val 2 →
    ∃ v : Nat, v = s.redc (s.w (rs1.val + 1) * s.radix + s.w rs1)
      ∧ v < s.radix
      ∧ v * s.radix % s.p = (s.w (rs1.val + 1) * s.radix + s.w rs1) % s.p
      ∧ (s.w (rs1.val + 1) * s.radix + s.w rs1 < s.p * s.radix → v < s.p)
      ∧ exec (.bredc rd rs1) s = .next ((s.setE rd.val (wordOf v)).retired (s.pc + 1))

/-- BCMP compares the two words tuples as integers, word 0 least significant (R206). -/
def Obligations.BcmpResult : Prop :=
  ∀ (ft : FieldType) (rs1 rs2 : Reg) (s : State), Fits rs1.val (degree ft) → Fits rs2.val (degree ft) →
    exec (.bcmp ft rs1 rs2) s
        = .next ((s.setComparison
            ((List.range (degree ft)).map fun i => s.w (rs1.val + i) * 2 ^ (s.width * i)).sum
            ((List.range (degree ft)).map fun i => s.w (rs2.val + i) * 2 ^ (s.width * i)).sum).retired (s.pc + 1))
      ∧ ((((List.range (degree ft)).map fun i => s.w (rs1.val + i) * 2 ^ (s.width * i)).sum
            = ((List.range (degree ft)).map fun i => s.w (rs2.val + i) * 2 ^ (s.width * i)).sum)
          ↔ ∀ i, i < degree ft → s.w (rs1.val + i) = s.w (rs2.val + i))

/-- BSETI writes its immediate (R207); FZERO writes zeros (R266); FONE writes RONE and zeros, which is the element one (R268). -/
def Obligations.ConstantResults : Prop :=
  (∀ (rd : Reg) (imm : Half) (s : State),
    exec (.bseti rd imm) s = .next ((s.setE rd.val (imm.setWidth 384)).retired (s.pc + 1)))
  ∧ ∀ (ft : FieldType) (rd : Reg) (s : State), s.Ready [(rd.val, degree ft)] [] [] →
    exec (.fzero ft rd) s = .next ((s.setGroup rd.val (List.replicate (degree ft) 0)).retired (s.pc + 1))
      ∧ exec (.fone ft rd) s
        = .next ((s.setGroup rd.val (s.rone :: List.replicate (degree ft - 1) 0)).retired (s.pc + 1))
      ∧ exec (.fone ft rd) s = .next ((s.putElt ft rd.val (s.ring ft).one).retired (s.pc + 1))

/-! ## Field instructions (41_field) -/

/-- FADD, FSUB and FNEG on every field type, word by word on the Montgomery words (R240, R241, R242, R235). -/
def Obligations.FaddFsubFnegResults : Prop :=
  ∀ (ft : FieldType) (rd rs1 rs2 : Reg) (s : State),
    (s.Ready [(rd.val, degree ft)] [(rs1.val, degree ft), (rs2.val, degree ft)] [] →
      exec (.fadd ft rd rs1 rs2) s
          = .next ((s.setGroup rd.val ((List.range (degree ft)).map fun j =>
              wordOf ((s.w (rs1.val + j) + s.w (rs2.val + j)) % s.p))).retired (s.pc + 1))
        ∧ exec (.fsub ft rd rs1 rs2) s
          = .next ((s.setGroup rd.val ((List.range (degree ft)).map fun j =>
              wordOf ((s.w (rs1.val + j) + s.p - s.w (rs2.val + j)) % s.p))).retired (s.pc + 1)))
    ∧ (s.Ready [(rd.val, degree ft)] [(rs1.val, degree ft)] [] →
      exec (.fneg ft rd rs1) s
        = .next ((s.setGroup rd.val ((List.range (degree ft)).map fun j =>
            wordOf ((s.p - s.w (rs1.val + j)) % s.p))).retired (s.pc + 1)))

/-- phi and val are inverse bijections of [0, p) (R15), and phi agrees with +, - and negation (R235). -/
def Obligations.MontgomeryForm : Prop :=
  ∀ s : State, s.Configured →
    (∀ x, x < s.p → s.val (s.phi x) = x ∧ s.phi (s.val x) = x) ∧ (∀ x, s.phi x < s.p ∧ s.val x < s.p)
    ∧ (∀ x y, x < s.p → y < s.p →
        s.phi ((x + y) % s.p) = (s.phi x + s.phi y) % s.p
        ∧ s.phi ((x + s.p - y) % s.p) = (s.phi x + s.p - s.phi y) % s.p
        ∧ s.phi ((s.p - x) % s.p) = (s.p - s.phi x) % s.p)
    ∧ s.phi 0 = 0 ∧ s.phi 1 = s.rone.toNat

/-- R234: the Montgomery multiplier multiplies residues, and FMUL.F1 is that multiplier. -/
def Obligations.MontgomeryMultiplier : Prop :=
  (∀ (s : State) (a b : Nat), s.Configured → a < s.p → b < s.p →
    s.mont a b = s.redc (a * b) ∧ a * b < s.p * s.radix ∧ s.mont a b < s.p ∧ s.mont a b * s.radix % s.p = a * b % s.p
      ∧ s.mont a b = s.val (a * b) ∧ s.val (s.mont a b) = s.val a * s.val b % s.p)
  ∧ ∀ (rd rs1 rs2 : Reg) (s : State), s.Ready [(rd.val, 1)] [(rs1.val, 1), (rs2.val, 1)] [] →
    exec (.fmul .F1 rd rs1 rs2) s = .next ((s.setE rd.val (wordOf (s.mont (s.w rs1) (s.w rs2)))).retired (s.pc + 1))

/-- FMUL and FSQR write the ring product, FMUL.F1 included, where the Montgomery multiplier computes it (R243, R244, R237). -/
def Obligations.FmulFsqrResults : Prop :=
  ∀ (ft : FieldType) (rd rs1 rs2 : Reg) (s : State),
    (s.Ready [(rd.val, degree ft)] [(rs1.val, degree ft), (rs2.val, degree ft)] (nrSet ft) →
      exec (.fmul ft rd rs1 rs2) s
        = .next ((s.putElt ft rd.val ((s.ring ft).mul (s.elt ft rs1) (s.elt ft rs2))).retired (s.pc + 1)))
    ∧ (s.Ready [(rd.val, degree ft)] [(rs1.val, degree ft)] (nrSet ft) →
      exec (.fsqr ft rd rs1) s
          = .next ((s.putElt ft rd.val ((s.ring ft).mul (s.elt ft rs1) (s.elt ft rs1))).retired (s.pc + 1))
        ∧ exec (.fsqr ft rd rs1) s = exec (.fmul ft rd rs1 rs1) s)

/-- FINV writes the inverse where there is one, and faults with NOT_INVERTIBLE where there is none, in every ring of the tower and
for every modulus, prime or not (R256). -/
def Obligations.FinvResult : Prop :=
  ∀ (ft : FieldType) (rd rs1 : Reg) (s : State), s.Ready [(rd.val, degree ft)] [(rs1.val, degree ft)] (nrSet ft) →
    (∀ b : Elt ft, Canonical s.p s.kv ft b → (s.ring ft).mul (s.elt ft rs1) b = (s.ring ft).one →
      exec (.finv ft rd rs1) s = .next ((s.putElt ft rd.val b).retired (s.pc + 1)))
    ∧ ((∀ b : Elt ft, Canonical s.p s.kv ft b → (s.ring ft).mul (s.elt ft rs1) b ≠ (s.ring ft).one) →
      exec (.finv ft rd rs1) s = .next (s.takeFault .notInvertible rs1.val (encode (.finv ft rd rs1))))

/-- FFROB writes the formula of R259; on F1 it copies the value, and on F2 and F3 each upper word is multiplied by the table entry
of k mod the table length (R261). -/
def Obligations.FfrobResult : Prop :=
  ∀ (rd rs1 : Reg) (k : Fin 32) (s : State),
    (∀ ft : FieldType, s.Ready [(rd.val, degree ft)] [(rs1.val, degree ft)] (frobSet ft k.val) →
      exec (.ffrob ft rd rs1 k) s
        = .next ((s.putElt ft rd.val (frob s.p s.kv ft (s.elt ft rs1) k.val)).retired (s.pc + 1)))
    ∧ (s.Ready [(rd.val, 1)] [(rs1.val, 1)] [] →
      exec (.ffrob .F1 rd rs1 k) s = .next ((s.setE rd.val (wordOf (s.w rs1))).retired (s.pc + 1)))
    ∧ (s.Ready [(rd.val, 2)] [(rs1.val, 2)] [4 + k.val % 2] →
      exec (.ffrob .F2 rd rs1 k) s
        = .next ((s.setGroup rd.val
            [wordOf (s.w rs1), wordOf (s.mont (s.kw (4 + k.val % 2)) (s.w (rs1.val + 1)))]).retired (s.pc + 1)))
    ∧ (s.Ready [(rd.val, 3)] [(rs1.val, 3)] [6 + k.val % 3, 9 + k.val % 3] →
      exec (.ffrob .F3 rd rs1 k) s
        = .next ((s.setGroup rd.val
            [wordOf (s.w rs1), wordOf (s.mont (s.kw (6 + k.val % 3)) (s.w (rs1.val + 1))),
              wordOf (s.mont (s.kw (9 + k.val % 3)) (s.w (rs1.val + 2)))]).retired (s.pc + 1)))

/-- FCONJ keeps the lower half of the words and negates the upper half (R262). -/
def Obligations.FconjResult : Prop :=
  ∀ (ft : FieldType) (rd rs1 : Reg) (s : State), ft.isQuadratic = true →
    s.Ready [(rd.val, degree ft)] [(rs1.val, degree ft)] [] →
    exec (.fconj ft rd rs1) s
      = .next ((s.setGroup rd.val ((List.range (degree ft)).map fun j =>
          wordOf (if j < degree ft / 2 then s.w (rs1.val + j) else (s.p - s.w (rs1.val + j)) % s.p))).retired (s.pc + 1))

/-- FPOW writes x^e for the exponent e = w(rs2), 0^0 = one (R264). -/
def Obligations.FpowResult : Prop :=
  ∀ (ft : FieldType) (rd rs1 rs2 : Reg) (s : State),
    s.Ready [(rd.val, degree ft)] [(rs1.val, degree ft)] (nrSet ft) →
    exec (.fpow ft rd rs1 rs2) s
      = .next ((s.putElt ft rd.val ((s.ring ft).npow (s.elt ft rs1) (s.w rs2))).retired (s.pc + 1))

/-- TOM writes phi of the raw word mod p (R270); FROMM writes val of the raw word (R271); neither checks its input, and FROMM
undoes TOM. -/
def Obligations.TomFrommResults : Prop :=
  ∀ (ft : FieldType) (rd rs1 : Reg) (s : State), s.Ready [(rd.val, degree ft), (rs1.val, degree ft)] [] [] →
    exec (.tom ft rd rs1) s
        = .next ((s.setGroup rd.val ((List.range (degree ft)).map fun j =>
            wordOf (s.w (rs1.val + j) * s.radix % s.p))).retired (s.pc + 1))
      ∧ exec (.fromm ft rd rs1) s
        = .next ((s.setGroup rd.val ((List.range (degree ft)).map fun j =>
            wordOf (s.val (s.w (rs1.val + j))))).retired (s.pc + 1))
      ∧ ∀ x, s.val (x * s.radix % s.p) = x % s.p

/-! ## Cyclotomic instructions (42_cyclotomic) -/

/-- FCSQR squares on G_ft; elsewhere it writes some words below p, of which nothing else is known (R303, I10; log 5). -/
def Obligations.FcsqrResult : Prop :=
  ∀ (ft : FieldType) (rd rs1 : Reg) (s : State), ft.isCyclotomic = true →
    s.Ready [(rd.val, degree ft)] [(rs1.val, degree ft)] (nrSet ft) →
    (s.InG ft (s.elt ft rs1) →
      exec (.fcsqr ft rd rs1) s
        = .next ((s.putElt ft rd.val ((s.ring ft).mul (s.elt ft rs1) (s.elt ft rs1))).retired (s.pc + 1)))
    ∧ (¬ s.InG ft (s.elt ft rs1) →
      ∃ ws : List Word, ws.length = degree ft ∧ WordsBelow s.p ws
        ∧ exec (.fcsqr ft rd rs1) s
          = .next (({ s.setGroup rd.val ws with freeCtr := s.freeCtr + degree ft } : State).retired (s.pc + 1)))

/-- FCEXP writes one for the exponent 0, x^e on G_ft, and elsewhere some words below p (R304, I10; log 5). -/
def Obligations.FcexpResult : Prop :=
  ∀ (ft : FieldType) (rd rs1 rs2 : Reg) (s : State), ft.isCyclotomic = true →
    s.Ready [(rd.val, degree ft)] [(rs1.val, degree ft)] (nrSet ft) →
    (s.w rs2 = 0 →
      exec (.fcexp ft rd rs1 rs2) s = .next ((s.putElt ft rd.val (s.ring ft).one).retired (s.pc + 1)))
    ∧ (s.InG ft (s.elt ft rs1) →
      exec (.fcexp ft rd rs1 rs2) s
        = .next ((s.putElt ft rd.val ((s.ring ft).npow (s.elt ft rs1) (s.w rs2))).retired (s.pc + 1)))
    ∧ (s.w rs2 ≠ 0 → ¬ s.InG ft (s.elt ft rs1) →
      ∃ ws : List Word, ws.length = degree ft ∧ WordsBelow s.p ws
        ∧ exec (.fcexp ft rd rs1 rs2) s
          = .next (({ s.setGroup rd.val ws with freeCtr := s.freeCtr + degree ft } : State).retired (s.pc + 1)))

/-! ## Point instructions (43_point) -/

/-- PADD, PMADD and PDBL write the three coordinates of their formulas (R322, R323, R324). Of PMADD with Z1 = 0 and a Z2 that is
neither 0 nor 1 this is the model's reading: the rule's operands, corner cases and D15, against its pseudocode (log 23). -/
def Obligations.PointFormulaResults : Prop :=
  ∀ (ft : FieldType) (rd rs1 rs2 : Reg) (s : State), ft.isPoint = true →
    (s.Ready [(rd.val, 3 * degree ft)] [(rs1.val, 3 * degree ft), (rs2.val, 3 * degree ft)]
        (nrSet ft ++ kstSpan ft (curveAIdx ft)) →
      exec (.padd ft rd rs1 rs2) s
          = .next ((s.putPoint ft rd.val
              (pointAdd (s.ring ft) (s.curveA ft) (s.point ft rs1) (s.point ft rs2))).retired (s.pc + 1))
        ∧ exec (.pmadd ft rd rs1 rs2) s
          = .next ((s.putPoint ft rd.val
              (pointMixedAdd (s.ring ft) (s.curveA ft) (s.point ft rs1) (s.point ft rs2))).retired (s.pc + 1)))
    ∧ (s.Ready [(rd.val, 3 * degree ft)] [(rs1.val, 3 * degree ft)] (nrSet ft ++ kstSpan ft (curveAIdx ft)) →
      exec (.pdbl ft rd rs1) s
        = .next ((s.putPoint ft rd.val (pointDouble (s.ring ft) (s.curveA ft) (s.point ft rs1))).retired (s.pc + 1)))

/-- PNEG negates Y alone, word by word (R325); PMULQ multiplies the Frobenius of X and Y by MULQ_X and MULQ_Y and maps Z (R328). -/
def Obligations.PnegPmulqResults : Prop :=
  (∀ (ft : FieldType) (rd rs1 : Reg) (s : State), ft.isPoint = true →
    s.Ready [(rd.val, 3 * degree ft)] [(rs1.val, 3 * degree ft)] [] →
    exec (.pneg ft rd rs1) s
      = .next ((s.setGroup rd.val ((List.range (3 * degree ft)).map fun j =>
          wordOf (if degree ft ≤ j ∧ j < 2 * degree ft then (s.p - s.w (rs1.val + j)) % s.p
            else s.w (rs1.val + j)))).retired (s.pc + 1)))
  ∧ ∀ (ft : FieldType) (rd rs1 : Reg) (s : State), ft.isTwist = true →
    s.Ready [(rd.val, 3 * degree ft)] [(rs1.val, 3 * degree ft)]
      (nrSet ft ++ frobSet ft 1 ++ kstSpan ft 80 ++ kstSpan ft 83) →
    exec (.pmulq ft rd rs1) s
      = .next ((s.putPoint ft rd.val
          { x := (s.ring ft).mul (s.kelt ft 80) (frob s.p s.kv ft (s.elt ft rs1.val) 1)
            y := (s.ring ft).mul (s.kelt ft 83) (frob s.p s.kv ft (s.elt ft (rs1.val + degree ft)) 1)
            z := frob s.p s.kv ft (s.elt ft (rs1.val + 2 * degree ft)) 1 }).retired (s.pc + 1))

/-- PAFF: the sentinel (0, one, 0) for an identity, (X/Z, Y/Z, one) where Z is invertible, NOT_INVERTIBLE with the first register
of Z where a nonzero Z is not (R326). -/
def Obligations.PaffResults : Prop :=
  ∀ (ft : FieldType) (rd rs1 : Reg) (s : State), ft.isPoint = true →
    s.Ready [(rd.val, 3 * degree ft)] [(rs1.val, 3 * degree ft)] (nrSet ft) →
    ((s.point ft rs1).z = (s.ring ft).zero →
      exec (.paff ft rd rs1) s
        = .next ((s.putPoint ft rd.val
            { x := (s.ring ft).zero, y := (s.ring ft).one, z := (s.ring ft).zero }).retired (s.pc + 1)))
    ∧ (∀ zi : Elt ft, Canonical s.p s.kv ft zi → (s.ring ft).mul (s.point ft rs1).z zi = (s.ring ft).one →
      exec (.paff ft rd rs1) s
        = .next ((s.putPoint ft rd.val
            { x := (s.ring ft).mul (s.point ft rs1).x zi
              y := (s.ring ft).mul (s.point ft rs1).y zi
              z := (s.ring ft).one }).retired (s.pc + 1)))
    ∧ ((s.point ft rs1).z ≠ (s.ring ft).zero →
      (∀ zi : Elt ft, Canonical s.p s.kv ft zi → (s.ring ft).mul (s.point ft rs1).z zi ≠ (s.ring ft).one) →
      exec (.paff ft rd rs1) s
        = .next (s.takeFault .notInvertible (rs1.val + 2 * degree ft) (encode (.paff ft rd rs1))))

/-- PONC writes to FL.EQ whether the point satisfies the curve equation and is not (0, 0, 0) (R327). -/
def Obligations.PoncResult : Prop :=
  ∀ (ft : FieldType) (rs1 : Reg) (s : State), ft.isPoint = true →
    s.Ready [] [(rs1.val, 3 * degree ft)] (nrSet ft ++ kstSpan ft (curveAIdx ft) ++ kstSpan ft (curveBIdx ft)) →
    ∃ b : Bool, exec (.ponc ft rs1) s = .next ((s.setFlEq b).retired (s.pc + 1))
      ∧ (b = true ↔
        ((s.ring ft).mul ((s.ring ft).mul (s.point ft rs1).y (s.point ft rs1).y) (s.point ft rs1).z
          = (s.ring ft).add
              ((s.ring ft).add
                ((s.ring ft).mul ((s.ring ft).mul (s.point ft rs1).x (s.point ft rs1).x) (s.point ft rs1).x)
                ((s.ring ft).mul ((s.ring ft).mul ((s.ring ft).mul (s.curveA ft) (s.point ft rs1).x)
                  (s.point ft rs1).z) (s.point ft rs1).z))
              ((s.ring ft).mul ((s.ring ft).mul ((s.ring ft).mul (s.curveB ft) (s.point ft rs1).z)
                (s.point ft rs1).z) (s.point ft rs1).z))
        ∧ ¬ ((s.point ft rs1).x = (s.ring ft).zero ∧ (s.point ft rs1).y = (s.ring ft).zero
          ∧ (s.point ft rs1).z = (s.ring ft).zero))

/-- Laws of the point formulas in every ring of the tower: P + (-P) has Z = 0; P + P is 2P, word for word; a mixed addition with
a nonzero Z2 is the full addition with Z2 = one, and with Z2 = 0 the full addition (R329, R323, D15; for Z1 = 0 the model's
reading, log 23). -/
def Obligations.PointLaws : Prop :=
  ∀ (ft : FieldType) (s : State) (a : Elt ft) (P : Point (Elt ft)) (x2 y2 z2 : Elt ft), s.Configured →
    Canonical s.p s.kv ft a → Canonical s.p s.kv ft P.x → Canonical s.p s.kv ft P.y → Canonical s.p s.kv ft P.z →
    Canonical s.p s.kv ft x2 → Canonical s.p s.kv ft y2 → Canonical s.p s.kv ft z2 →
    (pointAdd (s.ring ft) a P (pointNeg (s.ring ft) P)).z = (s.ring ft).zero
      ∧ pointAdd (s.ring ft) a P P = pointDouble (s.ring ft) a P
      ∧ (z2 ≠ (s.ring ft).zero →
        pointMixedAdd (s.ring ft) a P { x := x2, y := y2, z := z2 }
          = pointAdd (s.ring ft) a P { x := x2, y := y2, z := (s.ring ft).one })
      ∧ pointMixedAdd (s.ring ft) a P { x := x2, y := y2, z := (s.ring ft).zero }
        = pointAdd (s.ring ft) a P { x := x2, y := y2, z := (s.ring ft).zero }

/-! ## Pairing instructions (44_pairing) -/

/-- LDBL and LADD write the line coefficients to rd and the new point to rs1 (R366, R367). -/
def Obligations.LineResults : Prop :=
  ∀ (rd rs1 rs2 : Reg) (s : State), Apart rd.val 6 rs1.val 6 →
    (s.Ready [(rd.val, 6)] [(rs1.val, 6)] [0, 75, 76, 78, 79] →
      exec (.ldbl rd rs1) s
        = .next (((s.putCoeffs rd.val
              (lineDouble s.p (s.ring .F2) (s.kelt .F2 75) (s.kelt .F2 78) (s.point .F2 rs1)).1.coeffs).putPoint .F2 rs1.val
            (lineDouble s.p (s.ring .F2) (s.kelt .F2 75) (s.kelt .F2 78) (s.point .F2 rs1)).2).retired (s.pc + 1)))
    ∧ (s.Ready [(rd.val, 6)] [(rs1.val, 6), (rs2.val, 4)] [0, 78, 79] →
      exec (.ladd rd rs1 rs2) s
        = .next (((s.putCoeffs rd.val
              (lineAdd (s.ring .F2) (s.kelt .F2 78) (s.point .F2 rs1) (s.elt .F2 rs2)
                (s.elt .F2 (rs2.val + 2))).1.coeffs).putPoint .F2 rs1.val
            (lineAdd (s.ring .F2) (s.kelt .F2 78) (s.point .F2 rs1) (s.elt .F2 rs2)
              (s.elt .F2 (rs2.val + 2))).2).retired (s.pc + 1)))

/-- FMUL024 and MLACC multiply f by the sparse element with ell_0, ell_VV and ell_VW at positions 0, 2 and 4; MLACC scales ell_VV
by PX and ell_VW by PY (R368, R369, R365). -/
def Obligations.SparseResults : Prop :=
  ∀ (rd rs1 rs2 : Reg) (s : State),
    (s.Ready [(rd.val, 12)] [(rs1.val, 12), (rs2.val, 6)] [0, 2, 3] →
      exec (.fmul024 rd rs1 rs2) s
        = .next ((s.putElt .F12 rd.val ((s.ring .F12).mul (s.elt .F12 rs1)
            ((s.elt .F2 rs2, (0, 0), s.elt .F2 (rs2.val + 4)), ((0, 0), s.elt .F2 (rs2.val + 2), (0, 0))))).retired
            (s.pc + 1)))
    ∧ (s.Ready [] [(rd.val, 12), (rs1.val, 6), (rs2.val, 2)] [0, 2, 3] →
      exec (.mlacc rd rs1 rs2) s
        = .next ((s.putElt .F12 rd.val ((s.ring .F12).mul (s.elt .F12 rd)
            ((s.elt .F2 rs1, (0, 0), (s.ring .F2).scale (s.val (s.w rs2)) (s.elt .F2 (rs1.val + 4))),
              ((0, 0), (s.ring .F2).scale (s.val (s.w (rs2.val + 1))) (s.elt .F2 (rs1.val + 2)), (0, 0))))).retired
            (s.pc + 1)))

/-- MLDBL and MLADD write the new accumulator to rd and the new point to rs1 (R370, R371). -/
def Obligations.FusedResults : Prop :=
  ∀ (rd rs1 rs2 : Reg) (s : State), Apart rd.val 12 rs1.val 6 →
    (s.Ready [] [(rd.val, 12), (rs1.val, 6), (rs2.val, 2)] [0, 2, 3, 75, 76, 78, 79] →
      exec (.mldbl rd rs1 rs2) s
        = .next (((s.putElt .F12 rd.val
              (s.accumulate ((s.ring .F12).mul (s.elt .F12 rd) (s.elt .F12 rd)) (s.lineDoubleAt rs1).1 (s.val (s.w rs2))
                (s.val (s.w (rs2.val + 1))))).putPoint .F2 rs1.val (s.lineDoubleAt rs1).2).retired (s.pc + 1)))
    ∧ (s.Ready [] [(rd.val, 12), (rs1.val, 6), (rs2.val, 6)] [0, 2, 3, 78, 79] →
      exec (.mladd rd rs1 rs2) s
        = .next (((s.putElt .F12 rd.val
              (s.accumulate (s.elt .F12 rd) (s.lineAddAt rs1 rs2).1 (s.val (s.w (rs2.val + 4)))
                (s.val (s.w (rs2.val + 5))))).putPoint .F2 rs1.val (s.lineAddAt rs1 rs2).2).retired (s.pc + 1)))

/-- MLDBL writes the same words as LDBL, FSQR.F12 and MLACC in a row, and MLADD the same as LADD and MLACC, for a coefficient group
that shares no register with the others, and an rs2 group apart from the rd and rs1 groups, which the parts write before MLACC
reads rs2 (R362). -/
def Obligations.FusedAgreeWithParts : Prop :=
  ∀ (c rd rs1 rs2 : Reg) (s : State), Fits c.val 6 → Apart c.val 6 rd.val 12 → Apart c.val 6 rs1.val 6 →
    Apart rd.val 12 rs1.val 6 →
    (Apart c.val 6 rs2.val 2 → Apart rs2.val 2 rd.val 12 → Apart rs2.val 2 rs1.val 6 →
      s.Ready [] [(rd.val, 12), (rs1.val, 6), (rs2.val, 2)] [0, 2, 3, 75, 76, 78, 79] →
      ∃ t1 t2 t3 t : State, exec (.ldbl c rs1) s = .next t1 ∧ exec (.fsqr .F12 rd rd) t1 = .next t2
        ∧ exec (.mlacc rd c rs2) t2 = .next t3 ∧ exec (.mldbl rd rs1 rs2) s = .next t
        ∧ t3.instret = s.instret + 3 ∧ t.instret = s.instret + 1
        ∧ (∀ j, j < 12 → t3.getE (rd.val + j) = t.getE (rd.val + j))
        ∧ ∀ j, j < 6 → t3.getE (rs1.val + j) = t.getE (rs1.val + j))
    ∧ ∀ rsp : Reg, rsp.val = rs2.val + 4 →
      Apart c.val 6 rs2.val 6 → Apart rs2.val 6 rd.val 12 → Apart rs2.val 6 rs1.val 6 →
      s.Ready [] [(rd.val, 12), (rs1.val, 6), (rs2.val, 6)] [0, 2, 3, 78, 79] →
      ∃ t1 t2 t : State, exec (.ladd c rs1 rs2) s = .next t1 ∧ exec (.mlacc rd c rsp) t1 = .next t2
        ∧ exec (.mladd rd rs1 rs2) s = .next t
        ∧ t2.instret = s.instret + 2 ∧ t.instret = s.instret + 1
        ∧ (∀ j, j < 12 → t2.getE (rd.val + j) = t.getE (rd.val + j))
        ∧ ∀ j, j < 6 → t2.getE (rs1.val + j) = t.getE (rs1.val + j)

/-! ## Moves (45_move) -/

/-- MOV and LDK copy all 384 bits of every word, all read before any is written, in any state (R400, R401). -/
def Obligations.MovLdkResults : Prop :=
  (∀ (ft : FieldType) (rd rs1 : Reg) (s : State), Fits rd.val (degree ft) → Fits rs1.val (degree ft) →
    ∃ t : State, exec (.mov ft rd rs1) s = .next t ∧ (∀ j, j < degree ft → t.getE (rd.val + j) = s.getE (rs1.val + j))
      ∧ t = ({ s with e := t.e } : State).retired (s.pc + 1))
  ∧ ∀ (ft : FieldType) (rd : Reg) (k : KIdx) (s : State), Fits rd.val (degree ft) → k.val + degree ft ≤ 128 →
    ∃ t : State, exec (.ldk ft rd k) s = .next t ∧ (∀ j, j < degree ft → t.getE (rd.val + j) = s.getK (k.val + j))
      ∧ t = ({ s with e := t.e } : State).retired (s.pc + 1)

/-- LD copies DMEM words from the index C[cb] + off on (R403, R402, R110). -/
def Obligations.LdResult : Prop :=
  ∀ (ft : FieldType) (r : Reg) (cb : Ctr) (off : Fin 16384) (s : State), Fits r.val (degree ft) →
    (s.getC cb).toNat + off.val + degree ft ≤ s.params.dmemWords →
    ∃ t : State, exec (.ld ft r cb off) s = .next t
      ∧ (∀ j, j < degree ft → t.getE (r.val + j) = s.dmemWord ((s.getC cb).toNat + off.val + j))
      ∧ t = ({ s with e := t.e } : State).retired (s.pc + 1)

/-- ST stores each word of the group, all 384 bits, little-endian, from the index C[cb] + off on; a later read of the word gives
it back (R404, R402, R106). -/
def Obligations.StResult : Prop :=
  ∀ (ft : FieldType) (r : Reg) (cb : Ctr) (off : Fin 16384) (s : State), Fits r.val (degree ft) →
    (s.getC cb).toNat + off.val + degree ft ≤ s.params.dmemWords →
    ∃ t : State, exec (.st ft r cb off) s = .next t
      ∧ (∀ j, j < degree ft → t.dmemWord ((s.getC cb).toNat + off.val + j) = s.getE (r.val + j))
      ∧ (∀ j k, j < degree ft → k < 48 →
        t.readByte (dmemAddr ((s.getC cb).toNat + off.val + j) + k) = BitVec.ofNat 8 ((s.getE (r.val + j)).toNat / 256 ^ k))
      ∧ t = ({ s with mem := t.mem } : State).retired (s.pc + 1)

/-! ## Control flow and counters (46_control) -/

/-- JMP, BF with the condition table of R159, BBS, BBC and BCNZ: the next pc, and BCNZ's counter (R422 to R426). -/
def Obligations.BranchResults : Prop :=
  ∀ (s : State) (target : Half),
    exec (.jmp target) s = .next (s.retired target)
    ∧ (∀ cond : Cond, exec (.bf cond target) s
        = .next (s.retired (if (match cond with
            | .eq => s.flEq == true
            | .ne => s.flEq == false
            | .lt => s.flLt == true
            | .ge => s.flLt == false
            | .cs => s.flC == true
            | .cc => s.flC == false) then target else s.pc + 1)))
    ∧ (∀ (ci : Ctr) (rs : Reg),
        exec (.bbs ci rs target) s
            = .next (s.retired (if (s.getC ci).toNat < s.width ∧ s.w rs / 2 ^ (s.getC ci).toNat % 2 = 1 then target
              else s.pc + 1))
          ∧ exec (.bbc ci rs target) s
            = .next (s.retired (if (s.getC ci).toNat < s.width ∧ s.w rs / 2 ^ (s.getC ci).toNat % 2 = 1 then s.pc + 1
              else target)))
    ∧ ∀ cd : Ctr, exec (.bcnz cd target) s
        = .next ((s.setC cd (s.getC cd - 1)).retired (if (s.getC cd).toNat = 1 then s.pc + 1 else target))

/-- CSET, CADDI with its signed immediate, and CBLEN (R430, R431, R432). -/
def Obligations.CounterResults : Prop :=
  ∀ s : State,
    (∀ (cd : Ctr) (imm : Half), exec (.cset cd imm) s = .next ((s.setC cd imm).retired (s.pc + 1)))
    ∧ (∀ (cd cs : Ctr) (imm : Half), exec (.caddi cd cs imm) s
        = .next ((s.setC cd (BitVec.ofInt 16 (((s.getC cs).toNat : Int) + imm.toInt))).retired (s.pc + 1)))
    ∧ ∀ (cd : Ctr) (rs : Reg) (n : Nat), s.w rs < 2 ^ n → (n = 0 ∨ 2 ^ (n - 1) ≤ s.w rs) →
        exec (.cblen cd rs) s = .next ((s.setC cd (BitVec.ofNat 16 n)).retired (s.pc + 1)) ∧ n ≤ 384

/-- NOP only retires (R433); HALT retires into DONE and sets IRQPEND.DONE, in any state, and a later START resumes behind it
(R434); a word of either opcode with another bit set is illegal. -/
def Obligations.NopHaltResults : Prop :=
  (∀ s : State, exec .nop s = .next (s.retired (s.pc + 1))
    ∧ exec .halt s = .next
      { s with
        pc := s.pc + 1
        instret := s.instret + 1
        seq := .done
        irqpendDone := true
        stepPending := false
        haltRequested := false }
    ∧ ∀ t : State, exec .halt s = .next t →
      (t.hostWrite 0x004 4 0x1).seq = .running ∧ (t.hostWrite 0x004 4 0x1).pc = s.pc + 1)
  ∧ decode 0xF8000000 = .ok .nop ∧ decode 0xFC000000 = .ok .halt
  ∧ ∀ w : InsnWord, w.field 26 6 ∈ [0x3E, 0x3F] → w.field 0 26 ≠ 0 → decode w = .error .mustBeZero

/-! ## Frames -/

/-- Every register outside the dst and srcdst groups of R161 keeps its 384 bits, whatever the instruction and however it ends. -/
def Obligations.RegisterFrame : Prop :=
  ∀ (i : Instr) (s t : State), exec i s = .next t → ∀ r : Nat,
    (∀ g ∈ destGroups i, r < g.1 ∨ g.1 + g.2 ≤ r) → t.getE r = s.getE r

/-- A counter changes only as the destination of BCNZ, CSET, CADDI or CBLEN (R43); C only by BADD and BSUB, EQ only by BCMP and
PONC, LT only by BCMP (R44). -/
def Obligations.CounterAndFlagFrame : Prop :=
  ∀ (i : Instr) (s t : State), exec i s = .next t →
    (∀ c : Ctr, destCtr i ≠ some c → t.getC c = s.getC c)
    ∧ (i.opcode ≠ .badd → i.opcode ≠ .bsub → t.flC = s.flC)
    ∧ (i.opcode ≠ .bcmp → i.opcode ≠ .ponc → t.flEq = s.flEq)
    ∧ (i.opcode ≠ .bcmp → t.flLt = s.flLt)

/-- Every byte of IMEM and DMEM is unchanged by every instruction but ST, and by ST outside the 48 bytes of each word of the group
at the index it computes (R404, R109). -/
def Obligations.MemoryFrame : Prop :=
  (∀ (i : Instr) (s t : State), exec i s = .next t → i.opcode ≠ .st → ∀ a, t.readByte a = s.readByte a)
  ∧ ∀ (ft : FieldType) (r : Reg) (cb : Ctr) (off : Fin 16384) (s t : State), exec (.st ft r cb off) s = .next t →
    ∀ a, (∀ j, j < degree ft →
        a < dmemAddr (s.dmemEa cb off.val + j) ∨ dmemAddr (s.dmemEa cb off.val + j) + 48 ≤ a) →
      t.readByte a = s.readByte a

/-- No instruction writes KST (R62), the configuration (R562), the host-side bits, the parameters or the model's own records; the
free-value counter moves only in FCSQR and FCEXP (log 5); and an instruction either retires or leaves pc and INSTRET alone. -/
def Obligations.SpecialFrame : Prop :=
  ∀ (i : Instr) (s t : State), exec i s = .next t →
    t.kst = s.kst ∧ t.nlimbs = s.nlimbs ∧ t.modp = s.modp ∧ t.pinv = s.pinv ∧ t.rsq = s.rsq ∧ t.rone = s.rone
    ∧ t.cfgok = s.cfgok ∧ t.cfgstat = s.cfgstat ∧ t.herr = s.herr ∧ t.irqenDone = s.irqenDone ∧ t.irqenErr = s.irqenErr
    ∧ t.params = s.params ∧ t.epoch = s.epoch ∧ t.bus = s.bus ∧ t.rdata = s.rdata
    ∧ (i.opcode ≠ .fcsqr → i.opcode ≠ .fcexp → t.freeCtr = s.freeCtr)
    ∧ (t.instret = s.instret + 1 ∨ (t.instret = s.instret ∧ t.seq = .error ∧ t.pc = s.pc))

/-! ## Whole-machine rules -/

/-- Every word that a retired field, cyclotomic, point or pairing instruction writes is below p (R230, R19). -/
def Obligations.FieldResultsReduced : Prop :=
  ∀ (i : Instr) (s t : State), s.ConfigInv → exec i s = .next t → t.instret = s.instret + 1 →
    isFieldResult i.opcode = true → ∀ g ∈ destGroups i, ∀ j, j < g.2 → (t.getE (g.1 + j)).toNat < s.p

/-- Only the moves see the bits above W: two states whose registers agree on their low W bits run every other instruction to the
same flags, counters, pc, fault and results (R16). -/
def Obligations.HighBitsIgnored : Prop :=
  ∀ (i : Instr) (s : State) (e' : Vector Word 64), i.opcode ∉ [Opcode.mov, .ldk, .ld, .st] →
    (∀ k, ({ s with e := e' } : State).w k = s.w k) →
    ∃ t t' : State, exec i s = .next t ∧ exec i { s with e := e' } = .next t' ∧ t' = { t with e := t'.e }
      ∧ (t.instret = s.instret + 1 → ∀ g ∈ destGroups i, ∀ j, j < g.2 → t'.getE (g.1 + j) = t.getE (g.1 + j))

/-! ## The host interface (10_state, 20_memory) -/

/-- R54: CFGCOMMIT while not RUNNING: CFGSTAT, and PINV, RSQ, RONE and CFGOK, and nothing else. -/
def Obligations.ConfigCommit : Prop :=
  ∀ s : State, s.seq ≠ .running →
    (s.p % 2 = 0 ∨ s.p < 3 →
      s.hostWrite 0x004 4 0x4 =
        { s with
          cfgstat := { badEven := decide (s.p % 2 = 0), badSmall := decide (s.p < 3), badWide := false }
          pinv := 0
          rsq := 0
          rone := 0
          cfgok := false })
    ∧ (s.p % 2 = 1 → 3 ≤ s.p →
      ∃ v : Nat, v < s.radix ∧ (v * s.p + 1) % s.radix = 0
        ∧ s.hostWrite 0x004 4 0x4 =
          { s with
            cfgstat := { badEven := false, badSmall := false, badWide := false }
            pinv := wordOf v
            rsq := wordOf (s.radix * s.radix % s.p)
            rone := wordOf (s.radix % s.p)
            cfgok := true })

/-- START, STEP, HALTREQ and CFGCOMMIT alone, in each state of SEQ, and every data word without SRST: its bits act in the order
CFGCOMMIT, HALTREQ, START, and STEP where START is not set, each as a write of that bit alone (R48, R512). -/
def Obligations.ControlWrites : Prop :=
  (∀ s : State, s.seq ≠ .running →
    s.hostWrite 0x004 4 0x1
        = { s with fault := { cause := 0, epc := 0, einfo := 0, insn := 0 }, seq := .running }
    ∧ s.hostWrite 0x004 4 0x10
        = { s with fault := { cause := 0, epc := 0, einfo := 0, insn := 0 }, seq := .running, stepPending := true }
    ∧ s.hostWrite 0x004 4 0x2 = s
    ∧ s.hostWrite 0x004 4 0x3 = s.hostWrite 0x004 4 0x1
    ∧ s.hostWrite 0x004 4 0x14 = (s.hostWrite 0x004 4 0x4).hostWrite 0x004 4 0x10)
  ∧ (∀ s : State, s.seq = .running →
    s.hostWrite 0x004 4 0x1 = s ∧ s.hostWrite 0x004 4 0x10 = s
    ∧ s.hostWrite 0x004 4 0x2 = { s with haltRequested := true }
    ∧ s.hostWrite 0x004 4 0x4 = { s with herr := true }
    ∧ s.hostWrite 0x004 4 0x17 = { s with herr := true, haltRequested := true })
  ∧ ∀ (s : State) (d : BitVec 32), d.getLsbD 3 = false →
    ∃ afterCommit afterHaltReq : State,
      afterCommit = (if d.getLsbD 2 then s.hostWrite 0x004 4 0x4 else s)
      ∧ afterHaltReq = (if d.getLsbD 1 then afterCommit.hostWrite 0x004 4 0x2 else afterCommit)
      ∧ s.hostWrite 0x004 4 d =
        (if d.getLsbD 0 then afterHaltReq.hostWrite 0x004 4 0x1
        else if d.getLsbD 4 then afterHaltReq.hostWrite 0x004 4 0x10
        else afterHaltReq)

/-- A refused access reads 0 or writes nothing, and sets HERR: a wrong size or alignment, a reserved offset, and while RUNNING the
storage and the RWI registers (R111, R102, R112, I12). -/
def Obligations.RefusedAccesses : Prop :=
  ∀ (s : State) (off size : Nat) (d : BitVec 32),
    ((size ≠ 4 ∨ off % 4 ≠ 0) →
      s.hostRead off size = { s with rdata := 0, herr := true } ∧ s.hostWrite off size d = { s with herr := true })
    ∧ (ReservedOffset s.params off →
      s.hostRead off 4 = { s with rdata := 0, herr := true } ∧ s.hostWrite off 4 d = { s with herr := true })
    ∧ (s.seq = .running → StorageOffset s.params off →
      s.hostRead off 4 = { s with rdata := 0, herr := true } ∧ s.hostWrite off 4 d = { s with herr := true })
    ∧ (s.seq = .running → off % 4 = 0 →
        (off = 0x00C ∨ off = 0x010 ∨ off = 0x02C ∨ off = 0x040 ∨ off = 0x044 ∨ (0x060 ≤ off ∧ off ≤ 0x07C)
          ∨ (0x100 ≤ off ∧ off < 0x130)) →
      s.hostWrite off 4 d = { s with herr := true })

/-- While SEQ does not run, a bus word of storage reads back as written, and no other bus word of storage changes (R101, R103,
R106). -/
def Obligations.HostStorage : Prop :=
  ∀ (s : State) (off : Nat) (d : BitVec 32), s.params.valid = true → s.seq ≠ .running → StorageOffset s.params off →
    ((s.hostWrite off 4 d).hostRead off 4).rdata = d
    ∧ (s.hostWrite off 4 d).herr = s.herr
    ∧ ∀ off', StorageOffset s.params off' → off' ≠ off →
      ((s.hostWrite off 4 d).hostRead off' 4).rdata = (s.hostRead off' 4).rdata

/-- A read changes nothing but the bus data and HERR, sets HERR exactly where it is refused, and reading again gives the same
(R103, R111); window padding reads 0 and ignores writes without HERR (R107); that
a write of MODP's padding keeps CFGOK and CFGSTAT too is the model's reading (log 13). -/
def Obligations.HostReadsAndPadding : Prop :=
  (∀ (s : State) (off size : Nat),
    s.hostRead off size =
      { s with
        rdata := (s.hostRead off size).rdata
        herr := s.herr || !(aligned32 off size) || s.refusesRead (s.locate off) }
    ∧ ((s.hostRead off size).hostRead off size).rdata = (s.hostRead off size).rdata)
  ∧ ∀ (s : State) (off : Nat) (d : BitVec 32), s.seq ≠ .running → PaddingOffset s.params off →
    s.hostRead off 4 = { s with rdata := 0 } ∧ s.hostWrite off 4 d = s

/-! ## Encoding (30_encoding) -/

/-- Decoding the word that encodes a well-formed instruction gives it back, every operand at every value. -/
def Obligations.DecodeEncode : Prop := ∀ i : Instr, i.wellFormed = true → decode (encode i) = .ok i

/-- A word that decodes is the word that encodes what it decodes to, and that is well-formed: no bit of a word is ignored. -/
def Obligations.EncodeDecode : Prop :=
  ∀ (w : InsnWord) (i : Instr), decode w = .ok i → i.wellFormed = true ∧ encode i = w

/-- R162: the decode checks and their order: reserved opcode, illegal ft or condition, must-be-zero, and their subcodes, which
EINFO records; every other word decodes to the instruction it encodes. -/
def Obligations.IllegalEncodings : Prop :=
  (∀ w : InsnWord, decode w = .error .reservedOpcode ↔
    w.field 26 6 ∈ [0x00, 0x1A, 0x1B, 0x1C, 0x1D, 0x1E, 0x1F, 0x27, 0x2E, 0x2F, 0x38, 0x39, 0x3A, 0x3B, 0x3C, 0x3D])
  ∧ (∀ w : InsnWord, decode w = .error .illegalFt ↔
    ∃ (op : Opcode) (l : List Nat), w.field 26 6 = op.code ∧ legalFtCodes op = some l ∧ w.field 23 3 ∉ l)
  ∧ (∀ w : InsnWord, decode w = .error .illegalCond ↔ w.field 26 6 = Opcode.bf.code ∧ 5 < w.field 23 3)
  ∧ (∀ w : InsnWord, decode w = .error .mustBeZero ↔
    decode w ≠ .error .reservedOpcode ∧ decode w ≠ .error .illegalFt ∧ decode w ≠ .error .illegalCond
      ∧ ¬ ∃ i : Instr, i.wellFormed = true ∧ encode i = w)
  ∧ (∀ (w : InsnWord) (i : Instr), decode w = .ok i ↔ i.wellFormed = true ∧ encode i = w)
  ∧ (∀ (s t : State) (k : Illegal), s.seq = .running → s.noInputDue = true → s.pc.toNat < s.params.imemWords →
    decode (s.imemWord s.pc.toNat) = .error k → step s = .next t →
    t.fault.cause.toNat = 2 ∧ t.fault.einfo.toNat = k.subcode)
  ∧ Illegal.reservedOpcode.subcode = 1 ∧ Illegal.illegalFt.subcode = 2 ∧ Illegal.mustBeZero.subcode = 3
  ∧ Illegal.illegalCond.subcode = 4

/-- R166: the worked encodings decode to the instructions they stand for. -/
def Obligations.WorkedEncodings : Prop :=
  decode 0x10041020 = .ok (.fmul .F1 2 2 1) ∧ decode 0x13006300 = .ok (.fmul .F12 0 12 24)
  ∧ decode 0x1F006003 = .ok (.ffrob .F12 0 12 3) ∧ decode 0x44880800 = .ok (.ldk .F2 4 2)
  ∧ decode 0x48024000 = .ok (.ld .F1 1 1 0) ∧ decode 0x4C8C8005 = .ok (.st .F2 6 2 5)
  ∧ decode 0x64061234 = .ok (.bseti 3 0x1234) ∧ decode 0xB0006240 = .ok (.mldbl 0 12 18)
  ∧ decode 0xC0000008 = .ok (.jmp 8) ∧ decode 0xC4800003 = .ok (.bf .ne 3)
  ∧ decode 0xCC860006 = .ok (.bbc 1 3 6) ∧ decode 0xD0000003 = .ok (.bcnz 0 3)
  ∧ decode 0xD4000004 = .ok (.cset 0 4) ∧ decode 0xD880FFFF = .ok (.caddi 1 0 0xFFFF)
  ∧ decode 0xDC060000 = .ok (.cblen 0 3) ∧ decode 0xF8000000 = .ok .nop ∧ decode 0xFC000000 = .ok .halt

/-! ## The registers HOST reads and writes (10_state, sections 3 and 4) -/

/-- What HOST reads from every CSR while SEQ does not run, and what its writes change: the whole next state, for the writable
registers (R50, R51, R52, R53, R57, R58, R59), for HERR (R49), and for the read-only ones (R46, R55). A write of NLIMBS that is not
ignored, and every write of a MODP word, clears CFGOK and CFGSTAT (R52, R53, R60). That a write of 0 or 7 to NLIMBS is ignored
whole, and so keeps CFGOK and CFGSTAT, is the model's reading (log 14), from R52 and the vector of 95_test_vectors section 2.1. -/
def Obligations.CsrReadsAndWrites : Prop :=
  ∀ (s : State) (d : BitVec 32), s.seq ≠ .running →
    -- reads
    ((s.hostRead 0x000 4).rdata = 0x4D4D4201 ∧ (s.hostRead 0x004 4).rdata = 0
      ∧ (s.hostRead 0x008 4).rdata.toNat
        = (match s.seq with
          | .idle => 0
          | .running => 1
          | .done => 2
          | .error => 3) + 4 * s.cfgok.toNat + 8 * s.herr.toNat
      ∧ (s.hostRead 0x00C 4).rdata.toNat = s.flC.toNat + 2 * s.flEq.toNat + 4 * s.flLt.toNat
      ∧ (s.hostRead 0x010 4).rdata.toNat = s.pc.toNat ∧ (s.hostRead 0x014 4).rdata.toNat = s.fault.cause.toNat
      ∧ (s.hostRead 0x018 4).rdata.toNat = s.fault.epc.toNat ∧ (s.hostRead 0x01C 4).rdata = s.fault.einfo
      ∧ (s.hostRead 0x020 4).rdata = s.fault.insn
      ∧ (s.hostRead 0x024 4).rdata.toNat = s.irqenDone.toNat + 2 * s.irqenErr.toNat
      ∧ (s.hostRead 0x028 4).rdata.toNat = s.irqpendDone.toNat + 2 * s.irqpendErr.toNat
      ∧ (s.hostRead 0x02C 4).rdata.toNat = s.limbs
      ∧ (s.hostRead 0x030 4).rdata.toNat
        = s.cfgstat.badEven.toNat + 2 * s.cfgstat.badSmall.toNat + 4 * s.cfgstat.badWide.toNat
      ∧ (s.hostRead 0x034 4).rdata = BitVec.ofNat 32 s.params.imemWords
      ∧ (s.hostRead 0x038 4).rdata = BitVec.ofNat 32 s.params.dmemWords
      ∧ (s.hostRead 0x040 4).rdata = s.instret.extractLsb' 0 32 ∧ (s.hostRead 0x044 4).rdata = s.instret.extractLsb' 32 32
      ∧ (∀ i : Ctr, (s.hostRead (0x060 + 4 * i.val) 4).rdata.toNat = (s.getC i).toNat)
      ∧ ∀ k, k < 12 → (s.hostRead (0x100 + 4 * k) 4).rdata = s.modp.extractLsb' (32 * k) 32
        ∧ (s.hostRead (0x140 + 4 * k) 4).rdata = s.pinv.extractLsb' (32 * k) 32
        ∧ (s.hostRead (0x180 + 4 * k) 4).rdata = s.rsq.extractLsb' (32 * k) 32
        ∧ (s.hostRead (0x1C0 + 4 * k) 4).rdata = s.rone.extractLsb' (32 * k) 32)
    -- writes
    ∧ s.hostWrite 0x008 4 d = { s with herr := s.herr && !d.getLsbD 3 }
    ∧ s.hostWrite 0x00C 4 d = { s with flC := d.getLsbD 0, flEq := d.getLsbD 1, flLt := d.getLsbD 2 }
    ∧ s.hostWrite 0x010 4 d = { s with pc := d.extractLsb' 0 16 }
    ∧ s.hostWrite 0x024 4 d = { s with irqenDone := d.getLsbD 0, irqenErr := d.getLsbD 1 }
    ∧ s.hostWrite 0x028 4 d
      = { s with irqpendDone := s.irqpendDone && !d.getLsbD 0, irqpendErr := s.irqpendErr && !d.getLsbD 1 }
    ∧ s.hostWrite 0x040 4 d = { s with instret := s.instret.extractLsb' 32 32 ++ d }
    ∧ s.hostWrite 0x044 4 d = { s with instret := d ++ s.instret.extractLsb' 0 32 }
    ∧ (∀ i : Ctr, s.hostWrite (0x060 + 4 * i.val) 4 d = s.setC i (d.extractLsb' 0 16))
    -- the model's reading (log 14)
    ∧ (d.toNat % 8 = 0 ∨ d.toNat % 8 = 7 → s.hostWrite 0x02C 4 d = s)
    ∧ (∀ n, d.toNat % 8 = n → 1 ≤ n → n ≤ 6 →
      (s.hostWrite 0x02C 4 d).limbs = n
      ∧ s.hostWrite 0x02C 4 d =
        { s with
          nlimbs := (s.hostWrite 0x02C 4 d).nlimbs
          cfgok := false
          cfgstat := { badEven := false, badSmall := false, badWide := false } })
    ∧ (∀ k, k < 12 →
      (∀ j, j < 12 → (s.hostWrite (0x100 + 4 * k) 4 d).modp.extractLsb' (32 * j) 32
        = if j = k then d else s.modp.extractLsb' (32 * j) 32)
      ∧ s.hostWrite (0x100 + 4 * k) 4 d =
        { s with
          modp := (s.hostWrite (0x100 + 4 * k) 4 d).modp
          cfgok := false
          cfgstat := { badEven := false, badSmall := false, badWide := false } })
    ∧ ∀ off, off % 4 = 0 →
      (off ∈ [0x000, 0x014, 0x018, 0x01C, 0x020, 0x030, 0x034, 0x038] ∨ (0x140 ≤ off ∧ off < 0x200)) → s.hostWrite off 4 d = s
end

