-- ==== Sys2Proof/Laws/State.lean ====
section
/-! SUPPORT. What each update of the state leaves in each field: one lemma per field per update. -/

namespace Sys2Proof.Machine

/-! ### setE -/

@[simp] theorem State.setE_e (s : State) (i : Nat) (v : Word) : (s.setE i v).e = s.e.setIfInBounds i v := rfl
@[simp] theorem State.setE_c (s : State) (i : Nat) (v : Word) : (s.setE i v).c = s.c := rfl
@[simp] theorem State.setE_flC (s : State) (i : Nat) (v : Word) : (s.setE i v).flC = s.flC := rfl
@[simp] theorem State.setE_flEq (s : State) (i : Nat) (v : Word) : (s.setE i v).flEq = s.flEq := rfl
@[simp] theorem State.setE_flLt (s : State) (i : Nat) (v : Word) : (s.setE i v).flLt = s.flLt := rfl
@[simp] theorem State.setE_pc (s : State) (i : Nat) (v : Word) : (s.setE i v).pc = s.pc := rfl
@[simp] theorem State.setE_seq (s : State) (i : Nat) (v : Word) : (s.setE i v).seq = s.seq := rfl
@[simp] theorem State.setE_stepPending (s : State) (i : Nat) (v : Word) : (s.setE i v).stepPending = s.stepPending := rfl
@[simp] theorem State.setE_haltRequested (s : State) (i : Nat) (v : Word) : (s.setE i v).haltRequested = s.haltRequested := rfl
@[simp] theorem State.setE_cfgok (s : State) (i : Nat) (v : Word) : (s.setE i v).cfgok = s.cfgok := rfl
@[simp] theorem State.setE_herr (s : State) (i : Nat) (v : Word) : (s.setE i v).herr = s.herr := rfl
@[simp] theorem State.setE_nlimbs (s : State) (i : Nat) (v : Word) : (s.setE i v).nlimbs = s.nlimbs := rfl
@[simp] theorem State.setE_modp (s : State) (i : Nat) (v : Word) : (s.setE i v).modp = s.modp := rfl
@[simp] theorem State.setE_pinv (s : State) (i : Nat) (v : Word) : (s.setE i v).pinv = s.pinv := rfl
@[simp] theorem State.setE_rsq (s : State) (i : Nat) (v : Word) : (s.setE i v).rsq = s.rsq := rfl
@[simp] theorem State.setE_rone (s : State) (i : Nat) (v : Word) : (s.setE i v).rone = s.rone := rfl
@[simp] theorem State.setE_cfgstat (s : State) (i : Nat) (v : Word) : (s.setE i v).cfgstat = s.cfgstat := rfl
@[simp] theorem State.setE_fault (s : State) (i : Nat) (v : Word) : (s.setE i v).fault = s.fault := rfl
@[simp] theorem State.setE_irqenDone (s : State) (i : Nat) (v : Word) : (s.setE i v).irqenDone = s.irqenDone := rfl
@[simp] theorem State.setE_irqenErr (s : State) (i : Nat) (v : Word) : (s.setE i v).irqenErr = s.irqenErr := rfl
@[simp] theorem State.setE_irqpendDone (s : State) (i : Nat) (v : Word) : (s.setE i v).irqpendDone = s.irqpendDone := rfl
@[simp] theorem State.setE_irqpendErr (s : State) (i : Nat) (v : Word) : (s.setE i v).irqpendErr = s.irqpendErr := rfl
@[simp] theorem State.setE_instret (s : State) (i : Nat) (v : Word) : (s.setE i v).instret = s.instret := rfl
@[simp] theorem State.setE_kst (s : State) (i : Nat) (v : Word) : (s.setE i v).kst = s.kst := rfl
@[simp] theorem State.setE_mem (s : State) (i : Nat) (v : Word) : (s.setE i v).mem = s.mem := rfl
@[simp] theorem State.setE_params (s : State) (i : Nat) (v : Word) : (s.setE i v).params = s.params := rfl
@[simp] theorem State.setE_epoch (s : State) (i : Nat) (v : Word) : (s.setE i v).epoch = s.epoch := rfl
@[simp] theorem State.setE_freeCtr (s : State) (i : Nat) (v : Word) : (s.setE i v).freeCtr = s.freeCtr := rfl
@[simp] theorem State.setE_bus (s : State) (i : Nat) (v : Word) : (s.setE i v).bus = s.bus := rfl
@[simp] theorem State.setE_rdata (s : State) (i : Nat) (v : Word) : (s.setE i v).rdata = s.rdata := rfl

/-! ### setC -/

@[simp] theorem State.setC_e (s : State) (i : Ctr) (v : Half) : (s.setC i v).e = s.e := rfl
@[simp] theorem State.setC_c (s : State) (i : Ctr) (v : Half) : (s.setC i v).c = s.c.set i.val v := rfl
@[simp] theorem State.setC_flC (s : State) (i : Ctr) (v : Half) : (s.setC i v).flC = s.flC := rfl
@[simp] theorem State.setC_flEq (s : State) (i : Ctr) (v : Half) : (s.setC i v).flEq = s.flEq := rfl
@[simp] theorem State.setC_flLt (s : State) (i : Ctr) (v : Half) : (s.setC i v).flLt = s.flLt := rfl
@[simp] theorem State.setC_pc (s : State) (i : Ctr) (v : Half) : (s.setC i v).pc = s.pc := rfl
@[simp] theorem State.setC_seq (s : State) (i : Ctr) (v : Half) : (s.setC i v).seq = s.seq := rfl
@[simp] theorem State.setC_stepPending (s : State) (i : Ctr) (v : Half) : (s.setC i v).stepPending = s.stepPending := rfl
@[simp] theorem State.setC_haltRequested (s : State) (i : Ctr) (v : Half) : (s.setC i v).haltRequested = s.haltRequested := rfl
@[simp] theorem State.setC_cfgok (s : State) (i : Ctr) (v : Half) : (s.setC i v).cfgok = s.cfgok := rfl
@[simp] theorem State.setC_herr (s : State) (i : Ctr) (v : Half) : (s.setC i v).herr = s.herr := rfl
@[simp] theorem State.setC_nlimbs (s : State) (i : Ctr) (v : Half) : (s.setC i v).nlimbs = s.nlimbs := rfl
@[simp] theorem State.setC_modp (s : State) (i : Ctr) (v : Half) : (s.setC i v).modp = s.modp := rfl
@[simp] theorem State.setC_pinv (s : State) (i : Ctr) (v : Half) : (s.setC i v).pinv = s.pinv := rfl
@[simp] theorem State.setC_rsq (s : State) (i : Ctr) (v : Half) : (s.setC i v).rsq = s.rsq := rfl
@[simp] theorem State.setC_rone (s : State) (i : Ctr) (v : Half) : (s.setC i v).rone = s.rone := rfl
@[simp] theorem State.setC_cfgstat (s : State) (i : Ctr) (v : Half) : (s.setC i v).cfgstat = s.cfgstat := rfl
@[simp] theorem State.setC_fault (s : State) (i : Ctr) (v : Half) : (s.setC i v).fault = s.fault := rfl
@[simp] theorem State.setC_irqenDone (s : State) (i : Ctr) (v : Half) : (s.setC i v).irqenDone = s.irqenDone := rfl
@[simp] theorem State.setC_irqenErr (s : State) (i : Ctr) (v : Half) : (s.setC i v).irqenErr = s.irqenErr := rfl
@[simp] theorem State.setC_irqpendDone (s : State) (i : Ctr) (v : Half) : (s.setC i v).irqpendDone = s.irqpendDone := rfl
@[simp] theorem State.setC_irqpendErr (s : State) (i : Ctr) (v : Half) : (s.setC i v).irqpendErr = s.irqpendErr := rfl
@[simp] theorem State.setC_instret (s : State) (i : Ctr) (v : Half) : (s.setC i v).instret = s.instret := rfl
@[simp] theorem State.setC_kst (s : State) (i : Ctr) (v : Half) : (s.setC i v).kst = s.kst := rfl
@[simp] theorem State.setC_mem (s : State) (i : Ctr) (v : Half) : (s.setC i v).mem = s.mem := rfl
@[simp] theorem State.setC_params (s : State) (i : Ctr) (v : Half) : (s.setC i v).params = s.params := rfl
@[simp] theorem State.setC_epoch (s : State) (i : Ctr) (v : Half) : (s.setC i v).epoch = s.epoch := rfl
@[simp] theorem State.setC_freeCtr (s : State) (i : Ctr) (v : Half) : (s.setC i v).freeCtr = s.freeCtr := rfl
@[simp] theorem State.setC_bus (s : State) (i : Ctr) (v : Half) : (s.setC i v).bus = s.bus := rfl
@[simp] theorem State.setC_rdata (s : State) (i : Ctr) (v : Half) : (s.setC i v).rdata = s.rdata := rfl

/-! ### setFlC -/

@[simp] theorem State.setFlC_e (s : State) (b : Bool) : (s.setFlC b).e = s.e := rfl
@[simp] theorem State.setFlC_c (s : State) (b : Bool) : (s.setFlC b).c = s.c := rfl
@[simp] theorem State.setFlC_flC (s : State) (b : Bool) : (s.setFlC b).flC = b := rfl
@[simp] theorem State.setFlC_flEq (s : State) (b : Bool) : (s.setFlC b).flEq = s.flEq := rfl
@[simp] theorem State.setFlC_flLt (s : State) (b : Bool) : (s.setFlC b).flLt = s.flLt := rfl
@[simp] theorem State.setFlC_pc (s : State) (b : Bool) : (s.setFlC b).pc = s.pc := rfl
@[simp] theorem State.setFlC_seq (s : State) (b : Bool) : (s.setFlC b).seq = s.seq := rfl
@[simp] theorem State.setFlC_stepPending (s : State) (b : Bool) : (s.setFlC b).stepPending = s.stepPending := rfl
@[simp] theorem State.setFlC_haltRequested (s : State) (b : Bool) : (s.setFlC b).haltRequested = s.haltRequested := rfl
@[simp] theorem State.setFlC_cfgok (s : State) (b : Bool) : (s.setFlC b).cfgok = s.cfgok := rfl
@[simp] theorem State.setFlC_herr (s : State) (b : Bool) : (s.setFlC b).herr = s.herr := rfl
@[simp] theorem State.setFlC_nlimbs (s : State) (b : Bool) : (s.setFlC b).nlimbs = s.nlimbs := rfl
@[simp] theorem State.setFlC_modp (s : State) (b : Bool) : (s.setFlC b).modp = s.modp := rfl
@[simp] theorem State.setFlC_pinv (s : State) (b : Bool) : (s.setFlC b).pinv = s.pinv := rfl
@[simp] theorem State.setFlC_rsq (s : State) (b : Bool) : (s.setFlC b).rsq = s.rsq := rfl
@[simp] theorem State.setFlC_rone (s : State) (b : Bool) : (s.setFlC b).rone = s.rone := rfl
@[simp] theorem State.setFlC_cfgstat (s : State) (b : Bool) : (s.setFlC b).cfgstat = s.cfgstat := rfl
@[simp] theorem State.setFlC_fault (s : State) (b : Bool) : (s.setFlC b).fault = s.fault := rfl
@[simp] theorem State.setFlC_irqenDone (s : State) (b : Bool) : (s.setFlC b).irqenDone = s.irqenDone := rfl
@[simp] theorem State.setFlC_irqenErr (s : State) (b : Bool) : (s.setFlC b).irqenErr = s.irqenErr := rfl
@[simp] theorem State.setFlC_irqpendDone (s : State) (b : Bool) : (s.setFlC b).irqpendDone = s.irqpendDone := rfl
@[simp] theorem State.setFlC_irqpendErr (s : State) (b : Bool) : (s.setFlC b).irqpendErr = s.irqpendErr := rfl
@[simp] theorem State.setFlC_instret (s : State) (b : Bool) : (s.setFlC b).instret = s.instret := rfl
@[simp] theorem State.setFlC_kst (s : State) (b : Bool) : (s.setFlC b).kst = s.kst := rfl
@[simp] theorem State.setFlC_mem (s : State) (b : Bool) : (s.setFlC b).mem = s.mem := rfl
@[simp] theorem State.setFlC_params (s : State) (b : Bool) : (s.setFlC b).params = s.params := rfl
@[simp] theorem State.setFlC_epoch (s : State) (b : Bool) : (s.setFlC b).epoch = s.epoch := rfl
@[simp] theorem State.setFlC_freeCtr (s : State) (b : Bool) : (s.setFlC b).freeCtr = s.freeCtr := rfl
@[simp] theorem State.setFlC_bus (s : State) (b : Bool) : (s.setFlC b).bus = s.bus := rfl
@[simp] theorem State.setFlC_rdata (s : State) (b : Bool) : (s.setFlC b).rdata = s.rdata := rfl

/-! ### setFlEq -/

@[simp] theorem State.setFlEq_e (s : State) (b : Bool) : (s.setFlEq b).e = s.e := rfl
@[simp] theorem State.setFlEq_c (s : State) (b : Bool) : (s.setFlEq b).c = s.c := rfl
@[simp] theorem State.setFlEq_flC (s : State) (b : Bool) : (s.setFlEq b).flC = s.flC := rfl
@[simp] theorem State.setFlEq_flEq (s : State) (b : Bool) : (s.setFlEq b).flEq = b := rfl
@[simp] theorem State.setFlEq_flLt (s : State) (b : Bool) : (s.setFlEq b).flLt = s.flLt := rfl
@[simp] theorem State.setFlEq_pc (s : State) (b : Bool) : (s.setFlEq b).pc = s.pc := rfl
@[simp] theorem State.setFlEq_seq (s : State) (b : Bool) : (s.setFlEq b).seq = s.seq := rfl
@[simp] theorem State.setFlEq_stepPending (s : State) (b : Bool) : (s.setFlEq b).stepPending = s.stepPending := rfl
@[simp] theorem State.setFlEq_haltRequested (s : State) (b : Bool) : (s.setFlEq b).haltRequested = s.haltRequested := rfl
@[simp] theorem State.setFlEq_cfgok (s : State) (b : Bool) : (s.setFlEq b).cfgok = s.cfgok := rfl
@[simp] theorem State.setFlEq_herr (s : State) (b : Bool) : (s.setFlEq b).herr = s.herr := rfl
@[simp] theorem State.setFlEq_nlimbs (s : State) (b : Bool) : (s.setFlEq b).nlimbs = s.nlimbs := rfl
@[simp] theorem State.setFlEq_modp (s : State) (b : Bool) : (s.setFlEq b).modp = s.modp := rfl
@[simp] theorem State.setFlEq_pinv (s : State) (b : Bool) : (s.setFlEq b).pinv = s.pinv := rfl
@[simp] theorem State.setFlEq_rsq (s : State) (b : Bool) : (s.setFlEq b).rsq = s.rsq := rfl
@[simp] theorem State.setFlEq_rone (s : State) (b : Bool) : (s.setFlEq b).rone = s.rone := rfl
@[simp] theorem State.setFlEq_cfgstat (s : State) (b : Bool) : (s.setFlEq b).cfgstat = s.cfgstat := rfl
@[simp] theorem State.setFlEq_fault (s : State) (b : Bool) : (s.setFlEq b).fault = s.fault := rfl
@[simp] theorem State.setFlEq_irqenDone (s : State) (b : Bool) : (s.setFlEq b).irqenDone = s.irqenDone := rfl
@[simp] theorem State.setFlEq_irqenErr (s : State) (b : Bool) : (s.setFlEq b).irqenErr = s.irqenErr := rfl
@[simp] theorem State.setFlEq_irqpendDone (s : State) (b : Bool) : (s.setFlEq b).irqpendDone = s.irqpendDone := rfl
@[simp] theorem State.setFlEq_irqpendErr (s : State) (b : Bool) : (s.setFlEq b).irqpendErr = s.irqpendErr := rfl
@[simp] theorem State.setFlEq_instret (s : State) (b : Bool) : (s.setFlEq b).instret = s.instret := rfl
@[simp] theorem State.setFlEq_kst (s : State) (b : Bool) : (s.setFlEq b).kst = s.kst := rfl
@[simp] theorem State.setFlEq_mem (s : State) (b : Bool) : (s.setFlEq b).mem = s.mem := rfl
@[simp] theorem State.setFlEq_params (s : State) (b : Bool) : (s.setFlEq b).params = s.params := rfl
@[simp] theorem State.setFlEq_epoch (s : State) (b : Bool) : (s.setFlEq b).epoch = s.epoch := rfl
@[simp] theorem State.setFlEq_freeCtr (s : State) (b : Bool) : (s.setFlEq b).freeCtr = s.freeCtr := rfl
@[simp] theorem State.setFlEq_bus (s : State) (b : Bool) : (s.setFlEq b).bus = s.bus := rfl
@[simp] theorem State.setFlEq_rdata (s : State) (b : Bool) : (s.setFlEq b).rdata = s.rdata := rfl

/-! ### setComparison -/

@[simp] theorem State.setComparison_e (s : State) (a b : Nat) : (s.setComparison a b).e = s.e := rfl
@[simp] theorem State.setComparison_c (s : State) (a b : Nat) : (s.setComparison a b).c = s.c := rfl
@[simp] theorem State.setComparison_flC (s : State) (a b : Nat) : (s.setComparison a b).flC = s.flC := rfl
@[simp] theorem State.setComparison_flEq (s : State) (a b : Nat) : (s.setComparison a b).flEq = decide (a = b) := rfl
@[simp] theorem State.setComparison_flLt (s : State) (a b : Nat) : (s.setComparison a b).flLt = decide (a < b) := rfl
@[simp] theorem State.setComparison_pc (s : State) (a b : Nat) : (s.setComparison a b).pc = s.pc := rfl
@[simp] theorem State.setComparison_seq (s : State) (a b : Nat) : (s.setComparison a b).seq = s.seq := rfl
@[simp] theorem State.setComparison_stepPending (s : State) (a b : Nat) : (s.setComparison a b).stepPending = s.stepPending := rfl
@[simp] theorem State.setComparison_haltRequested (s : State) (a b : Nat) : (s.setComparison a b).haltRequested = s.haltRequested := rfl
@[simp] theorem State.setComparison_cfgok (s : State) (a b : Nat) : (s.setComparison a b).cfgok = s.cfgok := rfl
@[simp] theorem State.setComparison_herr (s : State) (a b : Nat) : (s.setComparison a b).herr = s.herr := rfl
@[simp] theorem State.setComparison_nlimbs (s : State) (a b : Nat) : (s.setComparison a b).nlimbs = s.nlimbs := rfl
@[simp] theorem State.setComparison_modp (s : State) (a b : Nat) : (s.setComparison a b).modp = s.modp := rfl
@[simp] theorem State.setComparison_pinv (s : State) (a b : Nat) : (s.setComparison a b).pinv = s.pinv := rfl
@[simp] theorem State.setComparison_rsq (s : State) (a b : Nat) : (s.setComparison a b).rsq = s.rsq := rfl
@[simp] theorem State.setComparison_rone (s : State) (a b : Nat) : (s.setComparison a b).rone = s.rone := rfl
@[simp] theorem State.setComparison_cfgstat (s : State) (a b : Nat) : (s.setComparison a b).cfgstat = s.cfgstat := rfl
@[simp] theorem State.setComparison_fault (s : State) (a b : Nat) : (s.setComparison a b).fault = s.fault := rfl
@[simp] theorem State.setComparison_irqenDone (s : State) (a b : Nat) : (s.setComparison a b).irqenDone = s.irqenDone := rfl
@[simp] theorem State.setComparison_irqenErr (s : State) (a b : Nat) : (s.setComparison a b).irqenErr = s.irqenErr := rfl
@[simp] theorem State.setComparison_irqpendDone (s : State) (a b : Nat) : (s.setComparison a b).irqpendDone = s.irqpendDone := rfl
@[simp] theorem State.setComparison_irqpendErr (s : State) (a b : Nat) : (s.setComparison a b).irqpendErr = s.irqpendErr := rfl
@[simp] theorem State.setComparison_instret (s : State) (a b : Nat) : (s.setComparison a b).instret = s.instret := rfl
@[simp] theorem State.setComparison_kst (s : State) (a b : Nat) : (s.setComparison a b).kst = s.kst := rfl
@[simp] theorem State.setComparison_mem (s : State) (a b : Nat) : (s.setComparison a b).mem = s.mem := rfl
@[simp] theorem State.setComparison_params (s : State) (a b : Nat) : (s.setComparison a b).params = s.params := rfl
@[simp] theorem State.setComparison_epoch (s : State) (a b : Nat) : (s.setComparison a b).epoch = s.epoch := rfl
@[simp] theorem State.setComparison_freeCtr (s : State) (a b : Nat) : (s.setComparison a b).freeCtr = s.freeCtr := rfl
@[simp] theorem State.setComparison_bus (s : State) (a b : Nat) : (s.setComparison a b).bus = s.bus := rfl
@[simp] theorem State.setComparison_rdata (s : State) (a b : Nat) : (s.setComparison a b).rdata = s.rdata := rfl

/-! ### storeBytes -/

@[simp] theorem State.storeBytes_e (s : State) (a : Nat) (bs : List Byte) : (s.storeBytes a bs).e = s.e := rfl
@[simp] theorem State.storeBytes_c (s : State) (a : Nat) (bs : List Byte) : (s.storeBytes a bs).c = s.c := rfl
@[simp] theorem State.storeBytes_flC (s : State) (a : Nat) (bs : List Byte) : (s.storeBytes a bs).flC = s.flC := rfl
@[simp] theorem State.storeBytes_flEq (s : State) (a : Nat) (bs : List Byte) : (s.storeBytes a bs).flEq = s.flEq := rfl
@[simp] theorem State.storeBytes_flLt (s : State) (a : Nat) (bs : List Byte) : (s.storeBytes a bs).flLt = s.flLt := rfl
@[simp] theorem State.storeBytes_pc (s : State) (a : Nat) (bs : List Byte) : (s.storeBytes a bs).pc = s.pc := rfl
@[simp] theorem State.storeBytes_seq (s : State) (a : Nat) (bs : List Byte) : (s.storeBytes a bs).seq = s.seq := rfl
@[simp] theorem State.storeBytes_stepPending (s : State) (a : Nat) (bs : List Byte) : (s.storeBytes a bs).stepPending = s.stepPending := rfl
@[simp] theorem State.storeBytes_haltRequested (s : State) (a : Nat) (bs : List Byte) : (s.storeBytes a bs).haltRequested = s.haltRequested := rfl
@[simp] theorem State.storeBytes_cfgok (s : State) (a : Nat) (bs : List Byte) : (s.storeBytes a bs).cfgok = s.cfgok := rfl
@[simp] theorem State.storeBytes_herr (s : State) (a : Nat) (bs : List Byte) : (s.storeBytes a bs).herr = s.herr := rfl
@[simp] theorem State.storeBytes_nlimbs (s : State) (a : Nat) (bs : List Byte) : (s.storeBytes a bs).nlimbs = s.nlimbs := rfl
@[simp] theorem State.storeBytes_modp (s : State) (a : Nat) (bs : List Byte) : (s.storeBytes a bs).modp = s.modp := rfl
@[simp] theorem State.storeBytes_pinv (s : State) (a : Nat) (bs : List Byte) : (s.storeBytes a bs).pinv = s.pinv := rfl
@[simp] theorem State.storeBytes_rsq (s : State) (a : Nat) (bs : List Byte) : (s.storeBytes a bs).rsq = s.rsq := rfl
@[simp] theorem State.storeBytes_rone (s : State) (a : Nat) (bs : List Byte) : (s.storeBytes a bs).rone = s.rone := rfl
@[simp] theorem State.storeBytes_cfgstat (s : State) (a : Nat) (bs : List Byte) : (s.storeBytes a bs).cfgstat = s.cfgstat := rfl
@[simp] theorem State.storeBytes_fault (s : State) (a : Nat) (bs : List Byte) : (s.storeBytes a bs).fault = s.fault := rfl
@[simp] theorem State.storeBytes_irqenDone (s : State) (a : Nat) (bs : List Byte) : (s.storeBytes a bs).irqenDone = s.irqenDone := rfl
@[simp] theorem State.storeBytes_irqenErr (s : State) (a : Nat) (bs : List Byte) : (s.storeBytes a bs).irqenErr = s.irqenErr := rfl
@[simp] theorem State.storeBytes_irqpendDone (s : State) (a : Nat) (bs : List Byte) : (s.storeBytes a bs).irqpendDone = s.irqpendDone := rfl
@[simp] theorem State.storeBytes_irqpendErr (s : State) (a : Nat) (bs : List Byte) : (s.storeBytes a bs).irqpendErr = s.irqpendErr := rfl
@[simp] theorem State.storeBytes_instret (s : State) (a : Nat) (bs : List Byte) : (s.storeBytes a bs).instret = s.instret := rfl
@[simp] theorem State.storeBytes_kst (s : State) (a : Nat) (bs : List Byte) : (s.storeBytes a bs).kst = s.kst := rfl
@[simp] theorem State.storeBytes_mem (s : State) (a : Nat) (bs : List Byte) : (s.storeBytes a bs).mem = s.mem.store a bs := rfl
@[simp] theorem State.storeBytes_params (s : State) (a : Nat) (bs : List Byte) : (s.storeBytes a bs).params = s.params := rfl
@[simp] theorem State.storeBytes_epoch (s : State) (a : Nat) (bs : List Byte) : (s.storeBytes a bs).epoch = s.epoch := rfl
@[simp] theorem State.storeBytes_freeCtr (s : State) (a : Nat) (bs : List Byte) : (s.storeBytes a bs).freeCtr = s.freeCtr := rfl
@[simp] theorem State.storeBytes_bus (s : State) (a : Nat) (bs : List Byte) : (s.storeBytes a bs).bus = s.bus := rfl
@[simp] theorem State.storeBytes_rdata (s : State) (a : Nat) (bs : List Byte) : (s.storeBytes a bs).rdata = s.rdata := rfl

/-! ### takeFault -/

@[simp] theorem State.takeFault_e (s : State) (k : Cause) (x : Nat) (w : InsnWord) : (s.takeFault k x w).e = s.e := rfl
@[simp] theorem State.takeFault_c (s : State) (k : Cause) (x : Nat) (w : InsnWord) : (s.takeFault k x w).c = s.c := rfl
@[simp] theorem State.takeFault_flC (s : State) (k : Cause) (x : Nat) (w : InsnWord) : (s.takeFault k x w).flC = s.flC := rfl
@[simp] theorem State.takeFault_flEq (s : State) (k : Cause) (x : Nat) (w : InsnWord) : (s.takeFault k x w).flEq = s.flEq := rfl
@[simp] theorem State.takeFault_flLt (s : State) (k : Cause) (x : Nat) (w : InsnWord) : (s.takeFault k x w).flLt = s.flLt := rfl
@[simp] theorem State.takeFault_pc (s : State) (k : Cause) (x : Nat) (w : InsnWord) : (s.takeFault k x w).pc = s.pc := rfl
@[simp] theorem State.takeFault_seq (s : State) (k : Cause) (x : Nat) (w : InsnWord) : (s.takeFault k x w).seq = .error := rfl
@[simp] theorem State.takeFault_stepPending (s : State) (k : Cause) (x : Nat) (w : InsnWord) : (s.takeFault k x w).stepPending = false := rfl
@[simp] theorem State.takeFault_haltRequested (s : State) (k : Cause) (x : Nat) (w : InsnWord) : (s.takeFault k x w).haltRequested = false := rfl
@[simp] theorem State.takeFault_cfgok (s : State) (k : Cause) (x : Nat) (w : InsnWord) : (s.takeFault k x w).cfgok = s.cfgok := rfl
@[simp] theorem State.takeFault_herr (s : State) (k : Cause) (x : Nat) (w : InsnWord) : (s.takeFault k x w).herr = s.herr := rfl
@[simp] theorem State.takeFault_nlimbs (s : State) (k : Cause) (x : Nat) (w : InsnWord) : (s.takeFault k x w).nlimbs = s.nlimbs := rfl
@[simp] theorem State.takeFault_modp (s : State) (k : Cause) (x : Nat) (w : InsnWord) : (s.takeFault k x w).modp = s.modp := rfl
@[simp] theorem State.takeFault_pinv (s : State) (k : Cause) (x : Nat) (w : InsnWord) : (s.takeFault k x w).pinv = s.pinv := rfl
@[simp] theorem State.takeFault_rsq (s : State) (k : Cause) (x : Nat) (w : InsnWord) : (s.takeFault k x w).rsq = s.rsq := rfl
@[simp] theorem State.takeFault_rone (s : State) (k : Cause) (x : Nat) (w : InsnWord) : (s.takeFault k x w).rone = s.rone := rfl
@[simp] theorem State.takeFault_cfgstat (s : State) (k : Cause) (x : Nat) (w : InsnWord) : (s.takeFault k x w).cfgstat = s.cfgstat := rfl
@[simp] theorem State.takeFault_fault (s : State) (k : Cause) (x : Nat) (w : InsnWord) : (s.takeFault k x w).fault = { cause := BitVec.ofNat 8 k.code, epc := s.pc, einfo := BitVec.ofNat 32 x, insn := w } := rfl
@[simp] theorem State.takeFault_irqenDone (s : State) (k : Cause) (x : Nat) (w : InsnWord) : (s.takeFault k x w).irqenDone = s.irqenDone := rfl
@[simp] theorem State.takeFault_irqenErr (s : State) (k : Cause) (x : Nat) (w : InsnWord) : (s.takeFault k x w).irqenErr = s.irqenErr := rfl
@[simp] theorem State.takeFault_irqpendDone (s : State) (k : Cause) (x : Nat) (w : InsnWord) : (s.takeFault k x w).irqpendDone = s.irqpendDone := rfl
@[simp] theorem State.takeFault_irqpendErr (s : State) (k : Cause) (x : Nat) (w : InsnWord) : (s.takeFault k x w).irqpendErr = true := rfl
@[simp] theorem State.takeFault_instret (s : State) (k : Cause) (x : Nat) (w : InsnWord) : (s.takeFault k x w).instret = s.instret := rfl
@[simp] theorem State.takeFault_kst (s : State) (k : Cause) (x : Nat) (w : InsnWord) : (s.takeFault k x w).kst = s.kst := rfl
@[simp] theorem State.takeFault_mem (s : State) (k : Cause) (x : Nat) (w : InsnWord) : (s.takeFault k x w).mem = s.mem := rfl
@[simp] theorem State.takeFault_params (s : State) (k : Cause) (x : Nat) (w : InsnWord) : (s.takeFault k x w).params = s.params := rfl
@[simp] theorem State.takeFault_epoch (s : State) (k : Cause) (x : Nat) (w : InsnWord) : (s.takeFault k x w).epoch = s.epoch := rfl
@[simp] theorem State.takeFault_freeCtr (s : State) (k : Cause) (x : Nat) (w : InsnWord) : (s.takeFault k x w).freeCtr = s.freeCtr := rfl
@[simp] theorem State.takeFault_bus (s : State) (k : Cause) (x : Nat) (w : InsnWord) : (s.takeFault k x w).bus = s.bus := rfl
@[simp] theorem State.takeFault_rdata (s : State) (k : Cause) (x : Nat) (w : InsnWord) : (s.takeFault k x w).rdata = s.rdata := rfl

/-! ### start -/

@[simp] theorem State.start_e (s : State) : (s.start).e = s.e := rfl
@[simp] theorem State.start_c (s : State) : (s.start).c = s.c := rfl
@[simp] theorem State.start_flC (s : State) : (s.start).flC = s.flC := rfl
@[simp] theorem State.start_flEq (s : State) : (s.start).flEq = s.flEq := rfl
@[simp] theorem State.start_flLt (s : State) : (s.start).flLt = s.flLt := rfl
@[simp] theorem State.start_pc (s : State) : (s.start).pc = s.pc := rfl
@[simp] theorem State.start_seq (s : State) : (s.start).seq = .running := rfl
@[simp] theorem State.start_stepPending (s : State) : (s.start).stepPending = s.stepPending := rfl
@[simp] theorem State.start_haltRequested (s : State) : (s.start).haltRequested = s.haltRequested := rfl
@[simp] theorem State.start_cfgok (s : State) : (s.start).cfgok = s.cfgok := rfl
@[simp] theorem State.start_herr (s : State) : (s.start).herr = s.herr := rfl
@[simp] theorem State.start_nlimbs (s : State) : (s.start).nlimbs = s.nlimbs := rfl
@[simp] theorem State.start_modp (s : State) : (s.start).modp = s.modp := rfl
@[simp] theorem State.start_pinv (s : State) : (s.start).pinv = s.pinv := rfl
@[simp] theorem State.start_rsq (s : State) : (s.start).rsq = s.rsq := rfl
@[simp] theorem State.start_rone (s : State) : (s.start).rone = s.rone := rfl
@[simp] theorem State.start_cfgstat (s : State) : (s.start).cfgstat = s.cfgstat := rfl
@[simp] theorem State.start_fault (s : State) : (s.start).fault = { cause := 0, epc := 0, einfo := 0, insn := 0 } := rfl
@[simp] theorem State.start_irqenDone (s : State) : (s.start).irqenDone = s.irqenDone := rfl
@[simp] theorem State.start_irqenErr (s : State) : (s.start).irqenErr = s.irqenErr := rfl
@[simp] theorem State.start_irqpendDone (s : State) : (s.start).irqpendDone = s.irqpendDone := rfl
@[simp] theorem State.start_irqpendErr (s : State) : (s.start).irqpendErr = s.irqpendErr := rfl
@[simp] theorem State.start_instret (s : State) : (s.start).instret = s.instret := rfl
@[simp] theorem State.start_kst (s : State) : (s.start).kst = s.kst := rfl
@[simp] theorem State.start_mem (s : State) : (s.start).mem = s.mem := rfl
@[simp] theorem State.start_params (s : State) : (s.start).params = s.params := rfl
@[simp] theorem State.start_epoch (s : State) : (s.start).epoch = s.epoch := rfl
@[simp] theorem State.start_freeCtr (s : State) : (s.start).freeCtr = s.freeCtr := rfl
@[simp] theorem State.start_bus (s : State) : (s.start).bus = s.bus := rfl
@[simp] theorem State.start_rdata (s : State) : (s.start).rdata = s.rdata := rfl

/-! ### startStep -/

@[simp] theorem State.startStep_e (s : State) : (s.startStep).e = s.e := rfl
@[simp] theorem State.startStep_c (s : State) : (s.startStep).c = s.c := rfl
@[simp] theorem State.startStep_flC (s : State) : (s.startStep).flC = s.flC := rfl
@[simp] theorem State.startStep_flEq (s : State) : (s.startStep).flEq = s.flEq := rfl
@[simp] theorem State.startStep_flLt (s : State) : (s.startStep).flLt = s.flLt := rfl
@[simp] theorem State.startStep_pc (s : State) : (s.startStep).pc = s.pc := rfl
@[simp] theorem State.startStep_seq (s : State) : (s.startStep).seq = .running := rfl
@[simp] theorem State.startStep_stepPending (s : State) : (s.startStep).stepPending = true := rfl
@[simp] theorem State.startStep_haltRequested (s : State) : (s.startStep).haltRequested = s.haltRequested := rfl
@[simp] theorem State.startStep_cfgok (s : State) : (s.startStep).cfgok = s.cfgok := rfl
@[simp] theorem State.startStep_herr (s : State) : (s.startStep).herr = s.herr := rfl
@[simp] theorem State.startStep_nlimbs (s : State) : (s.startStep).nlimbs = s.nlimbs := rfl
@[simp] theorem State.startStep_modp (s : State) : (s.startStep).modp = s.modp := rfl
@[simp] theorem State.startStep_pinv (s : State) : (s.startStep).pinv = s.pinv := rfl
@[simp] theorem State.startStep_rsq (s : State) : (s.startStep).rsq = s.rsq := rfl
@[simp] theorem State.startStep_rone (s : State) : (s.startStep).rone = s.rone := rfl
@[simp] theorem State.startStep_cfgstat (s : State) : (s.startStep).cfgstat = s.cfgstat := rfl
@[simp] theorem State.startStep_fault (s : State) : (s.startStep).fault = { cause := 0, epc := 0, einfo := 0, insn := 0 } := rfl
@[simp] theorem State.startStep_irqenDone (s : State) : (s.startStep).irqenDone = s.irqenDone := rfl
@[simp] theorem State.startStep_irqenErr (s : State) : (s.startStep).irqenErr = s.irqenErr := rfl
@[simp] theorem State.startStep_irqpendDone (s : State) : (s.startStep).irqpendDone = s.irqpendDone := rfl
@[simp] theorem State.startStep_irqpendErr (s : State) : (s.startStep).irqpendErr = s.irqpendErr := rfl
@[simp] theorem State.startStep_instret (s : State) : (s.startStep).instret = s.instret := rfl
@[simp] theorem State.startStep_kst (s : State) : (s.startStep).kst = s.kst := rfl
@[simp] theorem State.startStep_mem (s : State) : (s.startStep).mem = s.mem := rfl
@[simp] theorem State.startStep_params (s : State) : (s.startStep).params = s.params := rfl
@[simp] theorem State.startStep_epoch (s : State) : (s.startStep).epoch = s.epoch := rfl
@[simp] theorem State.startStep_freeCtr (s : State) : (s.startStep).freeCtr = s.freeCtr := rfl
@[simp] theorem State.startStep_bus (s : State) : (s.startStep).bus = s.bus := rfl
@[simp] theorem State.startStep_rdata (s : State) : (s.startStep).rdata = s.rdata := rfl

/-! ### refuse -/

@[simp] theorem State.refuse_e (s : State) : (s.refuse).e = s.e := rfl
@[simp] theorem State.refuse_c (s : State) : (s.refuse).c = s.c := rfl
@[simp] theorem State.refuse_flC (s : State) : (s.refuse).flC = s.flC := rfl
@[simp] theorem State.refuse_flEq (s : State) : (s.refuse).flEq = s.flEq := rfl
@[simp] theorem State.refuse_flLt (s : State) : (s.refuse).flLt = s.flLt := rfl
@[simp] theorem State.refuse_pc (s : State) : (s.refuse).pc = s.pc := rfl
@[simp] theorem State.refuse_seq (s : State) : (s.refuse).seq = s.seq := rfl
@[simp] theorem State.refuse_stepPending (s : State) : (s.refuse).stepPending = s.stepPending := rfl
@[simp] theorem State.refuse_haltRequested (s : State) : (s.refuse).haltRequested = s.haltRequested := rfl
@[simp] theorem State.refuse_cfgok (s : State) : (s.refuse).cfgok = s.cfgok := rfl
@[simp] theorem State.refuse_herr (s : State) : (s.refuse).herr = true := rfl
@[simp] theorem State.refuse_nlimbs (s : State) : (s.refuse).nlimbs = s.nlimbs := rfl
@[simp] theorem State.refuse_modp (s : State) : (s.refuse).modp = s.modp := rfl
@[simp] theorem State.refuse_pinv (s : State) : (s.refuse).pinv = s.pinv := rfl
@[simp] theorem State.refuse_rsq (s : State) : (s.refuse).rsq = s.rsq := rfl
@[simp] theorem State.refuse_rone (s : State) : (s.refuse).rone = s.rone := rfl
@[simp] theorem State.refuse_cfgstat (s : State) : (s.refuse).cfgstat = s.cfgstat := rfl
@[simp] theorem State.refuse_fault (s : State) : (s.refuse).fault = s.fault := rfl
@[simp] theorem State.refuse_irqenDone (s : State) : (s.refuse).irqenDone = s.irqenDone := rfl
@[simp] theorem State.refuse_irqenErr (s : State) : (s.refuse).irqenErr = s.irqenErr := rfl
@[simp] theorem State.refuse_irqpendDone (s : State) : (s.refuse).irqpendDone = s.irqpendDone := rfl
@[simp] theorem State.refuse_irqpendErr (s : State) : (s.refuse).irqpendErr = s.irqpendErr := rfl
@[simp] theorem State.refuse_instret (s : State) : (s.refuse).instret = s.instret := rfl
@[simp] theorem State.refuse_kst (s : State) : (s.refuse).kst = s.kst := rfl
@[simp] theorem State.refuse_mem (s : State) : (s.refuse).mem = s.mem := rfl
@[simp] theorem State.refuse_params (s : State) : (s.refuse).params = s.params := rfl
@[simp] theorem State.refuse_epoch (s : State) : (s.refuse).epoch = s.epoch := rfl
@[simp] theorem State.refuse_freeCtr (s : State) : (s.refuse).freeCtr = s.freeCtr := rfl
@[simp] theorem State.refuse_bus (s : State) : (s.refuse).bus = s.bus := rfl
@[simp] theorem State.refuse_rdata (s : State) : (s.refuse).rdata = s.rdata := rfl

/-! ### unconfigure -/

@[simp] theorem State.unconfigure_e (s : State) : (s.unconfigure).e = s.e := rfl
@[simp] theorem State.unconfigure_c (s : State) : (s.unconfigure).c = s.c := rfl
@[simp] theorem State.unconfigure_flC (s : State) : (s.unconfigure).flC = s.flC := rfl
@[simp] theorem State.unconfigure_flEq (s : State) : (s.unconfigure).flEq = s.flEq := rfl
@[simp] theorem State.unconfigure_flLt (s : State) : (s.unconfigure).flLt = s.flLt := rfl
@[simp] theorem State.unconfigure_pc (s : State) : (s.unconfigure).pc = s.pc := rfl
@[simp] theorem State.unconfigure_seq (s : State) : (s.unconfigure).seq = s.seq := rfl
@[simp] theorem State.unconfigure_stepPending (s : State) : (s.unconfigure).stepPending = s.stepPending := rfl
@[simp] theorem State.unconfigure_haltRequested (s : State) : (s.unconfigure).haltRequested = s.haltRequested := rfl
@[simp] theorem State.unconfigure_cfgok (s : State) : (s.unconfigure).cfgok = false := rfl
@[simp] theorem State.unconfigure_herr (s : State) : (s.unconfigure).herr = s.herr := rfl
@[simp] theorem State.unconfigure_nlimbs (s : State) : (s.unconfigure).nlimbs = s.nlimbs := rfl
@[simp] theorem State.unconfigure_modp (s : State) : (s.unconfigure).modp = s.modp := rfl
@[simp] theorem State.unconfigure_pinv (s : State) : (s.unconfigure).pinv = s.pinv := rfl
@[simp] theorem State.unconfigure_rsq (s : State) : (s.unconfigure).rsq = s.rsq := rfl
@[simp] theorem State.unconfigure_rone (s : State) : (s.unconfigure).rone = s.rone := rfl
@[simp] theorem State.unconfigure_cfgstat (s : State) : (s.unconfigure).cfgstat = { badEven := false, badSmall := false, badWide := false } := rfl
@[simp] theorem State.unconfigure_fault (s : State) : (s.unconfigure).fault = s.fault := rfl
@[simp] theorem State.unconfigure_irqenDone (s : State) : (s.unconfigure).irqenDone = s.irqenDone := rfl
@[simp] theorem State.unconfigure_irqenErr (s : State) : (s.unconfigure).irqenErr = s.irqenErr := rfl
@[simp] theorem State.unconfigure_irqpendDone (s : State) : (s.unconfigure).irqpendDone = s.irqpendDone := rfl
@[simp] theorem State.unconfigure_irqpendErr (s : State) : (s.unconfigure).irqpendErr = s.irqpendErr := rfl
@[simp] theorem State.unconfigure_instret (s : State) : (s.unconfigure).instret = s.instret := rfl
@[simp] theorem State.unconfigure_kst (s : State) : (s.unconfigure).kst = s.kst := rfl
@[simp] theorem State.unconfigure_mem (s : State) : (s.unconfigure).mem = s.mem := rfl
@[simp] theorem State.unconfigure_params (s : State) : (s.unconfigure).params = s.params := rfl
@[simp] theorem State.unconfigure_epoch (s : State) : (s.unconfigure).epoch = s.epoch := rfl
@[simp] theorem State.unconfigure_freeCtr (s : State) : (s.unconfigure).freeCtr = s.freeCtr := rfl
@[simp] theorem State.unconfigure_bus (s : State) : (s.unconfigure).bus = s.bus := rfl
@[simp] theorem State.unconfigure_rdata (s : State) : (s.unconfigure).rdata = s.rdata := rfl

/-! ### tick -/

@[simp] theorem State.tick_e (s : State) : (s.tick).e = s.e := rfl
@[simp] theorem State.tick_c (s : State) : (s.tick).c = s.c := rfl
@[simp] theorem State.tick_flC (s : State) : (s.tick).flC = s.flC := rfl
@[simp] theorem State.tick_flEq (s : State) : (s.tick).flEq = s.flEq := rfl
@[simp] theorem State.tick_flLt (s : State) : (s.tick).flLt = s.flLt := rfl
@[simp] theorem State.tick_pc (s : State) : (s.tick).pc = s.pc := rfl
@[simp] theorem State.tick_seq (s : State) : (s.tick).seq = s.seq := rfl
@[simp] theorem State.tick_stepPending (s : State) : (s.tick).stepPending = s.stepPending := rfl
@[simp] theorem State.tick_haltRequested (s : State) : (s.tick).haltRequested = s.haltRequested := rfl
@[simp] theorem State.tick_cfgok (s : State) : (s.tick).cfgok = s.cfgok := rfl
@[simp] theorem State.tick_herr (s : State) : (s.tick).herr = s.herr := rfl
@[simp] theorem State.tick_nlimbs (s : State) : (s.tick).nlimbs = s.nlimbs := rfl
@[simp] theorem State.tick_modp (s : State) : (s.tick).modp = s.modp := rfl
@[simp] theorem State.tick_pinv (s : State) : (s.tick).pinv = s.pinv := rfl
@[simp] theorem State.tick_rsq (s : State) : (s.tick).rsq = s.rsq := rfl
@[simp] theorem State.tick_rone (s : State) : (s.tick).rone = s.rone := rfl
@[simp] theorem State.tick_cfgstat (s : State) : (s.tick).cfgstat = s.cfgstat := rfl
@[simp] theorem State.tick_fault (s : State) : (s.tick).fault = s.fault := rfl
@[simp] theorem State.tick_irqenDone (s : State) : (s.tick).irqenDone = s.irqenDone := rfl
@[simp] theorem State.tick_irqenErr (s : State) : (s.tick).irqenErr = s.irqenErr := rfl
@[simp] theorem State.tick_irqpendDone (s : State) : (s.tick).irqpendDone = s.irqpendDone := rfl
@[simp] theorem State.tick_irqpendErr (s : State) : (s.tick).irqpendErr = s.irqpendErr := rfl
@[simp] theorem State.tick_instret (s : State) : (s.tick).instret = s.instret := rfl
@[simp] theorem State.tick_kst (s : State) : (s.tick).kst = s.kst := rfl
@[simp] theorem State.tick_mem (s : State) : (s.tick).mem = s.mem := rfl
@[simp] theorem State.tick_params (s : State) : (s.tick).params = s.params := rfl
@[simp] theorem State.tick_epoch (s : State) : (s.tick).epoch = s.epoch := rfl
@[simp] theorem State.tick_freeCtr (s : State) : (s.tick).freeCtr = s.freeCtr := rfl
@[simp] theorem State.tick_rdata (s : State) : (s.tick).rdata = s.rdata := rfl

/-! ### retired -/

@[simp] theorem State.retired_e (s : State) (q : Half) : (s.retired q).e = s.e := rfl
@[simp] theorem State.retired_c (s : State) (q : Half) : (s.retired q).c = s.c := rfl
@[simp] theorem State.retired_flC (s : State) (q : Half) : (s.retired q).flC = s.flC := rfl
@[simp] theorem State.retired_flEq (s : State) (q : Half) : (s.retired q).flEq = s.flEq := rfl
@[simp] theorem State.retired_flLt (s : State) (q : Half) : (s.retired q).flLt = s.flLt := rfl
@[simp] theorem State.retired_pc (s : State) (q : Half) : (s.retired q).pc = q := rfl
@[simp] theorem State.retired_seq (s : State) (q : Half) : (s.retired q).seq = if s.stepPending || s.haltRequested then .idle else s.seq := rfl
@[simp] theorem State.retired_stepPending (s : State) (q : Half) : (s.retired q).stepPending = false := rfl
@[simp] theorem State.retired_haltRequested (s : State) (q : Half) : (s.retired q).haltRequested = false := rfl
@[simp] theorem State.retired_cfgok (s : State) (q : Half) : (s.retired q).cfgok = s.cfgok := rfl
@[simp] theorem State.retired_herr (s : State) (q : Half) : (s.retired q).herr = s.herr := rfl
@[simp] theorem State.retired_nlimbs (s : State) (q : Half) : (s.retired q).nlimbs = s.nlimbs := rfl
@[simp] theorem State.retired_modp (s : State) (q : Half) : (s.retired q).modp = s.modp := rfl
@[simp] theorem State.retired_pinv (s : State) (q : Half) : (s.retired q).pinv = s.pinv := rfl
@[simp] theorem State.retired_rsq (s : State) (q : Half) : (s.retired q).rsq = s.rsq := rfl
@[simp] theorem State.retired_rone (s : State) (q : Half) : (s.retired q).rone = s.rone := rfl
@[simp] theorem State.retired_cfgstat (s : State) (q : Half) : (s.retired q).cfgstat = s.cfgstat := rfl
@[simp] theorem State.retired_fault (s : State) (q : Half) : (s.retired q).fault = s.fault := rfl
@[simp] theorem State.retired_irqenDone (s : State) (q : Half) : (s.retired q).irqenDone = s.irqenDone := rfl
@[simp] theorem State.retired_irqenErr (s : State) (q : Half) : (s.retired q).irqenErr = s.irqenErr := rfl
@[simp] theorem State.retired_irqpendDone (s : State) (q : Half) : (s.retired q).irqpendDone = s.irqpendDone := rfl
@[simp] theorem State.retired_irqpendErr (s : State) (q : Half) : (s.retired q).irqpendErr = s.irqpendErr := rfl
@[simp] theorem State.retired_instret (s : State) (q : Half) : (s.retired q).instret = s.instret + 1 := rfl
@[simp] theorem State.retired_kst (s : State) (q : Half) : (s.retired q).kst = s.kst := rfl
@[simp] theorem State.retired_mem (s : State) (q : Half) : (s.retired q).mem = s.mem := rfl
@[simp] theorem State.retired_params (s : State) (q : Half) : (s.retired q).params = s.params := rfl
@[simp] theorem State.retired_epoch (s : State) (q : Half) : (s.retired q).epoch = s.epoch := rfl
@[simp] theorem State.retired_freeCtr (s : State) (q : Half) : (s.retired q).freeCtr = s.freeCtr := rfl
@[simp] theorem State.retired_bus (s : State) (q : Half) : (s.retired q).bus = s.bus := rfl
@[simp] theorem State.retired_rdata (s : State) (q : Half) : (s.retired q).rdata = s.rdata := rfl

/-! ### softReset -/

@[simp] theorem State.softReset_e (s : State) : (s.softReset).e = s.e := by simp only [State.softReset, State.hardwareReset]
@[simp] theorem State.softReset_c (s : State) : (s.softReset).c = Vector.replicate 8 0 := rfl
@[simp] theorem State.softReset_flC (s : State) : (s.softReset).flC = false := rfl
@[simp] theorem State.softReset_flEq (s : State) : (s.softReset).flEq = false := rfl
@[simp] theorem State.softReset_flLt (s : State) : (s.softReset).flLt = false := rfl
@[simp] theorem State.softReset_pc (s : State) : (s.softReset).pc = 0 := rfl
@[simp] theorem State.softReset_seq (s : State) : (s.softReset).seq = .idle := rfl
@[simp] theorem State.softReset_stepPending (s : State) : (s.softReset).stepPending = false := rfl
@[simp] theorem State.softReset_haltRequested (s : State) : (s.softReset).haltRequested = false := rfl
@[simp] theorem State.softReset_cfgok (s : State) : (s.softReset).cfgok = false := rfl
@[simp] theorem State.softReset_herr (s : State) : (s.softReset).herr = false := rfl
@[simp] theorem State.softReset_nlimbs (s : State) : (s.softReset).nlimbs = 5 := rfl
@[simp] theorem State.softReset_modp (s : State) : (s.softReset).modp = 0 := rfl
@[simp] theorem State.softReset_pinv (s : State) : (s.softReset).pinv = 0 := rfl
@[simp] theorem State.softReset_rsq (s : State) : (s.softReset).rsq = 0 := rfl
@[simp] theorem State.softReset_rone (s : State) : (s.softReset).rone = 0 := rfl
@[simp] theorem State.softReset_cfgstat (s : State) : (s.softReset).cfgstat = { badEven := false, badSmall := false, badWide := false } := rfl
@[simp] theorem State.softReset_fault (s : State) : (s.softReset).fault = { cause := 0, epc := 0, einfo := 0, insn := 0 } := rfl
@[simp] theorem State.softReset_irqenDone (s : State) : (s.softReset).irqenDone = false := rfl
@[simp] theorem State.softReset_irqenErr (s : State) : (s.softReset).irqenErr = false := rfl
@[simp] theorem State.softReset_irqpendDone (s : State) : (s.softReset).irqpendDone = false := rfl
@[simp] theorem State.softReset_irqpendErr (s : State) : (s.softReset).irqpendErr = false := rfl
@[simp] theorem State.softReset_instret (s : State) : (s.softReset).instret = 0 := rfl
@[simp] theorem State.softReset_kst (s : State) : (s.softReset).kst = s.kst := by simp only [State.softReset, State.hardwareReset]
@[simp] theorem State.softReset_mem (s : State) : (s.softReset).mem = s.mem := by simp only [State.softReset, State.hardwareReset]
@[simp] theorem State.softReset_params (s : State) : (s.softReset).params = s.params := by simp only [State.softReset, State.hardwareReset]
@[simp] theorem State.softReset_epoch (s : State) : (s.softReset).epoch = s.epoch := by simp only [State.softReset, State.hardwareReset]
@[simp] theorem State.softReset_freeCtr (s : State) : (s.softReset).freeCtr = s.freeCtr := by simp only [State.softReset, State.hardwareReset]
@[simp] theorem State.softReset_bus (s : State) : (s.softReset).bus = s.bus := by simp only [State.softReset, State.hardwareReset]
@[simp] theorem State.softReset_rdata (s : State) : (s.softReset).rdata = s.rdata := by simp only [State.softReset, State.hardwareReset]

/-! ### hardReset -/

@[simp] theorem State.hardReset_e (s : State) : (s.hardReset).e = Vector.ofFn fun i => Config.unwrittenReg (s.epoch + 1) i := rfl
@[simp] theorem State.hardReset_c (s : State) : (s.hardReset).c = Vector.replicate 8 0 := rfl
@[simp] theorem State.hardReset_flC (s : State) : (s.hardReset).flC = false := rfl
@[simp] theorem State.hardReset_flEq (s : State) : (s.hardReset).flEq = false := rfl
@[simp] theorem State.hardReset_flLt (s : State) : (s.hardReset).flLt = false := rfl
@[simp] theorem State.hardReset_pc (s : State) : (s.hardReset).pc = 0 := rfl
@[simp] theorem State.hardReset_seq (s : State) : (s.hardReset).seq = .idle := rfl
@[simp] theorem State.hardReset_stepPending (s : State) : (s.hardReset).stepPending = false := rfl
@[simp] theorem State.hardReset_haltRequested (s : State) : (s.hardReset).haltRequested = false := rfl
@[simp] theorem State.hardReset_cfgok (s : State) : (s.hardReset).cfgok = false := rfl
@[simp] theorem State.hardReset_herr (s : State) : (s.hardReset).herr = false := rfl
@[simp] theorem State.hardReset_nlimbs (s : State) : (s.hardReset).nlimbs = 5 := rfl
@[simp] theorem State.hardReset_modp (s : State) : (s.hardReset).modp = 0 := rfl
@[simp] theorem State.hardReset_pinv (s : State) : (s.hardReset).pinv = 0 := rfl
@[simp] theorem State.hardReset_rsq (s : State) : (s.hardReset).rsq = 0 := rfl
@[simp] theorem State.hardReset_rone (s : State) : (s.hardReset).rone = 0 := rfl
@[simp] theorem State.hardReset_cfgstat (s : State) : (s.hardReset).cfgstat = { badEven := false, badSmall := false, badWide := false } := rfl
@[simp] theorem State.hardReset_fault (s : State) : (s.hardReset).fault = { cause := 0, epc := 0, einfo := 0, insn := 0 } := rfl
@[simp] theorem State.hardReset_irqenDone (s : State) : (s.hardReset).irqenDone = false := rfl
@[simp] theorem State.hardReset_irqenErr (s : State) : (s.hardReset).irqenErr = false := rfl
@[simp] theorem State.hardReset_irqpendDone (s : State) : (s.hardReset).irqpendDone = false := rfl
@[simp] theorem State.hardReset_irqpendErr (s : State) : (s.hardReset).irqpendErr = false := rfl
@[simp] theorem State.hardReset_instret (s : State) : (s.hardReset).instret = 0 := rfl
@[simp] theorem State.hardReset_kst (s : State) : (s.hardReset).kst = Vector.ofFn fun k => Config.unwrittenKst (s.epoch + 1) k := rfl
@[simp] theorem State.hardReset_mem (s : State) : (s.hardReset).mem = [] := rfl
@[simp] theorem State.hardReset_params (s : State) : (s.hardReset).params = s.params := by simp only [State.hardReset, State.hardwareReset]
@[simp] theorem State.hardReset_epoch (s : State) : (s.hardReset).epoch = s.epoch + 1 := by simp only [State.hardReset, State.hardwareReset]
@[simp] theorem State.hardReset_freeCtr (s : State) : (s.hardReset).freeCtr = s.freeCtr := by simp only [State.hardReset, State.hardwareReset]
@[simp] theorem State.hardReset_bus (s : State) : (s.hardReset).bus = s.bus := by simp only [State.hardReset, State.hardwareReset]
@[simp] theorem State.hardReset_rdata (s : State) : (s.hardReset).rdata = s.rdata := by simp only [State.hardReset, State.hardwareReset]

/-! ### fallThrough and branch -/

@[simp] theorem State.fallThrough_state (s : State) : s.fallThrough.state = s := rfl
@[simp] theorem State.fallThrough_pc (s : State) : s.fallThrough.pc = s.pc + 1 := rfl
@[simp] theorem State.fallThrough_halt (s : State) : s.fallThrough.halt = false := rfl
@[simp] theorem State.branch_state (s : State) (b : Bool) (q : Half) : (s.branch b q).state = s := rfl
@[simp] theorem State.branch_pc (s : State) (b : Bool) (q : Half) : (s.branch b q).pc = if b then q else s.pc + 1 := rfl
@[simp] theorem State.branch_halt (s : State) (b : Bool) (q : Half) : (s.branch b q).halt = false := rfl

/-! ### setGroup -/

@[simp] theorem State.setGroup_c (s : State) (i : Nat) (ws : List Word) : (s.setGroup i ws).c = s.c := by
  induction ws generalizing s i with
  | nil => rfl
  | cons w ws ih => exact ih (s.setE i w) (i + 1)
@[simp] theorem State.setGroup_flC (s : State) (i : Nat) (ws : List Word) : (s.setGroup i ws).flC = s.flC := by
  induction ws generalizing s i with
  | nil => rfl
  | cons w ws ih => exact ih (s.setE i w) (i + 1)
@[simp] theorem State.setGroup_flEq (s : State) (i : Nat) (ws : List Word) : (s.setGroup i ws).flEq = s.flEq := by
  induction ws generalizing s i with
  | nil => rfl
  | cons w ws ih => exact ih (s.setE i w) (i + 1)
@[simp] theorem State.setGroup_flLt (s : State) (i : Nat) (ws : List Word) : (s.setGroup i ws).flLt = s.flLt := by
  induction ws generalizing s i with
  | nil => rfl
  | cons w ws ih => exact ih (s.setE i w) (i + 1)
@[simp] theorem State.setGroup_pc (s : State) (i : Nat) (ws : List Word) : (s.setGroup i ws).pc = s.pc := by
  induction ws generalizing s i with
  | nil => rfl
  | cons w ws ih => exact ih (s.setE i w) (i + 1)
@[simp] theorem State.setGroup_seq (s : State) (i : Nat) (ws : List Word) : (s.setGroup i ws).seq = s.seq := by
  induction ws generalizing s i with
  | nil => rfl
  | cons w ws ih => exact ih (s.setE i w) (i + 1)
@[simp] theorem State.setGroup_stepPending (s : State) (i : Nat) (ws : List Word) : (s.setGroup i ws).stepPending = s.stepPending := by
  induction ws generalizing s i with
  | nil => rfl
  | cons w ws ih => exact ih (s.setE i w) (i + 1)
@[simp] theorem State.setGroup_haltRequested (s : State) (i : Nat) (ws : List Word) : (s.setGroup i ws).haltRequested = s.haltRequested := by
  induction ws generalizing s i with
  | nil => rfl
  | cons w ws ih => exact ih (s.setE i w) (i + 1)
@[simp] theorem State.setGroup_cfgok (s : State) (i : Nat) (ws : List Word) : (s.setGroup i ws).cfgok = s.cfgok := by
  induction ws generalizing s i with
  | nil => rfl
  | cons w ws ih => exact ih (s.setE i w) (i + 1)
@[simp] theorem State.setGroup_herr (s : State) (i : Nat) (ws : List Word) : (s.setGroup i ws).herr = s.herr := by
  induction ws generalizing s i with
  | nil => rfl
  | cons w ws ih => exact ih (s.setE i w) (i + 1)
@[simp] theorem State.setGroup_nlimbs (s : State) (i : Nat) (ws : List Word) : (s.setGroup i ws).nlimbs = s.nlimbs := by
  induction ws generalizing s i with
  | nil => rfl
  | cons w ws ih => exact ih (s.setE i w) (i + 1)
@[simp] theorem State.setGroup_modp (s : State) (i : Nat) (ws : List Word) : (s.setGroup i ws).modp = s.modp := by
  induction ws generalizing s i with
  | nil => rfl
  | cons w ws ih => exact ih (s.setE i w) (i + 1)
@[simp] theorem State.setGroup_pinv (s : State) (i : Nat) (ws : List Word) : (s.setGroup i ws).pinv = s.pinv := by
  induction ws generalizing s i with
  | nil => rfl
  | cons w ws ih => exact ih (s.setE i w) (i + 1)
@[simp] theorem State.setGroup_rsq (s : State) (i : Nat) (ws : List Word) : (s.setGroup i ws).rsq = s.rsq := by
  induction ws generalizing s i with
  | nil => rfl
  | cons w ws ih => exact ih (s.setE i w) (i + 1)
@[simp] theorem State.setGroup_rone (s : State) (i : Nat) (ws : List Word) : (s.setGroup i ws).rone = s.rone := by
  induction ws generalizing s i with
  | nil => rfl
  | cons w ws ih => exact ih (s.setE i w) (i + 1)
@[simp] theorem State.setGroup_cfgstat (s : State) (i : Nat) (ws : List Word) : (s.setGroup i ws).cfgstat = s.cfgstat := by
  induction ws generalizing s i with
  | nil => rfl
  | cons w ws ih => exact ih (s.setE i w) (i + 1)
@[simp] theorem State.setGroup_fault (s : State) (i : Nat) (ws : List Word) : (s.setGroup i ws).fault = s.fault := by
  induction ws generalizing s i with
  | nil => rfl
  | cons w ws ih => exact ih (s.setE i w) (i + 1)
@[simp] theorem State.setGroup_irqenDone (s : State) (i : Nat) (ws : List Word) : (s.setGroup i ws).irqenDone = s.irqenDone := by
  induction ws generalizing s i with
  | nil => rfl
  | cons w ws ih => exact ih (s.setE i w) (i + 1)
@[simp] theorem State.setGroup_irqenErr (s : State) (i : Nat) (ws : List Word) : (s.setGroup i ws).irqenErr = s.irqenErr := by
  induction ws generalizing s i with
  | nil => rfl
  | cons w ws ih => exact ih (s.setE i w) (i + 1)
@[simp] theorem State.setGroup_irqpendDone (s : State) (i : Nat) (ws : List Word) : (s.setGroup i ws).irqpendDone = s.irqpendDone := by
  induction ws generalizing s i with
  | nil => rfl
  | cons w ws ih => exact ih (s.setE i w) (i + 1)
@[simp] theorem State.setGroup_irqpendErr (s : State) (i : Nat) (ws : List Word) : (s.setGroup i ws).irqpendErr = s.irqpendErr := by
  induction ws generalizing s i with
  | nil => rfl
  | cons w ws ih => exact ih (s.setE i w) (i + 1)
@[simp] theorem State.setGroup_instret (s : State) (i : Nat) (ws : List Word) : (s.setGroup i ws).instret = s.instret := by
  induction ws generalizing s i with
  | nil => rfl
  | cons w ws ih => exact ih (s.setE i w) (i + 1)
@[simp] theorem State.setGroup_kst (s : State) (i : Nat) (ws : List Word) : (s.setGroup i ws).kst = s.kst := by
  induction ws generalizing s i with
  | nil => rfl
  | cons w ws ih => exact ih (s.setE i w) (i + 1)
@[simp] theorem State.setGroup_mem (s : State) (i : Nat) (ws : List Word) : (s.setGroup i ws).mem = s.mem := by
  induction ws generalizing s i with
  | nil => rfl
  | cons w ws ih => exact ih (s.setE i w) (i + 1)
@[simp] theorem State.setGroup_params (s : State) (i : Nat) (ws : List Word) : (s.setGroup i ws).params = s.params := by
  induction ws generalizing s i with
  | nil => rfl
  | cons w ws ih => exact ih (s.setE i w) (i + 1)
@[simp] theorem State.setGroup_epoch (s : State) (i : Nat) (ws : List Word) : (s.setGroup i ws).epoch = s.epoch := by
  induction ws generalizing s i with
  | nil => rfl
  | cons w ws ih => exact ih (s.setE i w) (i + 1)
@[simp] theorem State.setGroup_freeCtr (s : State) (i : Nat) (ws : List Word) : (s.setGroup i ws).freeCtr = s.freeCtr := by
  induction ws generalizing s i with
  | nil => rfl
  | cons w ws ih => exact ih (s.setE i w) (i + 1)
@[simp] theorem State.setGroup_bus (s : State) (i : Nat) (ws : List Word) : (s.setGroup i ws).bus = s.bus := by
  induction ws generalizing s i with
  | nil => rfl
  | cons w ws ih => exact ih (s.setE i w) (i + 1)
@[simp] theorem State.setGroup_rdata (s : State) (i : Nat) (ws : List Word) : (s.setGroup i ws).rdata = s.rdata := by
  induction ws generalizing s i with
  | nil => rfl
  | cons w ws ih => exact ih (s.setE i w) (i + 1)

/-! ### dmemWrite -/

@[simp] theorem State.dmemWrite_e (s : State) (a : Nat) (ws : List Word) : (s.dmemWrite a ws).e = s.e := by
  induction ws generalizing s a with
  | nil => rfl
  | cons w ws ih => exact ih _ (a + 1)
@[simp] theorem State.dmemWrite_c (s : State) (a : Nat) (ws : List Word) : (s.dmemWrite a ws).c = s.c := by
  induction ws generalizing s a with
  | nil => rfl
  | cons w ws ih => exact ih _ (a + 1)
@[simp] theorem State.dmemWrite_flC (s : State) (a : Nat) (ws : List Word) : (s.dmemWrite a ws).flC = s.flC := by
  induction ws generalizing s a with
  | nil => rfl
  | cons w ws ih => exact ih _ (a + 1)
@[simp] theorem State.dmemWrite_flEq (s : State) (a : Nat) (ws : List Word) : (s.dmemWrite a ws).flEq = s.flEq := by
  induction ws generalizing s a with
  | nil => rfl
  | cons w ws ih => exact ih _ (a + 1)
@[simp] theorem State.dmemWrite_flLt (s : State) (a : Nat) (ws : List Word) : (s.dmemWrite a ws).flLt = s.flLt := by
  induction ws generalizing s a with
  | nil => rfl
  | cons w ws ih => exact ih _ (a + 1)
@[simp] theorem State.dmemWrite_pc (s : State) (a : Nat) (ws : List Word) : (s.dmemWrite a ws).pc = s.pc := by
  induction ws generalizing s a with
  | nil => rfl
  | cons w ws ih => exact ih _ (a + 1)
@[simp] theorem State.dmemWrite_seq (s : State) (a : Nat) (ws : List Word) : (s.dmemWrite a ws).seq = s.seq := by
  induction ws generalizing s a with
  | nil => rfl
  | cons w ws ih => exact ih _ (a + 1)
@[simp] theorem State.dmemWrite_stepPending (s : State) (a : Nat) (ws : List Word) : (s.dmemWrite a ws).stepPending = s.stepPending := by
  induction ws generalizing s a with
  | nil => rfl
  | cons w ws ih => exact ih _ (a + 1)
@[simp] theorem State.dmemWrite_haltRequested (s : State) (a : Nat) (ws : List Word) : (s.dmemWrite a ws).haltRequested = s.haltRequested := by
  induction ws generalizing s a with
  | nil => rfl
  | cons w ws ih => exact ih _ (a + 1)
@[simp] theorem State.dmemWrite_cfgok (s : State) (a : Nat) (ws : List Word) : (s.dmemWrite a ws).cfgok = s.cfgok := by
  induction ws generalizing s a with
  | nil => rfl
  | cons w ws ih => exact ih _ (a + 1)
@[simp] theorem State.dmemWrite_herr (s : State) (a : Nat) (ws : List Word) : (s.dmemWrite a ws).herr = s.herr := by
  induction ws generalizing s a with
  | nil => rfl
  | cons w ws ih => exact ih _ (a + 1)
@[simp] theorem State.dmemWrite_nlimbs (s : State) (a : Nat) (ws : List Word) : (s.dmemWrite a ws).nlimbs = s.nlimbs := by
  induction ws generalizing s a with
  | nil => rfl
  | cons w ws ih => exact ih _ (a + 1)
@[simp] theorem State.dmemWrite_modp (s : State) (a : Nat) (ws : List Word) : (s.dmemWrite a ws).modp = s.modp := by
  induction ws generalizing s a with
  | nil => rfl
  | cons w ws ih => exact ih _ (a + 1)
@[simp] theorem State.dmemWrite_pinv (s : State) (a : Nat) (ws : List Word) : (s.dmemWrite a ws).pinv = s.pinv := by
  induction ws generalizing s a with
  | nil => rfl
  | cons w ws ih => exact ih _ (a + 1)
@[simp] theorem State.dmemWrite_rsq (s : State) (a : Nat) (ws : List Word) : (s.dmemWrite a ws).rsq = s.rsq := by
  induction ws generalizing s a with
  | nil => rfl
  | cons w ws ih => exact ih _ (a + 1)
@[simp] theorem State.dmemWrite_rone (s : State) (a : Nat) (ws : List Word) : (s.dmemWrite a ws).rone = s.rone := by
  induction ws generalizing s a with
  | nil => rfl
  | cons w ws ih => exact ih _ (a + 1)
@[simp] theorem State.dmemWrite_cfgstat (s : State) (a : Nat) (ws : List Word) : (s.dmemWrite a ws).cfgstat = s.cfgstat := by
  induction ws generalizing s a with
  | nil => rfl
  | cons w ws ih => exact ih _ (a + 1)
@[simp] theorem State.dmemWrite_fault (s : State) (a : Nat) (ws : List Word) : (s.dmemWrite a ws).fault = s.fault := by
  induction ws generalizing s a with
  | nil => rfl
  | cons w ws ih => exact ih _ (a + 1)
@[simp] theorem State.dmemWrite_irqenDone (s : State) (a : Nat) (ws : List Word) : (s.dmemWrite a ws).irqenDone = s.irqenDone := by
  induction ws generalizing s a with
  | nil => rfl
  | cons w ws ih => exact ih _ (a + 1)
@[simp] theorem State.dmemWrite_irqenErr (s : State) (a : Nat) (ws : List Word) : (s.dmemWrite a ws).irqenErr = s.irqenErr := by
  induction ws generalizing s a with
  | nil => rfl
  | cons w ws ih => exact ih _ (a + 1)
@[simp] theorem State.dmemWrite_irqpendDone (s : State) (a : Nat) (ws : List Word) : (s.dmemWrite a ws).irqpendDone = s.irqpendDone := by
  induction ws generalizing s a with
  | nil => rfl
  | cons w ws ih => exact ih _ (a + 1)
@[simp] theorem State.dmemWrite_irqpendErr (s : State) (a : Nat) (ws : List Word) : (s.dmemWrite a ws).irqpendErr = s.irqpendErr := by
  induction ws generalizing s a with
  | nil => rfl
  | cons w ws ih => exact ih _ (a + 1)
@[simp] theorem State.dmemWrite_instret (s : State) (a : Nat) (ws : List Word) : (s.dmemWrite a ws).instret = s.instret := by
  induction ws generalizing s a with
  | nil => rfl
  | cons w ws ih => exact ih _ (a + 1)
@[simp] theorem State.dmemWrite_kst (s : State) (a : Nat) (ws : List Word) : (s.dmemWrite a ws).kst = s.kst := by
  induction ws generalizing s a with
  | nil => rfl
  | cons w ws ih => exact ih _ (a + 1)
@[simp] theorem State.dmemWrite_params (s : State) (a : Nat) (ws : List Word) : (s.dmemWrite a ws).params = s.params := by
  induction ws generalizing s a with
  | nil => rfl
  | cons w ws ih => exact ih _ (a + 1)
@[simp] theorem State.dmemWrite_epoch (s : State) (a : Nat) (ws : List Word) : (s.dmemWrite a ws).epoch = s.epoch := by
  induction ws generalizing s a with
  | nil => rfl
  | cons w ws ih => exact ih _ (a + 1)
@[simp] theorem State.dmemWrite_freeCtr (s : State) (a : Nat) (ws : List Word) : (s.dmemWrite a ws).freeCtr = s.freeCtr := by
  induction ws generalizing s a with
  | nil => rfl
  | cons w ws ih => exact ih _ (a + 1)
@[simp] theorem State.dmemWrite_bus (s : State) (a : Nat) (ws : List Word) : (s.dmemWrite a ws).bus = s.bus := by
  induction ws generalizing s a with
  | nil => rfl
  | cons w ws ih => exact ih _ (a + 1)
@[simp] theorem State.dmemWrite_rdata (s : State) (a : Nat) (ws : List Word) : (s.dmemWrite a ws).rdata = s.rdata := by
  induction ws generalizing s a with
  | nil => rfl
  | cons w ws ih => exact ih _ (a + 1)

/-! ### putCoeffs -/

@[simp] theorem State.putCoeffs_c (s : State) (i : Nat) (xs : List Nat) : (s.putCoeffs i xs).c = s.c := s.setGroup_c i _
@[simp] theorem State.putCoeffs_flC (s : State) (i : Nat) (xs : List Nat) : (s.putCoeffs i xs).flC = s.flC := s.setGroup_flC i _
@[simp] theorem State.putCoeffs_flEq (s : State) (i : Nat) (xs : List Nat) : (s.putCoeffs i xs).flEq = s.flEq := s.setGroup_flEq i _
@[simp] theorem State.putCoeffs_flLt (s : State) (i : Nat) (xs : List Nat) : (s.putCoeffs i xs).flLt = s.flLt := s.setGroup_flLt i _
@[simp] theorem State.putCoeffs_pc (s : State) (i : Nat) (xs : List Nat) : (s.putCoeffs i xs).pc = s.pc := s.setGroup_pc i _
@[simp] theorem State.putCoeffs_seq (s : State) (i : Nat) (xs : List Nat) : (s.putCoeffs i xs).seq = s.seq := s.setGroup_seq i _
@[simp] theorem State.putCoeffs_stepPending (s : State) (i : Nat) (xs : List Nat) : (s.putCoeffs i xs).stepPending = s.stepPending := s.setGroup_stepPending i _
@[simp] theorem State.putCoeffs_haltRequested (s : State) (i : Nat) (xs : List Nat) : (s.putCoeffs i xs).haltRequested = s.haltRequested := s.setGroup_haltRequested i _
@[simp] theorem State.putCoeffs_cfgok (s : State) (i : Nat) (xs : List Nat) : (s.putCoeffs i xs).cfgok = s.cfgok := s.setGroup_cfgok i _
@[simp] theorem State.putCoeffs_herr (s : State) (i : Nat) (xs : List Nat) : (s.putCoeffs i xs).herr = s.herr := s.setGroup_herr i _
@[simp] theorem State.putCoeffs_nlimbs (s : State) (i : Nat) (xs : List Nat) : (s.putCoeffs i xs).nlimbs = s.nlimbs := s.setGroup_nlimbs i _
@[simp] theorem State.putCoeffs_modp (s : State) (i : Nat) (xs : List Nat) : (s.putCoeffs i xs).modp = s.modp := s.setGroup_modp i _
@[simp] theorem State.putCoeffs_pinv (s : State) (i : Nat) (xs : List Nat) : (s.putCoeffs i xs).pinv = s.pinv := s.setGroup_pinv i _
@[simp] theorem State.putCoeffs_rsq (s : State) (i : Nat) (xs : List Nat) : (s.putCoeffs i xs).rsq = s.rsq := s.setGroup_rsq i _
@[simp] theorem State.putCoeffs_rone (s : State) (i : Nat) (xs : List Nat) : (s.putCoeffs i xs).rone = s.rone := s.setGroup_rone i _
@[simp] theorem State.putCoeffs_cfgstat (s : State) (i : Nat) (xs : List Nat) : (s.putCoeffs i xs).cfgstat = s.cfgstat := s.setGroup_cfgstat i _
@[simp] theorem State.putCoeffs_fault (s : State) (i : Nat) (xs : List Nat) : (s.putCoeffs i xs).fault = s.fault := s.setGroup_fault i _
@[simp] theorem State.putCoeffs_irqenDone (s : State) (i : Nat) (xs : List Nat) : (s.putCoeffs i xs).irqenDone = s.irqenDone := s.setGroup_irqenDone i _
@[simp] theorem State.putCoeffs_irqenErr (s : State) (i : Nat) (xs : List Nat) : (s.putCoeffs i xs).irqenErr = s.irqenErr := s.setGroup_irqenErr i _
@[simp] theorem State.putCoeffs_irqpendDone (s : State) (i : Nat) (xs : List Nat) : (s.putCoeffs i xs).irqpendDone = s.irqpendDone := s.setGroup_irqpendDone i _
@[simp] theorem State.putCoeffs_irqpendErr (s : State) (i : Nat) (xs : List Nat) : (s.putCoeffs i xs).irqpendErr = s.irqpendErr := s.setGroup_irqpendErr i _
@[simp] theorem State.putCoeffs_instret (s : State) (i : Nat) (xs : List Nat) : (s.putCoeffs i xs).instret = s.instret := s.setGroup_instret i _
@[simp] theorem State.putCoeffs_kst (s : State) (i : Nat) (xs : List Nat) : (s.putCoeffs i xs).kst = s.kst := s.setGroup_kst i _
@[simp] theorem State.putCoeffs_mem (s : State) (i : Nat) (xs : List Nat) : (s.putCoeffs i xs).mem = s.mem := s.setGroup_mem i _
@[simp] theorem State.putCoeffs_params (s : State) (i : Nat) (xs : List Nat) : (s.putCoeffs i xs).params = s.params := s.setGroup_params i _
@[simp] theorem State.putCoeffs_epoch (s : State) (i : Nat) (xs : List Nat) : (s.putCoeffs i xs).epoch = s.epoch := s.setGroup_epoch i _
@[simp] theorem State.putCoeffs_freeCtr (s : State) (i : Nat) (xs : List Nat) : (s.putCoeffs i xs).freeCtr = s.freeCtr := s.setGroup_freeCtr i _
@[simp] theorem State.putCoeffs_bus (s : State) (i : Nat) (xs : List Nat) : (s.putCoeffs i xs).bus = s.bus := s.setGroup_bus i _
@[simp] theorem State.putCoeffs_rdata (s : State) (i : Nat) (xs : List Nat) : (s.putCoeffs i xs).rdata = s.rdata := s.setGroup_rdata i _

/-! ### putElt -/

@[simp] theorem State.putElt_c (s : State) (ft : FieldType) (i : Nat) (x : Elt ft) : (s.putElt ft i x).c = s.c := s.putCoeffs_c i _
@[simp] theorem State.putElt_flC (s : State) (ft : FieldType) (i : Nat) (x : Elt ft) : (s.putElt ft i x).flC = s.flC := s.putCoeffs_flC i _
@[simp] theorem State.putElt_flEq (s : State) (ft : FieldType) (i : Nat) (x : Elt ft) : (s.putElt ft i x).flEq = s.flEq := s.putCoeffs_flEq i _
@[simp] theorem State.putElt_flLt (s : State) (ft : FieldType) (i : Nat) (x : Elt ft) : (s.putElt ft i x).flLt = s.flLt := s.putCoeffs_flLt i _
@[simp] theorem State.putElt_pc (s : State) (ft : FieldType) (i : Nat) (x : Elt ft) : (s.putElt ft i x).pc = s.pc := s.putCoeffs_pc i _
@[simp] theorem State.putElt_seq (s : State) (ft : FieldType) (i : Nat) (x : Elt ft) : (s.putElt ft i x).seq = s.seq := s.putCoeffs_seq i _
@[simp] theorem State.putElt_stepPending (s : State) (ft : FieldType) (i : Nat) (x : Elt ft) : (s.putElt ft i x).stepPending = s.stepPending := s.putCoeffs_stepPending i _
@[simp] theorem State.putElt_haltRequested (s : State) (ft : FieldType) (i : Nat) (x : Elt ft) : (s.putElt ft i x).haltRequested = s.haltRequested := s.putCoeffs_haltRequested i _
@[simp] theorem State.putElt_cfgok (s : State) (ft : FieldType) (i : Nat) (x : Elt ft) : (s.putElt ft i x).cfgok = s.cfgok := s.putCoeffs_cfgok i _
@[simp] theorem State.putElt_herr (s : State) (ft : FieldType) (i : Nat) (x : Elt ft) : (s.putElt ft i x).herr = s.herr := s.putCoeffs_herr i _
@[simp] theorem State.putElt_nlimbs (s : State) (ft : FieldType) (i : Nat) (x : Elt ft) : (s.putElt ft i x).nlimbs = s.nlimbs := s.putCoeffs_nlimbs i _
@[simp] theorem State.putElt_modp (s : State) (ft : FieldType) (i : Nat) (x : Elt ft) : (s.putElt ft i x).modp = s.modp := s.putCoeffs_modp i _
@[simp] theorem State.putElt_pinv (s : State) (ft : FieldType) (i : Nat) (x : Elt ft) : (s.putElt ft i x).pinv = s.pinv := s.putCoeffs_pinv i _
@[simp] theorem State.putElt_rsq (s : State) (ft : FieldType) (i : Nat) (x : Elt ft) : (s.putElt ft i x).rsq = s.rsq := s.putCoeffs_rsq i _
@[simp] theorem State.putElt_rone (s : State) (ft : FieldType) (i : Nat) (x : Elt ft) : (s.putElt ft i x).rone = s.rone := s.putCoeffs_rone i _
@[simp] theorem State.putElt_cfgstat (s : State) (ft : FieldType) (i : Nat) (x : Elt ft) : (s.putElt ft i x).cfgstat = s.cfgstat := s.putCoeffs_cfgstat i _
@[simp] theorem State.putElt_fault (s : State) (ft : FieldType) (i : Nat) (x : Elt ft) : (s.putElt ft i x).fault = s.fault := s.putCoeffs_fault i _
@[simp] theorem State.putElt_irqenDone (s : State) (ft : FieldType) (i : Nat) (x : Elt ft) : (s.putElt ft i x).irqenDone = s.irqenDone := s.putCoeffs_irqenDone i _
@[simp] theorem State.putElt_irqenErr (s : State) (ft : FieldType) (i : Nat) (x : Elt ft) : (s.putElt ft i x).irqenErr = s.irqenErr := s.putCoeffs_irqenErr i _
@[simp] theorem State.putElt_irqpendDone (s : State) (ft : FieldType) (i : Nat) (x : Elt ft) : (s.putElt ft i x).irqpendDone = s.irqpendDone := s.putCoeffs_irqpendDone i _
@[simp] theorem State.putElt_irqpendErr (s : State) (ft : FieldType) (i : Nat) (x : Elt ft) : (s.putElt ft i x).irqpendErr = s.irqpendErr := s.putCoeffs_irqpendErr i _
@[simp] theorem State.putElt_instret (s : State) (ft : FieldType) (i : Nat) (x : Elt ft) : (s.putElt ft i x).instret = s.instret := s.putCoeffs_instret i _
@[simp] theorem State.putElt_kst (s : State) (ft : FieldType) (i : Nat) (x : Elt ft) : (s.putElt ft i x).kst = s.kst := s.putCoeffs_kst i _
@[simp] theorem State.putElt_mem (s : State) (ft : FieldType) (i : Nat) (x : Elt ft) : (s.putElt ft i x).mem = s.mem := s.putCoeffs_mem i _
@[simp] theorem State.putElt_params (s : State) (ft : FieldType) (i : Nat) (x : Elt ft) : (s.putElt ft i x).params = s.params := s.putCoeffs_params i _
@[simp] theorem State.putElt_epoch (s : State) (ft : FieldType) (i : Nat) (x : Elt ft) : (s.putElt ft i x).epoch = s.epoch := s.putCoeffs_epoch i _
@[simp] theorem State.putElt_freeCtr (s : State) (ft : FieldType) (i : Nat) (x : Elt ft) : (s.putElt ft i x).freeCtr = s.freeCtr := s.putCoeffs_freeCtr i _
@[simp] theorem State.putElt_bus (s : State) (ft : FieldType) (i : Nat) (x : Elt ft) : (s.putElt ft i x).bus = s.bus := s.putCoeffs_bus i _
@[simp] theorem State.putElt_rdata (s : State) (ft : FieldType) (i : Nat) (x : Elt ft) : (s.putElt ft i x).rdata = s.rdata := s.putCoeffs_rdata i _

/-! ### putPoint -/

@[simp] theorem State.putPoint_c (s : State) (ft : FieldType) (i : Nat) (P : Point (Elt ft)) : (s.putPoint ft i P).c = s.c := s.putCoeffs_c i _
@[simp] theorem State.putPoint_flC (s : State) (ft : FieldType) (i : Nat) (P : Point (Elt ft)) : (s.putPoint ft i P).flC = s.flC := s.putCoeffs_flC i _
@[simp] theorem State.putPoint_flEq (s : State) (ft : FieldType) (i : Nat) (P : Point (Elt ft)) : (s.putPoint ft i P).flEq = s.flEq := s.putCoeffs_flEq i _
@[simp] theorem State.putPoint_flLt (s : State) (ft : FieldType) (i : Nat) (P : Point (Elt ft)) : (s.putPoint ft i P).flLt = s.flLt := s.putCoeffs_flLt i _
@[simp] theorem State.putPoint_pc (s : State) (ft : FieldType) (i : Nat) (P : Point (Elt ft)) : (s.putPoint ft i P).pc = s.pc := s.putCoeffs_pc i _
@[simp] theorem State.putPoint_seq (s : State) (ft : FieldType) (i : Nat) (P : Point (Elt ft)) : (s.putPoint ft i P).seq = s.seq := s.putCoeffs_seq i _
@[simp] theorem State.putPoint_stepPending (s : State) (ft : FieldType) (i : Nat) (P : Point (Elt ft)) : (s.putPoint ft i P).stepPending = s.stepPending := s.putCoeffs_stepPending i _
@[simp] theorem State.putPoint_haltRequested (s : State) (ft : FieldType) (i : Nat) (P : Point (Elt ft)) : (s.putPoint ft i P).haltRequested = s.haltRequested := s.putCoeffs_haltRequested i _
@[simp] theorem State.putPoint_cfgok (s : State) (ft : FieldType) (i : Nat) (P : Point (Elt ft)) : (s.putPoint ft i P).cfgok = s.cfgok := s.putCoeffs_cfgok i _
@[simp] theorem State.putPoint_herr (s : State) (ft : FieldType) (i : Nat) (P : Point (Elt ft)) : (s.putPoint ft i P).herr = s.herr := s.putCoeffs_herr i _
@[simp] theorem State.putPoint_nlimbs (s : State) (ft : FieldType) (i : Nat) (P : Point (Elt ft)) : (s.putPoint ft i P).nlimbs = s.nlimbs := s.putCoeffs_nlimbs i _
@[simp] theorem State.putPoint_modp (s : State) (ft : FieldType) (i : Nat) (P : Point (Elt ft)) : (s.putPoint ft i P).modp = s.modp := s.putCoeffs_modp i _
@[simp] theorem State.putPoint_pinv (s : State) (ft : FieldType) (i : Nat) (P : Point (Elt ft)) : (s.putPoint ft i P).pinv = s.pinv := s.putCoeffs_pinv i _
@[simp] theorem State.putPoint_rsq (s : State) (ft : FieldType) (i : Nat) (P : Point (Elt ft)) : (s.putPoint ft i P).rsq = s.rsq := s.putCoeffs_rsq i _
@[simp] theorem State.putPoint_rone (s : State) (ft : FieldType) (i : Nat) (P : Point (Elt ft)) : (s.putPoint ft i P).rone = s.rone := s.putCoeffs_rone i _
@[simp] theorem State.putPoint_cfgstat (s : State) (ft : FieldType) (i : Nat) (P : Point (Elt ft)) : (s.putPoint ft i P).cfgstat = s.cfgstat := s.putCoeffs_cfgstat i _
@[simp] theorem State.putPoint_fault (s : State) (ft : FieldType) (i : Nat) (P : Point (Elt ft)) : (s.putPoint ft i P).fault = s.fault := s.putCoeffs_fault i _
@[simp] theorem State.putPoint_irqenDone (s : State) (ft : FieldType) (i : Nat) (P : Point (Elt ft)) : (s.putPoint ft i P).irqenDone = s.irqenDone := s.putCoeffs_irqenDone i _
@[simp] theorem State.putPoint_irqenErr (s : State) (ft : FieldType) (i : Nat) (P : Point (Elt ft)) : (s.putPoint ft i P).irqenErr = s.irqenErr := s.putCoeffs_irqenErr i _
@[simp] theorem State.putPoint_irqpendDone (s : State) (ft : FieldType) (i : Nat) (P : Point (Elt ft)) : (s.putPoint ft i P).irqpendDone = s.irqpendDone := s.putCoeffs_irqpendDone i _
@[simp] theorem State.putPoint_irqpendErr (s : State) (ft : FieldType) (i : Nat) (P : Point (Elt ft)) : (s.putPoint ft i P).irqpendErr = s.irqpendErr := s.putCoeffs_irqpendErr i _
@[simp] theorem State.putPoint_instret (s : State) (ft : FieldType) (i : Nat) (P : Point (Elt ft)) : (s.putPoint ft i P).instret = s.instret := s.putCoeffs_instret i _
@[simp] theorem State.putPoint_kst (s : State) (ft : FieldType) (i : Nat) (P : Point (Elt ft)) : (s.putPoint ft i P).kst = s.kst := s.putCoeffs_kst i _
@[simp] theorem State.putPoint_mem (s : State) (ft : FieldType) (i : Nat) (P : Point (Elt ft)) : (s.putPoint ft i P).mem = s.mem := s.putCoeffs_mem i _
@[simp] theorem State.putPoint_params (s : State) (ft : FieldType) (i : Nat) (P : Point (Elt ft)) : (s.putPoint ft i P).params = s.params := s.putCoeffs_params i _
@[simp] theorem State.putPoint_epoch (s : State) (ft : FieldType) (i : Nat) (P : Point (Elt ft)) : (s.putPoint ft i P).epoch = s.epoch := s.putCoeffs_epoch i _
@[simp] theorem State.putPoint_freeCtr (s : State) (ft : FieldType) (i : Nat) (P : Point (Elt ft)) : (s.putPoint ft i P).freeCtr = s.freeCtr := s.putCoeffs_freeCtr i _
@[simp] theorem State.putPoint_bus (s : State) (ft : FieldType) (i : Nat) (P : Point (Elt ft)) : (s.putPoint ft i P).bus = s.bus := s.putCoeffs_bus i _
@[simp] theorem State.putPoint_rdata (s : State) (ft : FieldType) (i : Nat) (P : Point (Elt ft)) : (s.putPoint ft i P).rdata = s.rdata := s.putCoeffs_rdata i _

/-! ### putFree -/

@[simp] theorem State.putFree_c (s : State) (i n : Nat) : (s.putFree i n).c = s.c := s.setGroup_c i _
@[simp] theorem State.putFree_flC (s : State) (i n : Nat) : (s.putFree i n).flC = s.flC := s.setGroup_flC i _
@[simp] theorem State.putFree_flEq (s : State) (i n : Nat) : (s.putFree i n).flEq = s.flEq := s.setGroup_flEq i _
@[simp] theorem State.putFree_flLt (s : State) (i n : Nat) : (s.putFree i n).flLt = s.flLt := s.setGroup_flLt i _
@[simp] theorem State.putFree_pc (s : State) (i n : Nat) : (s.putFree i n).pc = s.pc := s.setGroup_pc i _
@[simp] theorem State.putFree_seq (s : State) (i n : Nat) : (s.putFree i n).seq = s.seq := s.setGroup_seq i _
@[simp] theorem State.putFree_stepPending (s : State) (i n : Nat) : (s.putFree i n).stepPending = s.stepPending := s.setGroup_stepPending i _
@[simp] theorem State.putFree_haltRequested (s : State) (i n : Nat) : (s.putFree i n).haltRequested = s.haltRequested := s.setGroup_haltRequested i _
@[simp] theorem State.putFree_cfgok (s : State) (i n : Nat) : (s.putFree i n).cfgok = s.cfgok := s.setGroup_cfgok i _
@[simp] theorem State.putFree_herr (s : State) (i n : Nat) : (s.putFree i n).herr = s.herr := s.setGroup_herr i _
@[simp] theorem State.putFree_nlimbs (s : State) (i n : Nat) : (s.putFree i n).nlimbs = s.nlimbs := s.setGroup_nlimbs i _
@[simp] theorem State.putFree_modp (s : State) (i n : Nat) : (s.putFree i n).modp = s.modp := s.setGroup_modp i _
@[simp] theorem State.putFree_pinv (s : State) (i n : Nat) : (s.putFree i n).pinv = s.pinv := s.setGroup_pinv i _
@[simp] theorem State.putFree_rsq (s : State) (i n : Nat) : (s.putFree i n).rsq = s.rsq := s.setGroup_rsq i _
@[simp] theorem State.putFree_rone (s : State) (i n : Nat) : (s.putFree i n).rone = s.rone := s.setGroup_rone i _
@[simp] theorem State.putFree_cfgstat (s : State) (i n : Nat) : (s.putFree i n).cfgstat = s.cfgstat := s.setGroup_cfgstat i _
@[simp] theorem State.putFree_fault (s : State) (i n : Nat) : (s.putFree i n).fault = s.fault := s.setGroup_fault i _
@[simp] theorem State.putFree_irqenDone (s : State) (i n : Nat) : (s.putFree i n).irqenDone = s.irqenDone := s.setGroup_irqenDone i _
@[simp] theorem State.putFree_irqenErr (s : State) (i n : Nat) : (s.putFree i n).irqenErr = s.irqenErr := s.setGroup_irqenErr i _
@[simp] theorem State.putFree_irqpendDone (s : State) (i n : Nat) : (s.putFree i n).irqpendDone = s.irqpendDone := s.setGroup_irqpendDone i _
@[simp] theorem State.putFree_irqpendErr (s : State) (i n : Nat) : (s.putFree i n).irqpendErr = s.irqpendErr := s.setGroup_irqpendErr i _
@[simp] theorem State.putFree_instret (s : State) (i n : Nat) : (s.putFree i n).instret = s.instret := s.setGroup_instret i _
@[simp] theorem State.putFree_kst (s : State) (i n : Nat) : (s.putFree i n).kst = s.kst := s.setGroup_kst i _
@[simp] theorem State.putFree_mem (s : State) (i n : Nat) : (s.putFree i n).mem = s.mem := s.setGroup_mem i _
@[simp] theorem State.putFree_params (s : State) (i n : Nat) : (s.putFree i n).params = s.params := s.setGroup_params i _
@[simp] theorem State.putFree_epoch (s : State) (i n : Nat) : (s.putFree i n).epoch = s.epoch := s.setGroup_epoch i _
@[simp] theorem State.putFree_bus (s : State) (i n : Nat) : (s.putFree i n).bus = s.bus := s.setGroup_bus i _
@[simp] theorem State.putFree_rdata (s : State) (i n : Nat) : (s.putFree i n).rdata = s.rdata := s.setGroup_rdata i _
@[simp] theorem State.putFree_freeCtr (s : State) (i n : Nat) : (s.putFree i n).freeCtr = s.freeCtr + n := rfl

/-! ### retire -/

@[simp] theorem Result.retire_e (r : Result) : r.retire.e = r.state.e := by
  simp only [Result.retire]; split
  · rfl
  · split <;> rfl
@[simp] theorem Result.retire_c (r : Result) : r.retire.c = r.state.c := by
  simp only [Result.retire]; split
  · rfl
  · split <;> rfl
@[simp] theorem Result.retire_flC (r : Result) : r.retire.flC = r.state.flC := by
  simp only [Result.retire]; split
  · rfl
  · split <;> rfl
@[simp] theorem Result.retire_flEq (r : Result) : r.retire.flEq = r.state.flEq := by
  simp only [Result.retire]; split
  · rfl
  · split <;> rfl
@[simp] theorem Result.retire_flLt (r : Result) : r.retire.flLt = r.state.flLt := by
  simp only [Result.retire]; split
  · rfl
  · split <;> rfl
@[simp] theorem Result.retire_cfgok (r : Result) : r.retire.cfgok = r.state.cfgok := by
  simp only [Result.retire]; split
  · rfl
  · split <;> rfl
@[simp] theorem Result.retire_herr (r : Result) : r.retire.herr = r.state.herr := by
  simp only [Result.retire]; split
  · rfl
  · split <;> rfl
@[simp] theorem Result.retire_nlimbs (r : Result) : r.retire.nlimbs = r.state.nlimbs := by
  simp only [Result.retire]; split
  · rfl
  · split <;> rfl
@[simp] theorem Result.retire_modp (r : Result) : r.retire.modp = r.state.modp := by
  simp only [Result.retire]; split
  · rfl
  · split <;> rfl
@[simp] theorem Result.retire_pinv (r : Result) : r.retire.pinv = r.state.pinv := by
  simp only [Result.retire]; split
  · rfl
  · split <;> rfl
@[simp] theorem Result.retire_rsq (r : Result) : r.retire.rsq = r.state.rsq := by
  simp only [Result.retire]; split
  · rfl
  · split <;> rfl
@[simp] theorem Result.retire_rone (r : Result) : r.retire.rone = r.state.rone := by
  simp only [Result.retire]; split
  · rfl
  · split <;> rfl
@[simp] theorem Result.retire_cfgstat (r : Result) : r.retire.cfgstat = r.state.cfgstat := by
  simp only [Result.retire]; split
  · rfl
  · split <;> rfl
@[simp] theorem Result.retire_fault (r : Result) : r.retire.fault = r.state.fault := by
  simp only [Result.retire]; split
  · rfl
  · split <;> rfl
@[simp] theorem Result.retire_irqenDone (r : Result) : r.retire.irqenDone = r.state.irqenDone := by
  simp only [Result.retire]; split
  · rfl
  · split <;> rfl
@[simp] theorem Result.retire_irqenErr (r : Result) : r.retire.irqenErr = r.state.irqenErr := by
  simp only [Result.retire]; split
  · rfl
  · split <;> rfl
@[simp] theorem Result.retire_irqpendErr (r : Result) : r.retire.irqpendErr = r.state.irqpendErr := by
  simp only [Result.retire]; split
  · rfl
  · split <;> rfl
@[simp] theorem Result.retire_kst (r : Result) : r.retire.kst = r.state.kst := by
  simp only [Result.retire]; split
  · rfl
  · split <;> rfl
@[simp] theorem Result.retire_mem (r : Result) : r.retire.mem = r.state.mem := by
  simp only [Result.retire]; split
  · rfl
  · split <;> rfl
@[simp] theorem Result.retire_params (r : Result) : r.retire.params = r.state.params := by
  simp only [Result.retire]; split
  · rfl
  · split <;> rfl
@[simp] theorem Result.retire_epoch (r : Result) : r.retire.epoch = r.state.epoch := by
  simp only [Result.retire]; split
  · rfl
  · split <;> rfl
@[simp] theorem Result.retire_freeCtr (r : Result) : r.retire.freeCtr = r.state.freeCtr := by
  simp only [Result.retire]; split
  · rfl
  · split <;> rfl
@[simp] theorem Result.retire_bus (r : Result) : r.retire.bus = r.state.bus := by
  simp only [Result.retire]; split
  · rfl
  · split <;> rfl
@[simp] theorem Result.retire_rdata (r : Result) : r.retire.rdata = r.state.rdata := by
  simp only [Result.retire]; split
  · rfl
  · split <;> rfl
@[simp] theorem Result.retire_pc (r : Result) : r.retire.pc = r.pc := by
  simp only [Result.retire]; split
  · rfl
  · split <;> rfl
@[simp] theorem Result.retire_instret (r : Result) : r.retire.instret = r.state.instret + 1 := by
  simp only [Result.retire]; split
  · rfl
  · split <;> rfl

end Sys2Proof.Machine
end

