-- ==== Sys2Proof/Laws/Registers.lean ====
section
/-! SUPPORT. Reading a register, a counter or a constant after an update, and the active width. -/

namespace Sys2Proof.Machine

/-! ## Element registers -/

theorem State.getE_setE (s : State) (i j : Nat) (v : Word) :
    (s.setE i v).getE j = if i = j ∧ i < 64 then v else s.getE j := by
  simp only [State.getE, State.setE_e, Vector.getD]
  by_cases h : i = j
  · subst h
    by_cases h2 : i < 64 <;> simp [h2]
  · by_cases h2 : j < 64 <;> simp [h, h2]

theorem State.getE_setE_self (s : State) (i : Nat) (v : Word) (h : i < 64) : (s.setE i v).getE i = v := by
  simp [State.getE_setE, h]

theorem State.getE_setE_ne (s : State) (i j : Nat) (v : Word) (h : i ≠ j) : (s.setE i v).getE j = s.getE j := by
  simp [State.getE_setE, h]

/-- Registers outside a written group keep their words. -/
theorem State.getE_setGroup_out (s : State) (i j : Nat) (ws : List Word) (h : j < i ∨ i + ws.length ≤ j) :
    (s.setGroup i ws).getE j = s.getE j := by
  induction ws generalizing s i with
  | nil => rfl
  | cons w ws ih =>
    rw [List.length_cons] at h
    rw [State.setGroup, ih _ _ (by omega), State.getE_setE_ne _ _ _ _ (by omega)]

/-- Registers of a written group hold the words written. -/
theorem State.getE_setGroup_in (s : State) (i k : Nat) (ws : List Word) (hk : k < ws.length) (h : i + ws.length ≤ 64) :
    (s.setGroup i ws).getE (i + k) = ws[k] := by
  induction ws generalizing s i k with
  | nil => simp at hk
  | cons w ws ih =>
    rw [List.length_cons] at h
    cases k with
    | zero =>
      rw [State.setGroup, State.getE_setGroup_out _ _ _ _ (by omega), Nat.add_zero, State.getE_setE_self _ _ _ (by omega)]
      rfl
    | succ k =>
      rw [State.setGroup, show i + (k + 1) = i + 1 + k by omega, ih _ _ _ (by simpa using hk) (by omega)]
      rfl

/-- A read of a register depends on the register file alone. -/
theorem State.getE_congr {s t : State} (h : t.e = s.e) (i : Nat) : t.getE i = s.getE i := by simp [State.getE, h]

/-! ## Counters and constants -/

theorem State.getC_setC (s : State) (i j : Ctr) (v : Half) : (s.setC i v).getC j = if i = j then v else s.getC j := by
  simp only [State.getC, State.setC_c, Vector.getElem_set]
  by_cases h : i = j
  · simp [h]
  · simp [h, Fin.val_ne_of_ne h]

theorem State.getC_congr {s t : State} (h : t.c = s.c) (i : Ctr) : t.getC i = s.getC i := by simp [State.getC, h]

theorem State.getK_congr {s t : State} (h : t.kst = s.kst) (k : Nat) : t.getK k = s.getK k := by simp [State.getK, h]

/-! ## The active width -/

theorem State.limbs_congr {s t : State} (h : t.nlimbs = s.nlimbs) : t.limbs = s.limbs := by simp [State.limbs, h]

theorem State.width_congr {s t : State} (h : t.nlimbs = s.nlimbs) : t.width = s.width := by
  simp [State.width, State.limbs_congr h]

theorem State.radix_congr {s t : State} (h : t.nlimbs = s.nlimbs) : t.radix = s.radix := by
  simp [State.radix, State.width_congr h]

theorem State.p_congr {s t : State} (hn : t.nlimbs = s.nlimbs) (hm : t.modp = s.modp) : t.p = s.p := by
  simp [State.p, State.radix_congr hn, hm]

theorem State.width_le (s : State) : s.width ≤ 384 := by
  have := s.nlimbs.isLt
  simp only [State.width, State.limbs]
  omega

theorem State.radix_pos (s : State) : 0 < s.radix := Nat.two_pow_pos _

theorem State.radix_le (s : State) : s.radix ≤ 2 ^ 384 := by
  unfold State.radix
  exact Nat.pow_le_pow_right (Nat.succ_pos 1) s.width_le

/-- The modulus is below R (R54). -/
theorem State.p_lt_radix (s : State) : s.p < s.radix := Nat.mod_lt _ s.radix_pos

theorem State.w_lt_radix (s : State) (i : Nat) : s.w i < s.radix := Nat.mod_lt _ s.radix_pos

theorem State.kw_lt_radix (s : State) (k : Nat) : s.kw k < s.radix := Nat.mod_lt _ s.radix_pos

/-- A W-bit number survives the way through a register (R16). -/
theorem wordOf_toNat_of_lt (s : State) (n : Nat) (h : n < s.radix) : (wordOf n).toNat = n := by
  rw [wordOf, BitVec.toNat_ofNat]
  exact Nat.mod_eq_of_lt (Nat.lt_of_lt_of_le h s.radix_le)

/-! ## Elements in registers -/

theorem degree_pos (ft : FieldType) : 0 < degree ft := by cases ft <;> decide

theorem degree_le (ft : FieldType) : degree ft ≤ 12 := by cases ft <;> decide

/-- deg(ft) is the degree of the ring (R17). -/
theorem ringOf_deg (p : Nat) (kv : Nat → Nat) (ft : FieldType) : (ringOf p kv ft).deg = degree ft := by cases ft <;> rfl

/-- An element of F_ft has deg(ft) coefficients (R18). -/
theorem ringOf_coeffs_length (p : Nat) (kv : Nat → Nat) (ft : FieldType) (x : Elt ft) :
    ((ringOf p kv ft).coeffs x).length = degree ft := by
  cases ft <;> rfl

end Sys2Proof.Machine
end

