-- ==== Sys2Proof/Laws/Perform.lean ====
section
/-! SUPPORT. What the shared course of an instruction can do: `perform`, the common checks, retirement, taking a fault. -/

namespace Sys2Proof.Machine

/-! ## perform -/

/-- Everything `perform` can answer: a next state, by one of four ways. -/
theorem perform_cases (i : Instr) (s : State) (run : State → Except FaultInfo Result) :
    (i.wellFormed = false ∧ perform i s run = .next (s.takeFault .illegalInsn 2 (encode i)))
      ∨ (∃ f, i.wellFormed = true ∧ s.commonChecks (operandsOf i) = some f
          ∧ perform i s run = .next (s.takeFault f.1 f.2 (encode i)))
      ∨ (∃ f, i.wellFormed = true ∧ s.commonChecks (operandsOf i) = none ∧ run s = .error f
          ∧ perform i s run = .next (s.takeFault f.1 f.2 (encode i)))
      ∨ (∃ r, i.wellFormed = true ∧ s.commonChecks (operandsOf i) = none ∧ run s = .ok r
          ∧ perform i s run = .next r.retire) := by
  unfold perform
  cases hw : i.wellFormed with
  | false => exact .inl ⟨rfl, rfl⟩
  | true =>
    cases hc : s.commonChecks (operandsOf i) with
    | some f => exact .inr (.inl ⟨f, rfl, rfl, rfl⟩)
    | none =>
      cases hr : run s with
      | error f => exact .inr (.inr (.inl ⟨f, rfl, rfl, rfl, rfl⟩))
      | ok r => exact .inr (.inr (.inr ⟨r, rfl, rfl, rfl, rfl⟩))

theorem perform_illegal {i : Instr} {s : State} {run : State → Except FaultInfo Result} (h : i.wellFormed = false) :
    perform i s run = .next (s.takeFault .illegalInsn 2 (encode i)) := by
  simp [perform, h, Illegal.subcode]

theorem perform_check {i : Instr} {s : State} {run : State → Except FaultInfo Result} {f : FaultInfo}
    (h : i.wellFormed = true) (hc : s.commonChecks (operandsOf i) = some f) :
    perform i s run = .next (s.takeFault f.1 f.2 (encode i)) := by
  simp [perform, h, hc]

theorem perform_error {i : Instr} {s : State} {run : State → Except FaultInfo Result} {f : FaultInfo}
    (h : i.wellFormed = true) (hc : s.commonChecks (operandsOf i) = none) (hr : run s = .error f) :
    perform i s run = .next (s.takeFault f.1 f.2 (encode i)) := by
  simp [perform, h, hc, hr]

theorem perform_ok {i : Instr} {s : State} {run : State → Except FaultInfo Result} {r : Result}
    (h : i.wellFormed = true) (hc : s.commonChecks (operandsOf i) = none) (hr : run s = .ok r) :
    perform i s run = .next r.retire := by
  simp [perform, h, hc, hr]

/-- A term that no word encodes takes the illegal field type of its encoding (log 15). -/
theorem exec_illegal {i : Instr} {s : State} (h : i.wellFormed = false) :
    exec i s = .next (s.takeFault .illegalInsn 2 (encode i)) := by
  cases i <;> simp only [exec, execFadd, execFsub, execFneg, execFmul, execFsqr, execFinv, execFfrob, execFconj, execFcsqr,
      execFcexp, execFpow, execFzero, execFone, execTom, execFromm, execMov, execLdk, execLd, execSt, execBadd,
      execBsub, execBmul, execBredc, execBcmp, execBseti, execPadd, execPmadd, execPdbl, execPneg, execPaff,
      execPonc, execPmulq, execLdbl, execLadd, execFmul024, execMlacc, execMldbl, execMladd, execJmp, execBf,
      execBbs, execBbc, execBcnz, execCset, execCaddi, execCblen, execNop, execHalt] <;> exact perform_illegal h

/-- A common check that fails is the fault taken, whatever the instruction (R503). -/
theorem exec_check {i : Instr} {s : State} {f : FaultInfo} (h : i.wellFormed = true)
    (hc : s.commonChecks (operandsOf i) = some f) : exec i s = .next (s.takeFault f.1 f.2 (encode i)) := by
  cases i <;> simp only [exec, execFadd, execFsub, execFneg, execFmul, execFsqr, execFinv, execFfrob, execFconj, execFcsqr,
      execFcexp, execFpow, execFzero, execFone, execTom, execFromm, execMov, execLdk, execLd, execSt, execBadd,
      execBsub, execBmul, execBredc, execBcmp, execBseti, execPadd, execPmadd, execPdbl, execPneg, execPaff,
      execPonc, execPmulq, execLdbl, execLadd, execFmul024, execMlacc, execMldbl, execMladd, execJmp, execBf,
      execBbs, execBbc, execBcnz, execCset, execCaddi, execCblen, execNop, execHalt] <;> exact perform_check h hc

/-- An instruction always answers a next state: the block's own faults are next states (R510). -/
theorem exec_next (i : Instr) (s : State) : ∃ t, exec i s = .next t := by
  cases i <;> exact ⟨_, rfl⟩

/-! ## The common checks -/

/-- No common check fails exactly when each of the seven passes. -/
theorem State.commonChecks_none (s : State) (o : Operands) :
    s.commonChecks o = none
      ↔ checkRegRange o = none ∧ checkKRange o = none ∧ checkOverlap o = none ∧ checkConfig s o = none
        ∧ checkDmem s o = none ∧ checkReducedRegs s o = none ∧ checkReducedKst s o = none := by
  simp [State.commonChecks, List.findSome?_eq_none_iff]

theorem checkRegRange_none (o : Operands) : checkRegRange o = none ↔ ∀ g ∈ o.groups, Fits g.base g.size := by
  simp [checkRegRange, Group.pastEnd, Fits]

theorem checkKRange_none (o : Operands) : checkKRange o = none ↔ ∀ k n, o.kGroup = some (k, n) → k + n ≤ 128 := by
  unfold checkKRange
  rcases o.kGroup with _ | ⟨k, n⟩
  · simp
  · by_cases h : 128 < k + n
    · simp [h]
    · simp [h]; omega

theorem checkConfig_none (s : State) (o : Operands) : checkConfig s o = none ↔ o.config = true → s.cfgok = true := by
  unfold checkConfig
  cases o.config <;> cases s.cfgok <;> simp

theorem checkDmem_none (s : State) (o : Operands) :
    checkDmem s o = none ↔ ∀ cb off d, o.dmem = some (cb, off, d) → s.dmemEa cb off + d ≤ s.params.dmemWords := by
  unfold checkDmem
  rcases o.dmem with _ | ⟨cb, off, d⟩
  · simp
  · by_cases h : s.params.dmemWords < s.dmemEa cb off + d
    · simp only [h, if_true, reduceCtorEq, Option.some.injEq, Prod.mk.injEq, false_iff]
      intro hall
      have := hall cb off d ⟨rfl, rfl, rfl⟩
      omega
    · simp only [h, if_false, Option.some.injEq, Prod.mk.injEq, true_iff]
      rintro _ _ _ ⟨rfl, rfl, rfl⟩
      omega

theorem checkReducedRegs_none (s : State) (o : Operands) :
    checkReducedRegs s o = none ↔ ∀ i ∈ o.checkedRegs, s.w i < s.p := by
  simp [checkReducedRegs]

theorem checkReducedKst_none (s : State) (o : Operands) : checkReducedKst s o = none ↔ s.KstReduced o.kst := by
  simp [checkReducedKst, State.KstReduced]

/-- Groups that do not meet are apart. -/
theorem Group.meets_false {g h : Group} (hg : Apart g.base g.size h.base h.size) : g.meets h = false := by
  unfold Apart at hg
  simp only [Group.meets, Bool.and_eq_false_iff, decide_eq_false_iff_not]
  omega

/-! ## Retirement -/

/-- Retirement of an instruction other than HALT, in one record. -/
theorem Result.retire_of_not_halt (s : State) (q : Half) :
    ({ state := s, pc := q, halt := false } : Result).retire = s.retired q := by
  unfold Result.retire State.retired
  cases hs : s.stepPending <;> cases hh : s.haltRequested <;> simp [hs, hh]

@[simp] theorem State.fallThrough_retire (s : State) : s.fallThrough.retire = s.retired (s.pc + 1) :=
  Result.retire_of_not_halt s _

@[simp] theorem State.branch_retire (s : State) (b : Bool) (q : Half) :
    (s.branch b q).retire = s.retired (if b then q else s.pc + 1) :=
  Result.retire_of_not_halt s _

end Sys2Proof.Machine
end

