-- ==== Sys2Proof/Laws/Exec.lean ====
section
/-! SUPPORT. Everything `exec` can do, said once: an instruction takes a fault, or retires a result that keeps all but what its
rules let it write. -/

namespace Sys2Proof.Machine

/-- What no instruction writes before it retires: KST, the configuration, the host's bits, SEQ, INSTRET, the fault record, the
parameters and the model's own records but the free-value counter. -/
def Result.KeepsFixed (s : State) (r : Result) : Prop :=
  r.state.kst = s.kst ∧ r.state.nlimbs = s.nlimbs ∧ r.state.modp = s.modp ∧ r.state.pinv = s.pinv ∧ r.state.rsq =
    s.rsq ∧ r.state.rone = s.rone ∧ r.state.cfgok = s.cfgok ∧ r.state.cfgstat = s.cfgstat ∧ r.state.herr = s.herr ∧
    r.state.irqenDone = s.irqenDone ∧ r.state.irqenErr = s.irqenErr ∧ r.state.irqpendDone = s.irqpendDone ∧
    r.state.irqpendErr = s.irqpendErr ∧ r.state.params = s.params ∧ r.state.epoch = s.epoch ∧ r.state.bus = s.bus ∧
    r.state.rdata = s.rdata ∧ r.state.instret = s.instret ∧ r.state.seq = s.seq ∧ r.state.stepPending =
    s.stepPending ∧ r.state.haltRequested = s.haltRequested ∧ r.state.fault = s.fault

/-- What the result of an instruction keeps of the state it started from, before retirement, and where its pc may be. -/
def Result.Keeps (i : Instr) (s : State) (r : Result) : Prop :=
  r.halt = isHalt i ∧ (r.pc = s.pc + 1 ∨ branchTarget i = some r.pc) ∧ r.KeepsFixed s
    ∧ (i.opcode ≠ .fcsqr → i.opcode ≠ .fcexp → r.state.freeCtr = s.freeCtr)
    ∧ (i.opcode ≠ .st → r.state.mem = s.mem)
    ∧ (∀ c : Ctr, destCtr i ≠ some c → r.state.getC c = s.getC c)
    ∧ (i.opcode ≠ .badd → i.opcode ≠ .bsub → r.state.flC = s.flC)
    ∧ (i.opcode ≠ .bcmp → i.opcode ≠ .ponc → r.state.flEq = s.flEq)
    ∧ (i.opcode ≠ .bcmp → r.state.flLt = s.flLt)

/-- HALT passes every common check. -/
theorem commonChecks_halt (s : State) : s.commonChecks (operandsOf .halt) = none := rfl

/-- The answer of an instruction is a fault of its own word, or the retirement of a result that keeps what it must. -/
theorem exec_cases {i : Instr} {s t : State} (h : exec i s = .next t) :
    (isHalt i = false ∧ ∃ cause einfo, t = s.takeFault cause einfo (encode i))
      ∨ ∃ r : Result, t = r.retire ∧ r.Keeps i s := by
  cases i <;>
    simp only [exec, execFadd, execFsub, execFneg, execFmul, execFsqr, execFinv, execFfrob, execFconj, execFcsqr, execFcexp,
      execFpow, execFzero, execFone, execTom, execFromm, execMov, execLdk, execLd, execSt, execBadd, execBsub,
      execBmul, execBredc, execBcmp, execBseti, execPadd, execPmadd, execPdbl, execPneg, execPaff, execPonc,
      execPmulq, execLdbl, execLadd, execFmul024, execMlacc, execMldbl, execMladd, execJmp, execBf, execBbs, execBbc,
      execBcnz, execCset, execCaddi, execCblen, execNop, execHalt] at h
  all_goals
    obtain ⟨hw, h'⟩ | ⟨f, hw, hc, h'⟩ | ⟨f, hw, hc, hr, h'⟩ | ⟨r, hw, hc, hr, h'⟩ := perform_cases _ _ _ <;>
      (rw [h] at h'; injection h' with h')
    · first
        | exact .inl ⟨rfl, _, _, h'⟩
        | exact absurd hw (by simp [Instr.wellFormed])
    · first
        | exact .inl ⟨rfl, _, _, h'⟩
        | (rw [commonChecks_halt] at hc; cases hc)
    · first
        | exact .inl ⟨rfl, _, _, h'⟩
        | cases hr
    · refine .inr ⟨r, h', ?_⟩
      simp only [State.fallThrough, State.branch] at hr
      (repeat' split at hr) <;> first
        | (injection hr with hr
           subst hr
           first
             | (simp [Result.Keeps, Result.KeepsFixed, isHalt, Instr.opcode, branchTarget, destCtr, State.getC]; done)
             | (simp [Result.Keeps, Result.KeepsFixed, isHalt, Instr.opcode, branchTarget, destCtr, State.getC_setC]
                intro c hc e
                exact absurd e hc))
        | cases hr

/-- An instruction that takes no fault retires. -/
theorem exec_retires {i : Instr} {s t : State} (h : exec i s = .next t)
    (hf : ∀ cause einfo, t ≠ s.takeFault cause einfo (encode i)) : ∃ r : Result, t = r.retire ∧ r.Keeps i s := by
  obtain ⟨-, cause, einfo, ht⟩ | hr := exec_cases h
  · exact absurd ht (hf cause einfo)
  · exact hr

end Sys2Proof.Machine
end

