-- ==== Sys2Proof/Laws/Memory.lean ====
section
/-! SUPPORT. What the memory operations do: a stored byte reads back, every other byte stays, and the canonical form is kept. -/

namespace Sys2Proof.Machine

/-! ## Bytes and numbers -/

@[simp] theorem bytesOfNat_length (n v : Nat) : (bytesOfNat n v).length = n := by
  induction n generalizing v with
  | zero => rfl
  | succ n ih => simp [bytesOfNat, ih]

theorem bytesOfNat_getElem? (n v k : Nat) (h : k < n) : (bytesOfNat n v)[k]? = some (BitVec.ofNat 8 (v / 256 ^ k)) := by
  induction n generalizing v k with
  | zero => omega
  | succ n ih =>
    cases k with
    | zero => simp [bytesOfNat]
    | succ k =>
      have := ih (v / 256) k (by omega)
      simp only [bytesOfNat, List.getElem?_cons_succ, this, Nat.div_div_eq_div_mul, Nat.pow_succ]
      rw [Nat.mul_comm]

theorem natOfBytes_bytesOfNat (n v : Nat) : natOfBytes (bytesOfNat n v) = v % 256 ^ n := by
  induction n generalizing v with
  | zero => simp [bytesOfNat, natOfBytes, Nat.mod_one]
  | succ n ih =>
    simp only [bytesOfNat, natOfBytes, ih, BitVec.toNat_ofNat]
    rw [show 2 ^ 8 = 256 from rfl, Nat.pow_succ, Nat.mul_comm (256 ^ n) 256, Nat.mod_mul]

theorem natOfBytes_lt (bs : List Byte) : natOfBytes bs < 256 ^ bs.length := by
  induction bs with
  | nil => simp [natOfBytes]
  | cons b bs ih =>
    have hb := b.isLt
    simp only [natOfBytes, List.length_cons, Nat.pow_succ]
    omega

/-! ## Cells -/

theorem Memory.mem_cellsFrom {a : Nat} {bs : List Byte} {c : Host.Cell} (h : c ∈ Memory.cellsFrom a bs) :
    a ≤ c.1 ∧ c.1 < a + bs.length := by
  induction bs generalizing a with
  | nil => simp [Memory.cellsFrom] at h
  | cons b bs ih =>
    simp only [Memory.cellsFrom, List.mem_cons] at h
    rcases h with rfl | h
    · simp
    · have := ih h
      simp only [List.length_cons]
      omega

theorem Memory.cellsFrom_wf (a : Nat) (bs : List Byte) : Memory.wf (Memory.cellsFrom a bs) := by
  induction bs generalizing a with
  | nil => exact List.Pairwise.nil
  | cons b bs ih =>
    exact List.Pairwise.cons (fun c hc => by have := Memory.mem_cellsFrom hc; simp only; omega) (ih (a + 1))

theorem Memory.cellsFrom_find? (a k : Nat) (bs : List Byte) :
    (Memory.cellsFrom a bs).find? (fun cell => cell.1 == a + k) = bs[k]?.map fun b => (a + k, b) := by
  induction bs generalizing a k with
  | nil => simp [Memory.cellsFrom]
  | cons b bs ih =>
    cases k with
    | zero => simp [Memory.cellsFrom]
    | succ k =>
      have := ih (a + 1) k
      rw [show a + 1 + k = a + (k + 1) by omega] at this
      rw [Memory.cellsFrom, List.find?_cons_of_neg (by simp), this]
      simp

theorem Memory.filter_find? (m : Memory) (q : Nat → Bool) (x : Nat) :
    (m.filter fun cell => q cell.1).find? (fun cell => cell.1 == x)
      = if q x then m.find? (fun cell => cell.1 == x) else none := by
  induction m with
  | nil => simp
  | cons c m ih =>
    rw [List.filter_cons]
    by_cases hq : q c.1 = true
    · rw [if_pos hq, List.find?_cons, List.find?_cons, ih]
      by_cases hc : c.1 = x
      · subst hc
        simp [hq]
      · rw [beq_false_of_ne hc]
    · rw [if_neg hq, ih, List.find?_cons]
      by_cases hc : c.1 = x
      · subst hc
        simp [hq]
      · rw [beq_false_of_ne hc]

/-! ## Store -/

/-- A stored byte reads back. -/
theorem Memory.byteAt?_store_in (m : Memory) (a k : Nat) (bs : List Byte) (h : k < bs.length) :
    (m.store a bs).byteAt? (a + k) = bs[k]? := by
  simp only [Memory.byteAt?, Memory.store, List.find?_append]
  have h1 := Memory.filter_find? m (fun y => decide (y < a)) (a + k)
  simp only [show ¬ a + k < a by omega, decide_false, Bool.false_eq_true, if_false] at h1
  rw [h1, Memory.cellsFrom_find?, List.getElem?_eq_getElem h]
  simp

/-- Every other byte stays. -/
theorem Memory.byteAt?_store_out (m : Memory) (a x : Nat) (bs : List Byte) (h : x < a ∨ a + bs.length ≤ x) :
    (m.store a bs).byteAt? x = m.byteAt? x := by
  simp only [Memory.byteAt?, Memory.store, List.find?_append]
  have h1 := Memory.filter_find? m (fun y => decide (y < a)) x
  have h2 := Memory.filter_find? m (fun y => decide (a + bs.length ≤ y)) x
  have h3 : (Memory.cellsFrom a bs).find? (fun cell => cell.1 == x) = none := by
    rw [List.find?_eq_none]
    intro c hc
    have := Memory.mem_cellsFrom hc
    simp only [beq_iff_eq]
    omega
  rw [h1, h2, h3]
  rcases h with h | h
  · have : ¬ a + bs.length ≤ x := by omega
    simp [h, this]
  · have : ¬ x < a := by omega
    simp [h, this]

theorem Memory.mem_store {m : Memory} {a : Nat} {bs : List Byte} {c : Host.Cell} (h : c ∈ m.store a bs) :
    c ∈ m ∨ (a ≤ c.1 ∧ c.1 < a + bs.length) := by
  simp only [Memory.store, List.mem_append, List.mem_filter] at h
  rcases h with (h | h) | h
  · exact .inl h.1
  · exact .inr (Memory.mem_cellsFrom h)
  · exact .inl h.1

/-- Every store keeps the canonical form. -/
theorem Memory.store_wf {m : Memory} (h : m.wf) (a : Nat) (bs : List Byte) : (m.store a bs).wf := by
  simp only [Memory.store, Memory.wf, List.pairwise_append, List.mem_append, List.mem_filter, decide_eq_true_eq]
  refine ⟨⟨h.filter _, Memory.cellsFrom_wf a bs, ?_⟩, h.filter _, ?_⟩
  · intro x hx y hy
    have := Memory.mem_cellsFrom hy
    omega
  · rintro x (hx | hx) y hy
    · omega
    · have := Memory.mem_cellsFrom hx
      omega

/-! ## The state -/

theorem State.readByte_storeBytes_in (s : State) (a k : Nat) (bs : List Byte) (h : k < bs.length) :
    (s.storeBytes a bs).readByte (a + k) = bs[k] := by
  simp [State.readByte, Memory.byteAt?_store_in _ _ _ _ h, List.getElem?_eq_getElem h]

theorem State.readByte_storeBytes_out (s : State) (a x : Nat) (bs : List Byte) (h : x < a ∨ a + bs.length ≤ x) :
    (s.storeBytes a bs).readByte x = s.readByte x := by
  simp [State.readByte, Memory.byteAt?_store_out _ _ _ _ h]

/-- A byte reads the same in two states with the same memory and the same epoch. -/
theorem State.readByte_congr {s t : State} (hm : t.mem = s.mem) (he : t.epoch = s.epoch) (a : Nat) :
    t.readByte a = s.readByte a := by
  simp [State.readByte, hm, he]

/-- What DMemWrite leaves alone. -/
theorem State.readByte_dmemWrite_out (s : State) (ea x : Nat) (ws : List Word)
    (h : ∀ j, j < ws.length → x < dmemAddr (ea + j) ∨ dmemAddr (ea + j) + 48 ≤ x) :
    (s.dmemWrite ea ws).readByte x = s.readByte x := by
  induction ws generalizing s ea with
  | nil => rfl
  | cons w ws ih =>
    rw [State.dmemWrite, ih]
    · exact State.readByte_storeBytes_out _ _ _ _ (by have := h 0 (by simp); simpa using this)
    · intro j hj
      have := h (j + 1) (by simpa using hj)
      rwa [show ea + (j + 1) = ea + 1 + j by omega] at this

/-- What DMemWrite stores: byte `k` of word `j`. -/
theorem State.readByte_dmemWrite_in (s : State) (ea j k : Nat) (ws : List Word) (hj : j < ws.length) (hk : k < 48) :
    (s.dmemWrite ea ws).readByte (dmemAddr (ea + j) + k) = BitVec.ofNat 8 (ws[j].toNat / 256 ^ k) := by
  induction ws generalizing s ea j with
  | nil => simp at hj
  | cons w ws ih =>
    cases j with
    | zero =>
      rw [State.dmemWrite, State.readByte_dmemWrite_out]
      · have := State.readByte_storeBytes_in s (dmemAddr ea) k (bytesOfNat 48 w.toNat) (by simpa using hk)
        have hb := bytesOfNat_getElem? 48 w.toNat k hk
        rw [List.getElem?_eq_getElem (by simpa using hk)] at hb
        simp only [Nat.add_zero, List.getElem_cons_zero]
        rw [this]
        exact Option.some.inj hb
      · intro i _
        simp only [dmemAddr]
        omega
    | succ j =>
      rw [State.dmemWrite, show ea + (j + 1) = ea + 1 + j by omega]
      simpa using ih (s.storeBytes (dmemAddr ea) (bytesOfNat 48 w.toNat)) (ea + 1) j (by simpa using hj)

theorem State.dmemWrite_wf (s : State) (ea : Nat) (ws : List Word) (h : s.mem.wf) : (s.dmemWrite ea ws).mem.wf := by
  induction ws generalizing s ea with
  | nil => exact h
  | cons w ws ih => exact ih _ _ (Memory.store_wf h _ _)

theorem State.mem_dmemWrite {s : State} {ea : Nat} {ws : List Word} {c : Host.Cell} (h : c ∈ (s.dmemWrite ea ws).mem) :
    c ∈ s.mem ∨ ∃ j, j < ws.length ∧ dmemAddr (ea + j) ≤ c.1 ∧ c.1 < dmemAddr (ea + j) + 48 := by
  induction ws generalizing s ea with
  | nil => exact .inl h
  | cons w ws ih =>
    rcases ih h with h | ⟨j, hj, h⟩
    · rcases Memory.mem_store h with h | h
      · exact .inl h
      · exact .inr ⟨0, by simp, by simpa using h⟩
    · refine .inr ⟨j + 1, by simpa using hj, ?_⟩
      rwa [show ea + (j + 1) = ea + 1 + j by omega]

/-- The memory right after reset is in canonical form. -/
theorem State.reset_mem_wf : State.reset.mem.wf := List.Pairwise.nil

end Sys2Proof.Machine
end

