-- ==== Sys2Proof/Laws/PerInstr.lean ====
section
/-! SUPPORT. The per-instruction family OpcodeField: the word that encodes an instruction has the instruction's opcode in bits
[31:26] (30_encoding R141, R156). -/

namespace Sys2Proof.Laws.OpcodeField

open Sys2Proof

/-- Bits [31:26] of the instruction's word are its opcode. -/
def Statement (i : Instr) : Prop := (encode i).field 26 6 = i.opcode.code

/-- The opcode field of a word whose other fields stay below bit 26. -/
theorem opcode_field (op low : Nat) (hop : op < 64) (hlow : low < 2 ^ 26) :
    InsnWord.field (BitVec.ofNat 32 (op * 2 ^ 26 + low)) 26 6 = op := by
  simp only [InsnWord.field, BitVec.toNat_ofNat]
  omega

theorem Opcode.code_lt (op : Opcode) : op.code < 64 := by cases op <;> decide

theorem FieldType.code_lt (ft : FieldType) : ft.code < 8 := by cases ft <;> decide

theorem Cond.code_lt (c : Cond) : c.code < 8 := by cases c <;> decide

theorem encR_field (op : Opcode) {ft rd rs1 rs2 aux : Nat} (h0 : ft < 8) (h1 : rd < 64) (h2 : rs1 < 64) (h3 : rs2 < 64)
    (h4 : aux < 32) : (encR op ft rd rs1 rs2 aux).field 26 6 = op.code := by
  have := opcode_field op.code (ft * 2 ^ 23 + rd * 2 ^ 17 + rs1 * 2 ^ 11 + rs2 * 2 ^ 5 + aux) (Opcode.code_lt op) (by omega)
  simpa only [encR, Nat.add_assoc] using this

theorem encK_field (op : Opcode) {ft rd k : Nat} (h0 : ft < 8) (h1 : rd < 64) (h2 : k < 128) :
    (encK op ft rd k).field 26 6 = op.code := by
  have := opcode_field op.code (ft * 2 ^ 23 + rd * 2 ^ 17 + k * 2 ^ 10) (Opcode.code_lt op) (by omega)
  simpa only [encK, Nat.add_assoc] using this

theorem encM_field (op : Opcode) {ft r cb off : Nat} (h0 : ft < 8) (h1 : r < 64) (h2 : cb < 8) (h3 : off < 16384) :
    (encM op ft r cb off).field 26 6 = op.code := by
  have := opcode_field op.code (ft * 2 ^ 23 + r * 2 ^ 17 + cb * 2 ^ 14 + off) (Opcode.code_lt op) (by omega)
  simpa only [encM, Nat.add_assoc] using this

theorem encI_field (op : Opcode) {top rd imm : Nat} (h0 : top < 8) (h1 : rd < 64) (h2 : imm < 65536) :
    (encI op top rd imm).field 26 6 = op.code := by
  have := opcode_field op.code (top * 2 ^ 23 + rd * 2 ^ 17 + imm) (Opcode.code_lt op) (by omega)
  simpa only [encI, Nat.add_assoc] using this

theorem encA_field (op : Opcode) {cd cs imm : Nat} (h0 : cd < 8) (h1 : cs < 8) (h2 : imm < 65536) :
    (encA op cd cs imm).field 26 6 = op.code := by
  have := opcode_field op.code (cd * 2 ^ 23 + cs * 2 ^ 20 + imm) (Opcode.code_lt op) (by omega)
  simpa only [encA, Nat.add_assoc] using this

theorem fadd (ft : FieldType) (rd rs1 rs2 : Reg) : Statement (.fadd ft rd rs1 rs2) :=
  encR_field .fadd (FieldType.code_lt ft) rd.isLt rs1.isLt rs2.isLt (by decide)

theorem fsub (ft : FieldType) (rd rs1 rs2 : Reg) : Statement (.fsub ft rd rs1 rs2) :=
  encR_field .fsub (FieldType.code_lt ft) rd.isLt rs1.isLt rs2.isLt (by decide)

theorem fneg (ft : FieldType) (rd rs1 : Reg) : Statement (.fneg ft rd rs1) :=
  encR_field .fneg (FieldType.code_lt ft) rd.isLt rs1.isLt (by decide) (by decide)

theorem fmul (ft : FieldType) (rd rs1 rs2 : Reg) : Statement (.fmul ft rd rs1 rs2) :=
  encR_field .fmul (FieldType.code_lt ft) rd.isLt rs1.isLt rs2.isLt (by decide)

theorem fsqr (ft : FieldType) (rd rs1 : Reg) : Statement (.fsqr ft rd rs1) :=
  encR_field .fsqr (FieldType.code_lt ft) rd.isLt rs1.isLt (by decide) (by decide)

theorem finv (ft : FieldType) (rd rs1 : Reg) : Statement (.finv ft rd rs1) :=
  encR_field .finv (FieldType.code_lt ft) rd.isLt rs1.isLt (by decide) (by decide)

theorem ffrob (ft : FieldType) (rd rs1 : Reg) (k : Fin 32) : Statement (.ffrob ft rd rs1 k) :=
  encR_field .ffrob (FieldType.code_lt ft) rd.isLt rs1.isLt (by decide) k.isLt

theorem fconj (ft : FieldType) (rd rs1 : Reg) : Statement (.fconj ft rd rs1) :=
  encR_field .fconj (FieldType.code_lt ft) rd.isLt rs1.isLt (by decide) (by decide)

theorem fcsqr (ft : FieldType) (rd rs1 : Reg) : Statement (.fcsqr ft rd rs1) :=
  encR_field .fcsqr (FieldType.code_lt ft) rd.isLt rs1.isLt (by decide) (by decide)

theorem fcexp (ft : FieldType) (rd rs1 rs2 : Reg) : Statement (.fcexp ft rd rs1 rs2) :=
  encR_field .fcexp (FieldType.code_lt ft) rd.isLt rs1.isLt rs2.isLt (by decide)

theorem fpow (ft : FieldType) (rd rs1 rs2 : Reg) : Statement (.fpow ft rd rs1 rs2) :=
  encR_field .fpow (FieldType.code_lt ft) rd.isLt rs1.isLt rs2.isLt (by decide)

theorem fzero (ft : FieldType) (rd : Reg) : Statement (.fzero ft rd) :=
  encR_field .fzero (FieldType.code_lt ft) rd.isLt (by decide) (by decide) (by decide)

theorem fone (ft : FieldType) (rd : Reg) : Statement (.fone ft rd) :=
  encR_field .fone (FieldType.code_lt ft) rd.isLt (by decide) (by decide) (by decide)

theorem tom (ft : FieldType) (rd rs1 : Reg) : Statement (.tom ft rd rs1) :=
  encR_field .tom (FieldType.code_lt ft) rd.isLt rs1.isLt (by decide) (by decide)

theorem fromm (ft : FieldType) (rd rs1 : Reg) : Statement (.fromm ft rd rs1) :=
  encR_field .fromm (FieldType.code_lt ft) rd.isLt rs1.isLt (by decide) (by decide)

theorem mov (ft : FieldType) (rd rs1 : Reg) : Statement (.mov ft rd rs1) :=
  encR_field .mov (FieldType.code_lt ft) rd.isLt rs1.isLt (by decide) (by decide)

theorem ldk (ft : FieldType) (rd : Reg) (k : KIdx) : Statement (.ldk ft rd k) :=
  encK_field .ldk (FieldType.code_lt ft) rd.isLt k.isLt

theorem ld (ft : FieldType) (r : Reg) (cb : Ctr) (off : Fin 16384) : Statement (.ld ft r cb off) :=
  encM_field .ld (FieldType.code_lt ft) r.isLt cb.isLt off.isLt

theorem st (ft : FieldType) (r : Reg) (cb : Ctr) (off : Fin 16384) : Statement (.st ft r cb off) :=
  encM_field .st (FieldType.code_lt ft) r.isLt cb.isLt off.isLt

theorem badd (rd rs1 rs2 : Reg) : Statement (.badd rd rs1 rs2) :=
  encR_field .badd (by decide) rd.isLt rs1.isLt rs2.isLt (by decide)

theorem bsub (rd rs1 rs2 : Reg) : Statement (.bsub rd rs1 rs2) :=
  encR_field .bsub (by decide) rd.isLt rs1.isLt rs2.isLt (by decide)

theorem bmul (rd rs1 rs2 : Reg) : Statement (.bmul rd rs1 rs2) :=
  encR_field .bmul (by decide) rd.isLt rs1.isLt rs2.isLt (by decide)

theorem bredc (rd rs1 : Reg) : Statement (.bredc rd rs1) :=
  encR_field .bredc (by decide) rd.isLt rs1.isLt (by decide) (by decide)

theorem bcmp (ft : FieldType) (rs1 rs2 : Reg) : Statement (.bcmp ft rs1 rs2) :=
  encR_field .bcmp (FieldType.code_lt ft) (by decide) rs1.isLt rs2.isLt (by decide)

theorem bseti (rd : Reg) (imm : Half) : Statement (.bseti rd imm) :=
  encI_field .bseti (by decide) rd.isLt imm.isLt

theorem padd (ft : FieldType) (rd rs1 rs2 : Reg) : Statement (.padd ft rd rs1 rs2) :=
  encR_field .padd (FieldType.code_lt ft) rd.isLt rs1.isLt rs2.isLt (by decide)

theorem pmadd (ft : FieldType) (rd rs1 rs2 : Reg) : Statement (.pmadd ft rd rs1 rs2) :=
  encR_field .pmadd (FieldType.code_lt ft) rd.isLt rs1.isLt rs2.isLt (by decide)

theorem pdbl (ft : FieldType) (rd rs1 : Reg) : Statement (.pdbl ft rd rs1) :=
  encR_field .pdbl (FieldType.code_lt ft) rd.isLt rs1.isLt (by decide) (by decide)

theorem pneg (ft : FieldType) (rd rs1 : Reg) : Statement (.pneg ft rd rs1) :=
  encR_field .pneg (FieldType.code_lt ft) rd.isLt rs1.isLt (by decide) (by decide)

theorem paff (ft : FieldType) (rd rs1 : Reg) : Statement (.paff ft rd rs1) :=
  encR_field .paff (FieldType.code_lt ft) rd.isLt rs1.isLt (by decide) (by decide)

theorem ponc (ft : FieldType) (rs1 : Reg) : Statement (.ponc ft rs1) :=
  encR_field .ponc (FieldType.code_lt ft) (by decide) rs1.isLt (by decide) (by decide)

theorem pmulq (ft : FieldType) (rd rs1 : Reg) : Statement (.pmulq ft rd rs1) :=
  encR_field .pmulq (FieldType.code_lt ft) rd.isLt rs1.isLt (by decide) (by decide)

theorem ldbl (rd rs1 : Reg) : Statement (.ldbl rd rs1) :=
  encR_field .ldbl (by decide) rd.isLt rs1.isLt (by decide) (by decide)

theorem ladd (rd rs1 rs2 : Reg) : Statement (.ladd rd rs1 rs2) :=
  encR_field .ladd (by decide) rd.isLt rs1.isLt rs2.isLt (by decide)

theorem fmul024 (rd rs1 rs2 : Reg) : Statement (.fmul024 rd rs1 rs2) :=
  encR_field .fmul024 (by decide) rd.isLt rs1.isLt rs2.isLt (by decide)

theorem mlacc (rd rs1 rs2 : Reg) : Statement (.mlacc rd rs1 rs2) :=
  encR_field .mlacc (by decide) rd.isLt rs1.isLt rs2.isLt (by decide)

theorem mldbl (rd rs1 rs2 : Reg) : Statement (.mldbl rd rs1 rs2) :=
  encR_field .mldbl (by decide) rd.isLt rs1.isLt rs2.isLt (by decide)

theorem mladd (rd rs1 rs2 : Reg) : Statement (.mladd rd rs1 rs2) :=
  encR_field .mladd (by decide) rd.isLt rs1.isLt rs2.isLt (by decide)

theorem jmp (target : Half) : Statement (.jmp target) :=
  encI_field .jmp (by decide) (by decide) target.isLt

theorem bf (cond : Cond) (target : Half) : Statement (.bf cond target) :=
  encI_field .bf (Cond.code_lt cond) (by decide) target.isLt

theorem bbs (ci : Ctr) (rs : Reg) (target : Half) : Statement (.bbs ci rs target) :=
  encI_field .bbs ci.isLt rs.isLt target.isLt

theorem bbc (ci : Ctr) (rs : Reg) (target : Half) : Statement (.bbc ci rs target) :=
  encI_field .bbc ci.isLt rs.isLt target.isLt

theorem bcnz (cd : Ctr) (target : Half) : Statement (.bcnz cd target) :=
  encI_field .bcnz cd.isLt (by decide) target.isLt

theorem cset (cd : Ctr) (imm : Half) : Statement (.cset cd imm) :=
  encI_field .cset cd.isLt (by decide) imm.isLt

theorem caddi (cd cs : Ctr) (imm : Half) : Statement (.caddi cd cs imm) :=
  encA_field .caddi cd.isLt cs.isLt imm.isLt

theorem cblen (cd : Ctr) (rs : Reg) : Statement (.cblen cd rs) :=
  encI_field .cblen cd.isLt rs.isLt (by decide)

theorem nop : Statement (.nop) :=
  encI_field .nop (by decide) (by decide) (by decide)

theorem halt : Statement (.halt) :=
  encI_field .halt (by decide) (by decide) (by decide)

end Sys2Proof.Laws.OpcodeField
end

