-- ==== Sys2Proof/Tests/Slice0.lean ====
section
/-! SUPPORT. Tests of the model: the well-formedness check, decoding, single steps with the results of spec/95_test_vectors.md, and
a witness for the hypotheses of every statement that has some. -/

namespace Sys2Proof.Tests

-- Many evaluations by the kernel in one file: one at a time.
set_option Elab.async false
set_option exponentiation.threshold 400

open Sys2Proof Sys2Proof.Machine

/-! ## The well-formedness check refuses (R157) -/

theorem test_wf_refuses_fconj : (Instr.wellFormed (.fconj .F3 6 0)) = false := by decide
theorem test_wf_refuses_fcsqr : (Instr.wellFormed (.fcsqr .F6 6 0)) = false := by decide
theorem test_wf_refuses_fcexp : (Instr.wellFormed (.fcexp .F4 6 0 24)) = false := by decide
theorem test_wf_refuses_padd : (Instr.wellFormed (.padd .F4 0 0 0)) = false := by decide
theorem test_wf_refuses_pmadd : (Instr.wellFormed (.pmadd .F6 0 0 0)) = false := by decide
theorem test_wf_refuses_pdbl : (Instr.wellFormed (.pdbl .F6B 0 0)) = false := by decide
theorem test_wf_refuses_pneg : (Instr.wellFormed (.pneg .F12 0 0)) = false := by decide
theorem test_wf_refuses_paff : (Instr.wellFormed (.paff .F4 0 0)) = false := by decide
theorem test_wf_refuses_ponc : (Instr.wellFormed (.ponc .F4 0)) = false := by decide
theorem test_wf_refuses_pmulq : (Instr.wellFormed (.pmulq .F1 6 0)) = false := by decide

/-! ## Decoding: a word of every instruction, field by field from the formats of R141 to R154 and the opcodes of R156 -/

theorem test_decode_fadd : decode (0b000001#6 ++ 0b110#3 ++ 0b101010#6 ++ 0b010101#6 ++ 0b001001#6 ++ 0b00000#5) = .ok (.fadd .F12 42 21 9) := by rfl
theorem test_decode_fsub : decode (0b000010#6 ++ 0b010#3 ++ 0b101010#6 ++ 0b010101#6 ++ 0b001001#6 ++ 0b00000#5) = .ok (.fsub .F3 42 21 9) := by rfl
theorem test_decode_fmul : decode (0b000100#6 ++ 0b001#3 ++ 0b101010#6 ++ 0b010101#6 ++ 0b001001#6 ++ 0b00000#5) = .ok (.fmul .F2 42 21 9) := by rfl
theorem test_decode_fpow : decode (0b001011#6 ++ 0b101#3 ++ 0b101010#6 ++ 0b010101#6 ++ 0b001001#6 ++ 0b00000#5) = .ok (.fpow .F6B 42 21 9) := by rfl
theorem test_decode_fneg : decode (0b000011#6 ++ 0b000#3 ++ 0b100011#6 ++ 0b010001#6 ++ 0b000000#6 ++ 0b00000#5) = .ok (.fneg .F1 35 17) := by rfl
theorem test_decode_fsqr : decode (0b000101#6 ++ 0b110#3 ++ 0b100011#6 ++ 0b010001#6 ++ 0b000000#6 ++ 0b00000#5) = .ok (.fsqr .F12 35 17) := by rfl
theorem test_decode_finv : decode (0b000110#6 ++ 0b100#3 ++ 0b100011#6 ++ 0b010001#6 ++ 0b000000#6 ++ 0b00000#5) = .ok (.finv .F6 35 17) := by rfl
theorem test_decode_fconj : decode (0b001000#6 ++ 0b011#3 ++ 0b100011#6 ++ 0b010001#6 ++ 0b000000#6 ++ 0b00000#5) = .ok (.fconj .F4 35 17) := by rfl
theorem test_decode_tom : decode (0b001110#6 ++ 0b010#3 ++ 0b100011#6 ++ 0b010001#6 ++ 0b000000#6 ++ 0b00000#5) = .ok (.tom .F3 35 17) := by rfl
theorem test_decode_fromm : decode (0b001111#6 ++ 0b001#3 ++ 0b100011#6 ++ 0b010001#6 ++ 0b000000#6 ++ 0b00000#5) = .ok (.fromm .F2 35 17) := by rfl
theorem test_decode_ffrob : decode (0b000111#6 ++ 0b110#3 ++ 0b101010#6 ++ 0b010101#6 ++ 0b000000#6 ++ 0b10011#5) = .ok (.ffrob .F12 42 21 19) := by rfl
theorem test_decode_fzero : decode (0b001100#6 ++ 0b101#3 ++ 0b100011#6 ++ 0b000000#6 ++ 0b000000#6 ++ 0b00000#5) = .ok (.fzero .F6B 35) := by rfl
theorem test_decode_fone : decode (0b001101#6 ++ 0b110#3 ++ 0b100011#6 ++ 0b000000#6 ++ 0b000000#6 ++ 0b00000#5) = .ok (.fone .F12 35) := by rfl
theorem test_decode_fcsqr : decode (0b001001#6 ++ 0b101#3 ++ 0b100011#6 ++ 0b010001#6 ++ 0b000000#6 ++ 0b00000#5) = .ok (.fcsqr .F6B 35 17) := by rfl
theorem test_decode_fcexp : decode (0b001010#6 ++ 0b110#3 ++ 0b101010#6 ++ 0b010101#6 ++ 0b001001#6 ++ 0b00000#5) = .ok (.fcexp .F12 42 21 9) := by rfl
theorem test_decode_mov : decode (0b010000#6 ++ 0b100#3 ++ 0b100011#6 ++ 0b010001#6 ++ 0b000000#6 ++ 0b00000#5) = .ok (.mov .F6 35 17) := by rfl
theorem test_decode_ldk : decode (0b010001#6 ++ 0b001#3 ++ 0b100011#6 ++ 0b1010001#7 ++ 0b0000000000#10) = .ok (.ldk .F2 35 81) := by rfl
theorem test_decode_ld : decode (0b010010#6 ++ 0b110#3 ++ 0b100011#6 ++ 0b101#3 ++ 0b10001100101001#14) = .ok (.ld .F12 35 5 9001) := by rfl
theorem test_decode_st : decode (0b010011#6 ++ 0b001#3 ++ 0b010001#6 ++ 0b110#3 ++ 0b11000000111001#14) = .ok (.st .F2 17 6 12345) := by rfl
theorem test_decode_badd : decode (0b010100#6 ++ 0b000#3 ++ 0b101010#6 ++ 0b010101#6 ++ 0b001001#6 ++ 0b00000#5) = .ok (.badd 42 21 9) := by rfl
theorem test_decode_bsub : decode (0b010101#6 ++ 0b000#3 ++ 0b101010#6 ++ 0b010101#6 ++ 0b001001#6 ++ 0b00000#5) = .ok (.bsub 42 21 9) := by rfl
theorem test_decode_bmul : decode (0b010110#6 ++ 0b000#3 ++ 0b101010#6 ++ 0b010101#6 ++ 0b001001#6 ++ 0b00000#5) = .ok (.bmul 42 21 9) := by rfl
theorem test_decode_bredc : decode (0b010111#6 ++ 0b000#3 ++ 0b100011#6 ++ 0b010001#6 ++ 0b000000#6 ++ 0b00000#5) = .ok (.bredc 35 17) := by rfl
theorem test_decode_bcmp : decode (0b011000#6 ++ 0b001#3 ++ 0b000000#6 ++ 0b010101#6 ++ 0b001001#6 ++ 0b00000#5) = .ok (.bcmp .F2 21 9) := by rfl
theorem test_decode_bseti : decode (0b011001#6 ++ 0b000#3 ++ 0b100011#6 ++ 0b0#1 ++ 0b1010010111000011#16) = .ok (.bseti 35 0xA5C3) := by rfl
theorem test_decode_padd : decode (0b100000#6 ++ 0b010#3 ++ 0b101010#6 ++ 0b010101#6 ++ 0b001001#6 ++ 0b00000#5) = .ok (.padd .F3 42 21 9) := by rfl
theorem test_decode_pmadd : decode (0b100001#6 ++ 0b001#3 ++ 0b101010#6 ++ 0b010101#6 ++ 0b001001#6 ++ 0b00000#5) = .ok (.pmadd .F2 42 21 9) := by rfl
theorem test_decode_pdbl : decode (0b100010#6 ++ 0b000#3 ++ 0b100011#6 ++ 0b010001#6 ++ 0b000000#6 ++ 0b00000#5) = .ok (.pdbl .F1 35 17) := by rfl
theorem test_decode_pneg : decode (0b100011#6 ++ 0b001#3 ++ 0b100011#6 ++ 0b010001#6 ++ 0b000000#6 ++ 0b00000#5) = .ok (.pneg .F2 35 17) := by rfl
theorem test_decode_paff : decode (0b100100#6 ++ 0b010#3 ++ 0b100011#6 ++ 0b010001#6 ++ 0b000000#6 ++ 0b00000#5) = .ok (.paff .F3 35 17) := by rfl
theorem test_decode_pmulq : decode (0b100110#6 ++ 0b001#3 ++ 0b100011#6 ++ 0b010001#6 ++ 0b000000#6 ++ 0b00000#5) = .ok (.pmulq .F2 35 17) := by rfl
theorem test_decode_ponc : decode (0b100101#6 ++ 0b001#3 ++ 0b000000#6 ++ 0b010101#6 ++ 0b000000#6 ++ 0b00000#5) = .ok (.ponc .F2 21) := by rfl
theorem test_decode_ldbl : decode (0b101000#6 ++ 0b000#3 ++ 0b100011#6 ++ 0b010001#6 ++ 0b000000#6 ++ 0b00000#5) = .ok (.ldbl 35 17) := by rfl
theorem test_decode_ladd : decode (0b101001#6 ++ 0b000#3 ++ 0b101010#6 ++ 0b010101#6 ++ 0b001001#6 ++ 0b00000#5) = .ok (.ladd 42 21 9) := by rfl
theorem test_decode_fmul024 : decode (0b101010#6 ++ 0b000#3 ++ 0b101010#6 ++ 0b010101#6 ++ 0b001001#6 ++ 0b00000#5) = .ok (.fmul024 42 21 9) := by rfl
theorem test_decode_mlacc : decode (0b101011#6 ++ 0b000#3 ++ 0b101010#6 ++ 0b010101#6 ++ 0b001001#6 ++ 0b00000#5) = .ok (.mlacc 42 21 9) := by rfl
theorem test_decode_mldbl : decode (0b101100#6 ++ 0b000#3 ++ 0b101010#6 ++ 0b010101#6 ++ 0b001001#6 ++ 0b00000#5) = .ok (.mldbl 42 21 9) := by rfl
theorem test_decode_mladd : decode (0b101101#6 ++ 0b000#3 ++ 0b101010#6 ++ 0b010101#6 ++ 0b001001#6 ++ 0b00000#5) = .ok (.mladd 42 21 9) := by rfl
theorem test_decode_jmp : decode (0b110000#6 ++ 0b0000000000#10 ++ 0b1010010111000011#16) = .ok (.jmp 0xA5C3) := by rfl
theorem test_decode_bf : decode (0b110001#6 ++ 0b101#3 ++ 0b0000000#7 ++ 0b1010010111000011#16) = .ok (.bf .cc 0xA5C3) := by rfl
theorem test_decode_bbs : decode (0b110010#6 ++ 0b101#3 ++ 0b100011#6 ++ 0b0#1 ++ 0b1010010111000011#16) = .ok (.bbs 5 35 0xA5C3) := by rfl
theorem test_decode_bbc : decode (0b110011#6 ++ 0b011#3 ++ 0b010001#6 ++ 0b0#1 ++ 0b1010010111000011#16) = .ok (.bbc 3 17 0xA5C3) := by rfl
theorem test_decode_bcnz : decode (0b110100#6 ++ 0b101#3 ++ 0b0000000#7 ++ 0b1010010111000011#16) = .ok (.bcnz 5 0xA5C3) := by rfl
theorem test_decode_cset : decode (0b110101#6 ++ 0b110#3 ++ 0b0000000#7 ++ 0b1010010111000011#16) = .ok (.cset 6 0xA5C3) := by rfl
theorem test_decode_caddi : decode (0b110110#6 ++ 0b101#3 ++ 0b011#3 ++ 0b0000#4 ++ 0b1010010111000011#16) = .ok (.caddi 5 3 0xA5C3) := by rfl
theorem test_decode_cblen : decode (0b110111#6 ++ 0b101#3 ++ 0b100011#6 ++ 0b00000000000000000#17) = .ok (.cblen 5 35) := by rfl
theorem test_decode_nop : decode (0b111110#6 ++ 0b00000000000000000000000000#26) = .ok .nop := by rfl
theorem test_decode_halt : decode (0b111111#6 ++ 0b00000000000000000000000000#26) = .ok .halt := by rfl

/-- The illegal words of R160 and R162: a reserved opcode, ft = 7, a set must-be-zero bit, condition 6. -/
theorem test_decode_illegal :
    decode 0x68000000 = .error .reservedOpcode ∧ decode 0x07800000 = .error .illegalFt ∧ decode 0x04060841 = .error .mustBeZero
      ∧ decode 0xC7000003 = .error .illegalCond := ⟨rfl, rfl, rfl, rfl⟩

/-! ## The configuration T103 (95_test_vectors, section 0.1) -/

/-- KST words 0 to 85 of T103. -/
def toyKst : List Nat :=
  [48, 69, 55, 7, 55, 48, 55, 93, 58, 55, 58, 93, 55, 55, 55, 55, 55, 0, 37, 55, 93, 0] ++
  [12, 93, 58, 0, 54, 58, 55, 0, 86, 74, 58, 0, 42, 5, 93, 0, 78, 24, 55, 45, 93, 48] ++
  [58, 10, 55, 0, 68, 23, 45, 0, 65, 75, 93, 0, 100, 52, 48, 0, 35, 80, 58, 0, 38, 28] ++
  [10, 0, 3, 51, 7, 62, 0, 0, 0, 62, 55, 0, 55, 7, 55, 0, 0, 55, 0, 0]

/-- T103 before its commit: L = 1, p = 103, the constants of T103, every register 0. -/
def toyRaw : State :=
  { State.reset with
    e := Vector.replicate 64 0, kst := Vector.ofFn fun k => BitVec.ofNat 384 (toyKst.getD k.val 0), nlimbs := 0, modp := 103 }

/-- T103, running. -/
def toy : State := { toyRaw.commitConfig with seq := .running }

/-- T103 with an instruction word at pc, and registers and counters as listed. -/
def toyWith (w : Nat) (es : List (Nat × Nat)) (cs : List (Ctr × Nat)) : State :=
  cs.foldl (fun s x => s.setC x.1 (BitVec.ofNat 16 x.2))
    (es.foldl (fun s x => s.setE x.1 (BitVec.ofNat 384 x.2)) (toy.withFetchWord 32 w))

/-- The state after one step. -/
def after (s : State) : State :=
  match step s with
  | .next t => t
  | .fault _ => s
  | .refused _ => s

/-- Registers from `i` up holding the Montgomery words of values: phi(x) = 55 x mod 103. -/
def phis (i : Nat) : List Nat → List (Nat × Nat)
  | [] => []
  | x :: xs => (i, 55 * x % 103) :: phis (i + 1) xs

/-- The words of `n` registers from `i` up. -/
def words (s : State) (i n : Nat) : List Nat := (s.group i n).map BitVec.toNat

/-- The Montgomery words of values. -/
def montWords (xs : List Nat) : List Nat := xs.map fun x => 55 * x % 103

/-- CAUSE, EINFO, EPC and FAULTINSN, with STATE = ERROR. -/
def faultOf (s : State) : Option (Nat × Nat × Nat × Nat) :=
  if s.seq = .error then some (s.fault.cause.toNat, s.fault.einfo.toNat, s.fault.epc.toNat, s.fault.insn.toNat) else none

/-! ## One step of every instruction (95_test_vectors, sections 2.1 to 2.9) -/

theorem test_badd_carries :
    words (after (toyWith 0x50060840 [(1, 18446744073709551615), (2, 1)] [])) 3 1 = [0] ∧ State.flC (after (toyWith 0x50060840 [(1, 18446744073709551615), (2, 1)] [])) = true := by decide +kernel
theorem test_bsub_borrows :
    words (after (toyWith 0x54060840 [(1, 5), (2, 7)] [])) 3 1 = [18446744073709551614] ∧ State.flC (after (toyWith 0x54060840 [(1, 5), (2, 7)] [])) = true := by decide +kernel
theorem test_bmul :
    words (after (toyWith 0x58080840 [(1, 18446744073709551615), (2, 18446744073709551615)] [])) 4 2 = [1, 18446744073709551614] := by decide +kernel
theorem test_bredc_unreduced :
    words (after (toyWith 0x5C062000 [(4, 18446744073709551615), (5, 18446744073709551615)] [])) 3 1 = [18446744073709551601] := by decide +kernel
theorem test_bcmp_high_word_decides :
    State.flEq (after (toyWith 0x60800860 [(1, 9), (2, 1), (3, 1), (4, 2)] [])) = false ∧ State.flLt (after (toyWith 0x60800860 [(1, 9), (2, 1), (3, 1), (4, 2)] [])) = true := by decide +kernel
theorem test_bseti_is_raw :
    words (after (toyWith 0x64061234 [(3, 18446744073709551615)] [])) 3 1 = [4660] := by decide +kernel
theorem test_fadd : words (after (toyWith 0x04060840 [(1, 41), (2, 69)] [])) 3 1 = [7] := by decide +kernel
theorem test_fsub : words (after (toyWith 0x08060840 [(1, 7), (2, 69)] [])) 3 1 = [41] := by decide +kernel
theorem test_fneg_zero : words (after (toyWith 0x0C060800 [(1, 0)] [])) 3 1 = [0] := by decide +kernel
theorem test_fmul : words (after (toyWith 0x10060840 [(1, 102), (2, 102)] [])) 3 1 = [15] := by decide +kernel
theorem test_fmul_f12 :
    words (after (toyWith 0x13300180 (phis 0 [1, 2, 3, 4, 5, 6, 7, 8, 9, 10, 11, 12, 13, 14, 15, 16, 17, 18, 19, 20, 21, 22, 23, 24]) [])) 24 12 = montWords [43, 34, 58, 47, 6, 28, 43, 102, 75, 99, 56, 64] := by decide +kernel
theorem test_fsqr_f2 : words (after (toyWith 0x14880000 (phis 0 [0, 1]) [])) 4 2 = montWords [102, 0] := by decide +kernel
theorem test_finv_f6 :
    words (after (toyWith 0x1A180000 (phis 0 [1, 2, 3, 4, 5, 6]) [])) 12 6 = montWords [80, 92, 64, 14, 23, 55] := by decide +kernel
theorem test_finv_of_zero :
    faultOf (after (toyWith 0x18060800 [(1, 0), (3, 17)] [])) = some (8, 0x1, 0, 0x18060800) := by decide +kernel
theorem test_ffrob_f12 :
    words (after (toyWith 0x1F300001 (phis 0 [1, 2, 3, 4, 5, 6, 7, 8, 9, 10, 11, 12]) [])) 24 12 = montWords [1, 101, 21, 49, 29, 76, 12, 23, 76, 29, 4, 64] := by decide +kernel
theorem test_ffrob_f4 :
    words (after (toyWith 0x1D900001 (phis 0 [1, 2, 3, 4]) [])) 8 4 = montWords [1, 101, 3, 99] := by decide +kernel
theorem test_fconj_f6b :
    words (after (toyWith 0x22980000 (phis 0 [1, 2, 3, 4, 5, 6]) [])) 12 6 = montWords [1, 2, 3, 99, 98, 97] := by decide +kernel
theorem test_fconj_f3_is_illegal :
    faultOf (after (toyWith 0x210C0000 [] [])) = some (2, 0x2, 0, 0x210C0000) := by decide +kernel
theorem test_fcsqr_f6b :
    words (after (toyWith 0x268C0000 (phis 0 [59, 63, 6, 32, 67, 99]) [])) 6 6 = montWords [101, 87, 84, 23, 59, 11] := by decide +kernel
theorem test_fcexp_f12 :
    words (after (toyWith 0x2B180300 (phis 0 [41, 12, 88, 71, 36, 6, 14, 50, 82, 19, 75, 44] ++ [(24, 5)]) [])) 12 12 = montWords [68, 56, 94, 35, 9, 26, 15, 67, 53, 69, 48, 8] := by decide +kernel
theorem test_fpow_f2 :
    words (after (toyWith 0x2C880040 (phis 0 [3, 5] ++ [(2, 103)]) [])) 4 2 = montWords [3, 98] := by decide +kernel
theorem test_fpow_not_reduced :
    faultOf (after (toyWith 0x2C060840 [(1, 104), (2, 1)] [])) = some (7, 0x1, 0, 0x2C060840) := by decide +kernel
theorem test_fzero_f2 : words (after (toyWith 0x30880000 [(4, 9), (5, 9)] [])) 4 2 = [0, 0] := by decide +kernel
theorem test_fone_f12 :
    words (after (toyWith 0x37000000 [(0, 5), (11, 9)] [])) 0 12 = [55, 0, 0, 0, 0, 0, 0, 0, 0, 0, 0, 0] := by decide +kernel
theorem test_tom_unreduced : words (after (toyWith 0x38060800 [(1, 200)] [])) 3 1 = [82] := by decide +kernel
theorem test_fromm_unreduced :
    words (after (toyWith 0x3C060800 [(1, 18446744073709551615)] [])) 3 1 = [89] := by decide +kernel
theorem test_mov_overlapping :
    words (after (toyWith 0x42040000 [(0, 1), (1, 2), (2, 3), (3, 4), (4, 5), (5, 6)] [])) 2 6 = [1, 2, 3, 4, 5, 6] := by decide +kernel
theorem test_ldk_f12 :
    words (after (toyWith 0x4700B800 [] [])) 0 12 = [55, 0, 68, 23, 45, 0, 65, 75, 93, 0, 100, 52] := by decide +kernel
theorem test_ldk_past_k127 : faultOf (after (toyWith 0x4489FC00 [] [])) = some (3, 0x17F, 0, 0x4489FC00) := by decide +kernel
theorem test_ld : words (after ((toyWith 0x48024000 [] [(1, 16)]).dmemWrite 16 [2 ^ 383 + 7])) 1 1 = [2 ^ 383 + 7] := by decide +kernel
theorem test_ld_does_not_wrap :
    faultOf (after (toyWith 0x4801FFFF [] [(7, 65535)])) = some (5, 0x13FFE, 0, 0x4801FFFF) := by decide +kernel
theorem test_st_f2 :
    State.dmemWord (after (toyWith 0x4C8C8005 [(6, 10), (7, 11)] [(2, 100)])) 105 = 10 ∧ State.dmemWord (after (toyWith 0x4C8C8005 [(6, 10), (7, 11)] [(2, 100)])) 106 = 11 := by decide +kernel
theorem test_st_past_the_end :
    faultOf (after (toyWith 0x4C0C8000 [] [(2, 4096)])) = some (5, 0x1000, 0, 0x4C0C8000) := by decide +kernel
theorem test_padd :
    words (after (toyWith 0x800C0060 (phis 0 [2, 18, 1] ++ phis 3 [3, 6, 1]) [])) 6 3 = montWords [36, 81, 1] := by decide +kernel
theorem test_padd_doubles :
    words (after (toyWith 0x800C0060 (phis 0 [2, 18, 1] ++ phis 3 [4, 36, 2]) [])) 6 3 = montWords [64, 84, 100] := by decide +kernel
theorem test_pmadd_ignores_z2 :
    words (after (toyWith 0x840C0060 (phis 0 [2, 18, 1] ++ phis 3 [3, 6, 5]) [])) 6 3 = montWords [36, 81, 1] := by decide +kernel
/-- An identity plus (3, 6, 5): the result PADD gives with (3, 6, 1) (43_point R323, corner case of Z2; D15). -/
theorem test_pmadd_identity_takes_z2_as_one :
    words (after (toyWith 0x840C0060 (phis 0 [0, 1, 0] ++ phis 3 [3, 6, 5]) [])) 6 3 = montWords [3, 6, 1] := by decide +kernel
theorem test_pdbl_f2 :
    words (after (toyWith 0x888C0000 (phis 0 [0, 5, 21, 51, 1, 0]) [])) 6 6 = montWords [0, 63, 98, 74, 8, 65] := by decide +kernel
theorem test_pneg : words (after (toyWith 0x8C0C0000 (phis 0 [2, 18, 1]) [])) 6 3 = montWords [2, 85, 1] := by decide +kernel
theorem test_paff :
    words (after (toyWith 0x900C0000 (phis 0 [64, 84, 100]) [])) 6 3 = montWords [13, 75, 1] := by decide +kernel
theorem test_paff_identity :
    words (after (toyWith 0x900C0000 (phis 0 [5, 7, 0]) [])) 6 3 = montWords [0, 1, 0] := by decide +kernel
theorem test_ponc_on_curve : State.flEq (after (toyWith 0x94000000 (phis 0 [2, 18, 1]) [])) = true := by decide +kernel
theorem test_ponc_not_a_point : State.flEq (after (toyWith 0x94000000 (phis 0 [0, 0, 0]) [])) = false := by decide +kernel
theorem test_pmulq_f2 :
    words (after (toyWith 0x988C0000 (phis 0 [0, 5, 21, 51, 1, 0]) [])) 6 6 = montWords [0, 98, 21, 52, 1, 0] := by decide +kernel
theorem test_ldbl :
    words (after (toyWith 0xA0003000 (phis 6 [0, 2, 13, 75, 1, 0]) [])) 0 12 = montWords [89, 22, 77, 56, 91, 0, 51, 64, 8, 74, 98, 62] := by decide +kernel
theorem test_ldbl_overlap : faultOf (after (toyWith 0xA0002000 [] [])) = some (4, 0x0, 0, 0xA0002000) := by decide +kernel
theorem test_ladd :
    words (after (toyWith 0xA4003180 (phis 6 [51, 64, 8, 74, 98, 62, 0, 5, 21, 51]) [])) 0 12 = montWords [54, 50, 52, 89, 21, 46, 6, 42, 22, 75, 24, 68] := by decide +kernel
theorem test_fmul024_in_place :
    words (after (toyWith 0xA8000180 (phis 0 [1, 2, 3, 4, 5, 6, 7, 8, 9, 10, 11, 12] ++ phis 12 [89, 22, 77, 56, 91, 0]) [])) 0 12 = montWords [59, 75, 36, 60, 83, 83, 71, 31, 84, 66, 20, 42] := by decide +kernel
theorem test_mlacc :
    words (after (toyWith 0xAC006240 (phis 0 [1] ++ phis 12 [89, 22, 77, 56, 91, 0, 2, 18]) [])) 0 12 = montWords [89, 22, 0, 0, 79, 0, 0, 0, 47, 81, 0, 0] := by decide +kernel
theorem test_mldbl :
    words (after (toyWith 0xB0006240 (phis 0 [1] ++ phis 12 [0, 2, 13, 75, 1, 0, 2, 18]) [])) 0 18 = montWords [89, 22, 0, 0, 79, 0, 0, 0, 47, 81, 0, 0, 51, 64, 8, 74, 98, 62] := by decide +kernel
theorem test_mladd :
    words (after (toyWith 0xB4006240 (phis 0 [1, 2, 3, 4, 5, 6, 7, 8, 9, 10, 11, 12] ++ phis 12 [51, 64, 8, 74, 98, 62, 0, 5, 21, 51, 2, 18]) [])) 0 18 = montWords [13, 52, 55, 62, 53, 88, 85, 73, 18, 61, 72, 16, 6, 42, 22, 75, 24, 68] := by decide +kernel
theorem test_mladd_past_e63 : faultOf (after (toyWith 0xB4006760 [] [])) = some (3, 0x3B, 0, 0xB4006760) := by decide +kernel
theorem test_jmp : State.pc (after (toyWith 0xC0000008 [] [])) = 8 := by decide +kernel
theorem test_bf_ne : State.pc (after (toyWith 0xC4800003 [] [])) = 3 := by decide +kernel
theorem test_bbs_past_the_width :
    State.pc (after (toyWith 0xC90A0010 [(5, 18446744073709551871)] [(2, 64)])) = 1 := by decide +kernel
theorem test_bbc : State.pc (after (toyWith 0xCC860006 [(3, 6)] [(1, 0)])) = 6 := by decide +kernel
theorem test_bcnz_last :
    State.pc (after (toyWith 0xD0000003 [] [(0, 1)])) = 1 ∧ State.getC (after (toyWith 0xD0000003 [] [(0, 1)])) 0 = 0 := by decide +kernel
theorem test_bcnz_from_zero :
    State.pc (after (toyWith 0xD0000003 [] [(0, 0)])) = 3 ∧ State.getC (after (toyWith 0xD0000003 [] [(0, 0)])) 0 = 0xFFFF := by decide +kernel
theorem test_cset : State.getC (after (toyWith 0xD780FFFF [] [])) 7 = 0xFFFF := by decide +kernel
theorem test_caddi_is_signed : State.getC (after (toyWith 0xD880FFFF [] [(0, 5)])) 1 = 4 := by decide +kernel
theorem test_cblen_ignores_high_bits :
    State.getC (after (toyWith 0xDC060000 [(3, 1606938044258990275541962092341162602522221440526866544852991)] [])) 0 = 64 := by decide +kernel
theorem test_nop :
    State.pc (after (toyWith 0xF8000000 [] [])) = 1 ∧ State.instret (after (toyWith 0xF8000000 [] [])) = 1 ∧ State.seq (after (toyWith 0xF8000000 [] [])) = .running := by decide +kernel
theorem test_halt :
    State.pc (after (toyWith 0xFC000000 [] [])) = 1 ∧ State.seq (after (toyWith 0xFC000000 [] [])) = .done ∧ State.irqpendDone (after (toyWith 0xFC000000 [] [])) = true := by decide +kernel

/-- Right after reset, with the word placed: a field instruction finds CFGOK = 0 (R231), and BSETI runs. -/
theorem test_first_step_after_reset :
    faultOf (after (State.reset.withFetchWord 32 0x04060840)) = some (6, 0, 0, 0x04060840)
      ∧ words (after (State.reset.withFetchWord 32 0x64061234)) 3 1 = [0x1234] := by decide +kernel

/-! ## Host accesses (95_test_vectors, sections 0.1 and 2.1) -/

/-- The values that CFGCOMMIT gives T103. -/
theorem test_commit_t103 :
    (toyRaw.hostWrite 0x004 4 0x4).pinv = 0x254813E22CBCE4A9 ∧ (toyRaw.hostWrite 0x004 4 0x4).rsq = 0x26
      ∧ (toyRaw.hostWrite 0x004 4 0x4).rone = 0x37 ∧ (toyRaw.hostWrite 0x004 4 0x4).cfgok = true := by decide +kernel

/-- While RUNNING a write of EREG is refused (R112). -/
theorem test_running_refuses_ereg :
    (toy.hostWrite 0x1000 4 5).getE 0 = 0 ∧ (toy.hostWrite 0x1000 4 5).herr = true := by decide +kernel

/-! ## Witnesses: for the hypotheses of every statement, states and operands that meet them -/

/-- A check of `Configured` by evaluation. -/
def configuredCheck (s : State) : Bool :=
  decide (s.cfgok = true ∧ s.p % 2 = 1 ∧ 3 ≤ s.p ∧ s.pinv.toNat < s.radix ∧ (s.pinv.toNat * s.p + 1) % s.radix = 0
    ∧ s.rsq.toNat = s.radix * s.radix % s.p ∧ s.rone.toNat = s.radix % s.p)

/-- A check of `Ready` by evaluation. -/
def readyCheck (s : State) (dsts srcs : List (Nat × Nat)) (ks : List Nat) : Bool :=
  configuredCheck s && decide (∀ g ∈ dsts ++ srcs, g.1 + g.2 ≤ 64)
    && decide (∀ g ∈ srcs, ∀ j, j < g.2 → s.w (g.1 + j) < s.p) && decide (∀ k ∈ ks, s.kw k < s.p)

theorem configured_of_check {s : State} (h : configuredCheck s = true) : s.Configured := by
  obtain ⟨h1, h2, h3, h4, h5, h6, h7⟩ := of_decide_eq_true h
  exact ⟨h1, h2, h3, h4, h5, h6, h7⟩

theorem ready_of_check {s : State} {dsts srcs : List (Nat × Nat)} {ks : List Nat} (h : readyCheck s dsts srcs ks = true) :
    s.Ready dsts srcs ks := by
  simp only [readyCheck, Bool.and_eq_true, decide_eq_true_eq] at h
  obtain ⟨⟨⟨h1, h2⟩, h3⟩, h4⟩ := h
  exact ⟨configured_of_check h1, h2, h3, h4⟩

/-- Every step answers a next state. -/
theorem step_after (s : State) : step s = .next (after s) := by
  have h : ∃ t, step s = .next t := by
    unfold step
    cases s.nextMove with
    | input ev t => exact ⟨_, rfl⟩
    | sequencer t =>
      show ∃ u, seqStep t = .next u
      unfold seqStep
      cases t.fetch with
      | ok i => exact exec_next i t
      | error f => exact ⟨_, rfl⟩
    | rest => exact ⟨_, rfl⟩
  obtain ⟨t, h⟩ := h
  simp [after, h]

/-- The state after an instruction. -/
def execAfter (i : Instr) (s : State) : State :=
  match exec i s with
  | .next t => t
  | .fault _ => s
  | .refused _ => s

theorem exec_after (i : Instr) (s : State) : exec i s = .next (execAfter i s) := by
  obtain ⟨t, h⟩ := exec_next i s
  simp [execAfter, h]

/-- T103 with registers as listed. -/
def toyRegs (es : List (Nat × Nat)) : State := es.foldl (fun s x => s.setE x.1 (BitVec.ofNat 384 x.2)) toy

/-- T103, running HALT. -/
def halting : State := toy.withFetchWord 32 0xFC000000

theorem toy_configured : toy.Configured := configured_of_check (by decide +kernel)

theorem halting_inv : halting.Inv where
  params := by decide +kernel
  mem_wf := by decide +kernel
  mem_exists := by unfold ByteExists; decide +kernel
  config := fun _ => configured_of_check (by decide +kernel)
  cfgstat := fun _ => by decide +kernel
  badWide := by decide +kernel
  latches := fun h => absurd rfl h
  no_record := fun _ => by decide +kernel
  record := fun h => by cases h

/-! ### Reset, steps and the invariant -/

theorem witness_ResetValues : (0x8 : BitVec 32).getLsbD 3 = true := by decide

theorem witness_StepKeepsInv : halting.Inv ∧ step halting = .next (after halting) := ⟨halting_inv, step_after _⟩

/-- The last word of IMEM. -/
theorem witness_StepRunsDecoded :
    ∃ s : State, s.seq = .running ∧ s.noInputDue = true ∧ s.pc.toNat < s.params.imemWords ∧ s.pc.toNat + 1 = s.params.imemWords
      ∧ decode (s.imemWord s.pc.toNat) = .ok .halt :=
  ⟨({ toy with pc := 4095 } : State).withFetchWord 32 0xFC000000, rfl, rfl, by decide +kernel, by decide +kernel,
    by
      have h : (({ toy with pc := 4095 } : State).withFetchWord 32 0xFC000000).imemWord 4095 = 0xFC000000 := by decide +kernel
      show decode ((({ toy with pc := 4095 } : State).withFetchWord 32 0xFC000000).imemWord 4095) = _
      rw [h]; rfl⟩

theorem witness_StepWithoutInstruction :
    (∃ s : State, s.bus = (0, .reset) :: []) ∧ (∃ s : State, s.seq ≠ .running ∧ s.bus = (3, .reset) :: [])
      ∧ State.reset.seq ≠ .running ∧ State.reset.bus = [] :=
  ⟨⟨{ toy with bus := [(0, .reset)] }, rfl⟩, ⟨{ State.reset with bus := [(3, .reset)] }, by decide, rfl⟩, by decide, rfl⟩

/-- The first index past the end of IMEM; an illegal word. -/
theorem witness_FetchAndDecodeFaults :
    (∃ s : State, s.seq = .running ∧ s.noInputDue = true ∧ s.params.imemWords = s.pc.toNat)
      ∧ ∃ s : State, s.seq = .running ∧ s.noInputDue = true ∧ s.pc.toNat < s.params.imemWords
        ∧ decode (s.imemWord s.pc.toNat) = .error .reservedOpcode :=
  ⟨⟨{ toy with pc := 4096 }, rfl, rfl, by decide +kernel⟩,
    ⟨toy.withFetchWord 32 0x68000000, rfl, rfl, by decide +kernel, by
      have h : (toy.withFetchWord 32 0x68000000).imemWord 0 = 0x68000000 := by decide +kernel
      show decode ((toy.withFetchWord 32 0x68000000).imemWord 0) = _
      rw [h]; rfl⟩⟩

theorem witness_FaultStepIsPrecise :
    (∃ s t : State, s.seq = .running ∧ s.noInputDue = true ∧ step s = .next t ∧ t.seq = .error)
      ∧ (∃ (s : State) (d : BitVec 32), (s.hostEvent (.write 0x004 4 d)).fault ≠ s.fault) ∧ ∃ s : State, s.seq = .error :=
  ⟨⟨{ toy with pc := 4096 }, _, rfl, rfl, step_after _, by decide +kernel⟩,
    ⟨after { toy with pc := 4096 }, 1, by decide +kernel⟩, ⟨after { toy with pc := 4096 }, by decide +kernel⟩⟩

/-- A state whose INSTRET is not that of `s` is no fault of `s`. -/
theorem ne_takeFault {s t : State} {insn : InsnWord} (h : t.instret ≠ s.instret) (cause : Cause) (einfo : Nat) :
    t ≠ s.takeFault cause einfo insn := by
  rintro rfl
  exact h rfl

theorem witness_RetiredInstruction :
    (∃ t, exec .halt toy = .next t ∧ (∀ cause einfo, t ≠ toy.takeFault cause einfo (encode .halt)) ∧ isHalt .halt = true)
      ∧ (∃ s t : State, exec .nop s = .next t ∧ (∀ cause einfo, t ≠ s.takeFault cause einfo (encode .nop))
        ∧ isHalt .nop = false ∧ (s.stepPending || s.haltRequested) = true)
      ∧ ∃ t, exec .nop toy = .next t ∧ (∀ cause einfo, t ≠ toy.takeFault cause einfo (encode .nop)) ∧ isHalt .nop = false
        ∧ toy.stepPending = false ∧ toy.haltRequested = false :=
  ⟨⟨_, exec_after _ _, ne_takeFault (by decide +kernel), rfl⟩,
    ⟨{ toy with stepPending := true }, _, exec_after _ _, ne_takeFault (by decide +kernel), rfl, rfl⟩,
    ⟨_, exec_after _ _, ne_takeFault (by decide +kernel), rfl, rfl, rfl⟩⟩

theorem witness_InterruptOutput :
    exec .halt toy = .next (execAfter .halt toy) ∧ (0x8 : BitVec 32).getLsbD 3 = true ∧ 0x024 ≠ 0x028 ∧ ¬ (0x024 = 0x004 ∧ (0 : BitVec 32).getLsbD 3 = true) :=
  ⟨exec_after _ _, by decide, by decide, by decide⟩

/-! ### The checks of an instruction -/

/-- The last register that fits a two-word group is E62; E63 does not fit. -/
theorem witness_RegRangeFaults :
    (Instr.wellFormed (.fadd .F2 62 63 0) = true
        ∧ (operandsOf (.fadd .F2 62 63 0)).groups
          = [{ base := 62, size := 2, role := .dst }] ++ { base := 63, size := 2, role := .src }
            :: [{ base := 0, size := 2, role := .src }]
        ∧ Fits 62 2 ∧ ¬ Fits 63 2)
      ∧ Fits 62 (degree .F2) ∧ 128 < (127 : KIdx).val + degree .F2 := by
  simp only [Fits]; decide

/-- Groups that share one register. -/
theorem witness_RegOverlapFaults :
    (Fits 5 6 ∧ Fits 0 6 ∧ ¬ Apart 0 6 5 6) ∧ (Fits 5 6 ∧ Fits 0 6 ∧ Fits 60 4 ∧ ¬ Apart 0 6 5 6)
      ∧ (Fits 11 6 ∧ Fits 0 12 ∧ Fits 62 2 ∧ ¬ Apart 0 12 11 6) ∧ (Fits 11 6 ∧ Fits 0 12 ∧ Fits 58 6 ∧ ¬ Apart 0 12 11 6) := by
  simp only [Fits, Apart]; decide

theorem witness_ConfigFaults :
    State.reset.cfgok = false
      ∧ ∀ i ∈ [Instr.fadd .F12 0 52 12, .ponc .F3 55, .bredc 63 62, .fcsqr .F12 0 0, .mladd 0 12 18],
        (isFieldResult i.opcode = true ∨ i.opcode = .ponc ∨ i.opcode = .bredc) ∧ i.wellFormed = true
          ∧ (∀ g ∈ (operandsOf i).groups, Fits g.base g.size) ∧ checkOverlap (operandsOf i) = none := by
  simp only [Fits]; decide

/-- The last word of DMEM is 4095. -/
theorem witness_DmemRangeFaults :
    Fits 63 (degree .F1) ∧ ¬ Fits 63 (degree .F2) ∧ toy.params.dmemWords < (toy.getC 0).toNat + (4096 : Fin 16384).val + degree .F1
      ∧ toy.params.dmemWords = (toy.getC 0).toNat + (4095 : Fin 16384).val + degree .F1 := by
  simp only [Fits]; decide +kernel

/-- A word equal to p, in a register and in KST. -/
theorem witness_NotReducedFaults :
    Instr.wellFormed (.fmul .F2 3 1 5) = true ∧ checkOverlap (operandsOf (.fmul .F2 3 1 5)) = none ∧ toy.cfgok = true
      ∧ (∀ g ∈ (operandsOf (.fmul .F2 3 1 5)).groups, Fits g.base g.size)
      ∧ ((operandsOf (.fmul .F2 3 1 5)).checkedRegs = [1] ++ 2 :: [5, 6] ∧ (toyRegs [(2, 103)]).w 1 < (toyRegs [(2, 103)]).p
        ∧ (toyRegs [(2, 103)]).p = (toyRegs [(2, 103)]).w 2)
      ∧ ∃ s : State, s.cfgok = true ∧ (∀ x ∈ (operandsOf (.fmul .F2 3 1 5)).checkedRegs, s.w x < s.p)
        ∧ (operandsOf (.fmul .F2 3 1 5)).kst = [] ++ 0 :: [] ∧ s.p = s.kw 0 := by
  refine ⟨rfl, rfl, by decide +kernel, by simp only [Fits]; decide, by decide +kernel,
    ⟨{ toy with kst := toy.kst.set 0 103 }, by decide +kernel, by decide +kernel, rfl, by decide +kernel⟩⟩

/-! ### BigInt -/

theorem witness_BmulBredcResults : Fits (62 : Reg).val 2 ∧ toy.Configured ∧ Fits (0 : Reg).val 2 :=
  ⟨by simp only [Fits]; decide, toy_configured, by simp only [Fits]; decide⟩

theorem witness_BcmpResult : Fits (52 : Reg).val (degree .F12) ∧ Fits (0 : Reg).val (degree .F12) := by
  simp only [Fits]; decide

theorem witness_ConstantResults : toy.Ready [(52, degree .F12)] [] [] := ready_of_check (by decide +kernel)

/-! ### Field instructions: T103 with words 0 and p - 1 -/

theorem witness_FaddFsubFnegResults :
    (toyRegs [(0, 102), (63, 102)]).Ready [(0, degree .F12)] [(0, degree .F12), (52, degree .F12)] []
      ∧ (toyRegs [(0, 102), (63, 102)]).Ready [(0, degree .F12)] [(52, degree .F12)] [] :=
  ⟨ready_of_check (by decide +kernel), ready_of_check (by decide +kernel)⟩

theorem witness_MontgomeryForm : toy.Configured ∧ 102 < toy.p ∧ 0 < toy.p := ⟨toy_configured, by decide +kernel, by decide +kernel⟩

theorem witness_MontgomeryMultiplier :
    toy.Configured ∧ 102 < toy.p ∧ (toyRegs [(62, 102), (63, 102)]).Ready [(63, 1)] [(62, 1), (63, 1)] [] :=
  ⟨toy_configured, by decide +kernel, ready_of_check (by decide +kernel)⟩

theorem witness_FmulFsqrResults (ft : FieldType) :
    toy.Ready [(52, degree ft)] [(0, degree ft), (12, degree ft)] (nrSet ft)
      ∧ toy.Ready [(52, degree ft)] [(0, degree ft)] (nrSet ft) := by
  cases ft <;> exact ⟨ready_of_check (by decide +kernel), ready_of_check (by decide +kernel)⟩

/-- 2 has the inverse 52; 0 has none. -/
theorem witness_FinvResult :
    ((toyRegs [(1, 7)]).Ready [(3, degree .F1)] [(1, degree .F1)] (nrSet .F1)
        ∧ Canonical (toyRegs [(1, 7)]).p (toyRegs [(1, 7)]).kv .F1 (52 : Nat)
        ∧ ((toyRegs [(1, 7)]).ring .F1).mul ((toyRegs [(1, 7)]).elt .F1 1) (52 : Nat) = ((toyRegs [(1, 7)]).ring .F1).one)
      ∧ toy.Ready [(3, degree .F1)] [(1, degree .F1)] (nrSet .F1)
        ∧ ∀ b : Elt .F1, Canonical toy.p toy.kv .F1 b → (toy.ring .F1).mul (toy.elt .F1 1) b ≠ (toy.ring .F1).one := by
  refine ⟨⟨ready_of_check (by decide +kernel), ?_, by decide +kernel⟩, ready_of_check (by decide +kernel), ?_⟩
  · intro c hc
    have h : c = 52 := by simpa [ringOf, primeRing] using hc
    subst h; decide +kernel
  · intro b _ h
    have hz : toy.elt .F1 1 = (0 : Nat) := by decide +kernel
    have ho : (toy.ring .F1).one = (1 : Nat) := by decide +kernel
    rw [hz, ho] at h
    have h' : 0 * b % toy.p = 1 := h
    simp at h'

theorem witness_FfrobResult (ft : FieldType) :
    toy.Ready [(52, degree ft)] [(0, degree ft)] (frobSet ft 31)
      ∧ toy.Ready [(62, 1)] [(0, 1)] [] ∧ toy.Ready [(62, 2)] [(0, 2)] [4 + 31 % 2]
      ∧ toy.Ready [(61, 3)] [(0, 3)] [6 + 31 % 3, 9 + 31 % 3] := by
  cases ft <;>
    exact ⟨ready_of_check (by decide +kernel), ready_of_check (by decide +kernel), ready_of_check (by decide +kernel),
      ready_of_check (by decide +kernel)⟩

theorem witness_FconjResult : FieldType.isQuadratic .F12 = true ∧ toy.Ready [(52, degree .F12)] [(0, degree .F12)] [] :=
  ⟨rfl, ready_of_check (by decide +kernel)⟩

theorem witness_FpowResult : toy.Ready [(52, degree .F12)] [(0, degree .F12)] (nrSet .F12) := ready_of_check (by decide +kernel)

theorem witness_TomFrommResults : toy.Ready [(52, degree .F12), (0, degree .F12)] [] [] := ready_of_check (by decide +kernel)

/-! ### Cyclotomic instructions: one is in the subgroup, zero is not -/

theorem npow_one_of {α : Type} (F : RingOps α) (h : F.mul F.one F.one = F.one) (n : Nat) : F.npow F.one n = F.one := by
  induction n with
  | zero => rfl
  | succ n ih => rw [RingOps.npow, ih, h]

theorem npow_zero_of {α : Type} (F : RingOps α) (z : α) (h : F.mul F.one z = z) (hz : F.mul z z = z) (n : Nat) :
    F.npow z (n + 1) = z := by
  induction n with
  | zero => rw [RingOps.npow, RingOps.npow, h]
  | succ n ih => rw [RingOps.npow, ih, hz]

/-- T103 with one in E0 to E11. -/
def toyOne : State := toyRegs [(0, 55)]

theorem toyOne_inG : toyOne.InG .F12 (toyOne.elt .F12 0) := by
  have h : toyOne.elt .F12 0 = (toyOne.ring .F12).one := by decide +kernel
  unfold State.InG
  rw [h]
  exact npow_one_of _ (by decide +kernel) _

theorem toy_zero_not_inG : ¬ toy.InG .F12 (toy.elt .F12 0) := by
  intro hg
  have hn : cyclotomicOrder toy.p .F12 = 112540272 + 1 := by decide +kernel
  unfold State.InG at hg
  rw [hn, npow_zero_of (toy.ring .F12) (toy.elt .F12 0) (by decide +kernel) (by decide +kernel)] at hg
  exact absurd hg (by decide +kernel)

theorem witness_FcsqrResult :
    FieldType.isCyclotomic .F12 = true
      ∧ (toyOne.Ready [(52, degree .F12)] [(0, degree .F12)] (nrSet .F12) ∧ toyOne.InG .F12 (toyOne.elt .F12 0))
      ∧ toy.Ready [(52, degree .F12)] [(0, degree .F12)] (nrSet .F12) ∧ ¬ toy.InG .F12 (toy.elt .F12 0) :=
  ⟨rfl, ⟨ready_of_check (by decide +kernel), toyOne_inG⟩, ready_of_check (by decide +kernel), toy_zero_not_inG⟩

theorem witness_FcexpResult :
    FieldType.isCyclotomic .F12 = true
      ∧ (toy.Ready [(52, degree .F12)] [(0, degree .F12)] (nrSet .F12) ∧ toy.w 63 = 0)
      ∧ (toyOne.Ready [(52, degree .F12)] [(0, degree .F12)] (nrSet .F12) ∧ toyOne.InG .F12 (toyOne.elt .F12 0))
      ∧ (toyRegs [(63, 2)]).Ready [(52, degree .F12)] [(0, degree .F12)] (nrSet .F12) ∧ (toyRegs [(63, 2)]).w 63 ≠ 0
        ∧ ¬ (toyRegs [(63, 2)]).InG .F12 ((toyRegs [(63, 2)]).elt .F12 0) := by
  refine ⟨rfl, ⟨ready_of_check (by decide +kernel), by decide +kernel⟩,
    ⟨ready_of_check (by decide +kernel), toyOne_inG⟩, ready_of_check (by decide +kernel), by decide +kernel, ?_⟩
  intro hg
  have hn : cyclotomicOrder (toyRegs [(63, 2)]).p .F12 = 112540272 + 1 := by decide +kernel
  unfold State.InG at hg
  rw [hn, npow_zero_of ((toyRegs [(63, 2)]).ring .F12) ((toyRegs [(63, 2)]).elt .F12 0) (by decide +kernel)
    (by decide +kernel)] at hg
  exact absurd hg (by decide +kernel)

/-! ### Point instructions -/

theorem witness_PointFormulaResults (ft : FieldType) (h : ft.isPoint = true) :
    toy.Ready [(55, 3 * degree ft)] [(0, 3 * degree ft), (9, 3 * degree ft)] (nrSet ft ++ kstSpan ft (curveAIdx ft))
      ∧ toy.Ready [(55, 3 * degree ft)] [(0, 3 * degree ft)] (nrSet ft ++ kstSpan ft (curveAIdx ft)) := by
  cases ft <;> first | (exact ⟨ready_of_check (by decide +kernel), ready_of_check (by decide +kernel)⟩) | cases h

theorem witness_PnegPmulqResults :
    FieldType.isPoint .F3 = true ∧ toy.Ready [(55, 3 * degree .F3)] [(0, 3 * degree .F3)] [] ∧ FieldType.isTwist .F2 = true
      ∧ FieldType.isTwist .F3 = true
      ∧ toy.Ready [(58, 3 * degree .F2)] [(0, 3 * degree .F2)] (nrSet .F2 ++ frobSet .F2 1 ++ kstSpan .F2 80 ++ kstSpan .F2 83)
      ∧ toy.Ready [(55, 3 * degree .F3)] [(0, 3 * degree .F3)]
        (nrSet .F3 ++ frobSet .F3 1 ++ kstSpan .F3 80 ++ kstSpan .F3 83) :=
  ⟨rfl, ready_of_check (by decide +kernel), rfl, rfl, ready_of_check (by decide +kernel), ready_of_check (by decide +kernel)⟩

/-- The modulus 9, under which 3 is a zero divisor, with the word 3 in E2. -/
def toyNine : State := (({ toyRaw with modp := 9 } : State).commitConfig).setE 2 3

theorem toyNine_z : (toyNine.point .F1 0).z = (3 : Nat) ∨ (toyNine.point .F1 0).z = (6 : Nat) := by decide +kernel

/-- An identity; an affine point; a Z that is a zero divisor. -/
theorem witness_PaffResults :
    FieldType.isPoint .F1 = true
      ∧ (toy.Ready [(6, 3 * degree .F1)] [(0, 3 * degree .F1)] (nrSet .F1) ∧ (toy.point .F1 0).z = (toy.ring .F1).zero)
      ∧ ((toyRegs [(2, 7)]).Ready [(6, 3 * degree .F1)] [(0, 3 * degree .F1)] (nrSet .F1)
        ∧ Canonical (toyRegs [(2, 7)]).p (toyRegs [(2, 7)]).kv .F1 (52 : Nat)
        ∧ ((toyRegs [(2, 7)]).ring .F1).mul ((toyRegs [(2, 7)]).point .F1 0).z (52 : Nat) = ((toyRegs [(2, 7)]).ring .F1).one)
      ∧ toyNine.Ready [(6, 3 * degree .F1)] [(0, 3 * degree .F1)] (nrSet .F1)
        ∧ (toyNine.point .F1 0).z ≠ (toyNine.ring .F1).zero
        ∧ ∀ zi : Elt .F1, Canonical toyNine.p toyNine.kv .F1 zi →
          (toyNine.ring .F1).mul (toyNine.point .F1 0).z zi ≠ (toyNine.ring .F1).one := by
  refine ⟨rfl, ⟨ready_of_check (by decide +kernel), by decide +kernel⟩,
    ⟨ready_of_check (by decide +kernel), ?_, by decide +kernel⟩, ready_of_check (by decide +kernel), by decide +kernel, ?_⟩
  · intro c hc
    have h : c = 52 := by simpa [ringOf, primeRing] using hc
    subst h; decide +kernel
  · intro zi _ h
    have hp : toyNine.p = 9 := by decide +kernel
    have h' : (toyNine.point .F1 0).z * zi % toyNine.p = 1 % toyNine.p := h
    have key : ∀ n : Nat, 3 * n % 9 ≠ 1 % 9 ∧ 6 * n % 9 ≠ 1 % 9 := by omega
    rw [hp] at h'
    obtain hz | hz := toyNine_z <;> rw [hz] at h'
    · exact (key zi).1 h'
    · exact (key zi).2 h'

theorem witness_PoncResult (ft : FieldType) (h : ft.isPoint = true) :
    toy.Ready [] [(55, 3 * degree ft)] (nrSet ft ++ kstSpan ft (curveAIdx ft) ++ kstSpan ft (curveBIdx ft)) := by
  cases ft <;> first | (exact ready_of_check (by decide +kernel)) | cases h

theorem witness_PointLaws :
    toy.Configured ∧ Canonical toy.p toy.kv .F1 (2 : Nat) ∧ Canonical toy.p toy.kv .F1 (18 : Nat)
      ∧ Canonical toy.p toy.kv .F1 (102 : Nat) ∧ (102 : Nat) ≠ (toy.ring .F1).zero := by
  have hp : toy.p = 103 := by decide +kernel
  have hz : (102 : Nat) ≠ (toy.ring .F1).zero := by decide +kernel
  refine ⟨toy_configured, ?_, ?_, ?_, hz⟩ <;> simp [Canonical, ringOf, primeRing, hp]

/-! ### Pairing instructions -/

theorem witness_LineResults :
    Apart 0 6 6 6 ∧ toy.Ready [(0, 6)] [(6, 6)] [0, 75, 76, 78, 79] ∧ toy.Ready [(0, 6)] [(6, 6), (60, 4)] [0, 78, 79] :=
  ⟨.inl (by decide), ready_of_check (by decide +kernel), ready_of_check (by decide +kernel)⟩

theorem witness_SparseResults :
    toy.Ready [(52, 12)] [(0, 12), (58, 6)] [0, 2, 3] ∧ toy.Ready [] [(0, 12), (58, 6), (62, 2)] [0, 2, 3] :=
  ⟨ready_of_check (by decide +kernel), ready_of_check (by decide +kernel)⟩

theorem witness_FusedResults :
    Apart 0 12 12 6 ∧ toy.Ready [] [(0, 12), (12, 6), (62, 2)] [0, 2, 3, 75, 76, 78, 79]
      ∧ toy.Ready [] [(0, 12), (12, 6), (58, 6)] [0, 2, 3, 78, 79] :=
  ⟨.inl (by decide), ready_of_check (by decide +kernel), ready_of_check (by decide +kernel)⟩

theorem witness_FusedAgreeWithParts :
    (Fits 24 6 ∧ Apart 24 6 0 12 ∧ Apart 24 6 12 6 ∧ Apart 0 12 12 6)
      ∧ (Apart 24 6 18 2 ∧ Apart 18 2 0 12 ∧ Apart 18 2 12 6 ∧ toy.Ready [] [(0, 12), (12, 6), (18, 2)] [0, 2, 3, 75, 76, 78, 79])
      ∧ (22 : Reg).val = (18 : Reg).val + 4 ∧ Apart 24 6 18 6 ∧ Apart 18 6 0 12 ∧ Apart 18 6 12 6
        ∧ toy.Ready [] [(0, 12), (12, 6), (18, 6)] [0, 2, 3, 78, 79] :=
  ⟨by simp only [Fits, Apart]; decide,
    ⟨by simp only [Apart]; decide, by simp only [Apart]; decide, by simp only [Apart]; decide, ready_of_check (by decide +kernel)⟩,
    by decide, by simp only [Apart]; decide, by simp only [Apart]; decide, by simp only [Apart]; decide,
    ready_of_check (by decide +kernel)⟩

/-! ### Moves and counters -/

theorem witness_MovLdkResults :
    Fits (52 : Reg).val (degree .F12) ∧ Fits (0 : Reg).val (degree .F12) ∧ (116 : KIdx).val + degree .F12 = 128 := by
  simp only [Fits]; decide

theorem witness_LdResult :
    Fits (52 : Reg).val (degree .F12) ∧ (toy.getC 0).toNat + (4084 : Fin 16384).val + degree .F12 = toy.params.dmemWords := by
  simp only [Fits]; decide +kernel

theorem witness_StResult :
    Fits (52 : Reg).val (degree .F12) ∧ (toy.getC 0).toNat + (4084 : Fin 16384).val + degree .F12 ≤ toy.params.dmemWords
      ∧ 11 < degree .F12 := by
  simp only [Fits]; decide +kernel

/-- Bit length 0 and bit length W. -/
theorem witness_CounterResults :
    (toy.w 0 < 2 ^ 0 ∧ (0 = 0 ∨ 2 ^ (0 - 1) ≤ toy.w 0))
      ∧ (toyRegs [(0, 2 ^ 64 - 1)]).w 0 < 2 ^ 64 ∧ (64 = 0 ∨ 2 ^ (64 - 1) ≤ (toyRegs [(0, 2 ^ 64 - 1)]).w 0) := by
  decide +kernel

/-! ### Frames and whole-machine rules -/

theorem witness_RegisterFrame :
    exec (.fmul .F2 62 0 2) toy = .next (execAfter (.fmul .F2 62 0 2) toy)
      ∧ ∀ g ∈ destGroups (.fmul .F2 62 0 2), 61 < g.1 ∨ g.1 + g.2 ≤ 61 := ⟨exec_after _ _, by decide⟩

theorem witness_CounterAndFlagFrame :
    exec (.cset 7 5) toy = .next (execAfter (.cset 7 5) toy) ∧ destCtr (.cset 7 5) ≠ some 0
      ∧ Instr.opcode (.cset 7 5) ∉ [Opcode.badd, .bsub, .bcmp, .ponc] := ⟨exec_after _ _, by decide, by decide⟩

/-- The bytes beside the stored word. -/
theorem witness_MemoryFrame :
    (exec .nop toy = .next (execAfter .nop toy) ∧ Instr.opcode .nop ≠ .st)
      ∧ exec (.st .F1 0 0 5) toy = .next (execAfter (.st .F1 0 0 5) toy)
        ∧ (∀ j, j < degree .F1 → 0x8013F < dmemAddr (toy.dmemEa 0 5 + j) ∨ dmemAddr (toy.dmemEa 0 5 + j) + 48 ≤ 0x8013F)
        ∧ ∀ j, j < degree .F1 → 0x80170 < dmemAddr (toy.dmemEa 0 5 + j) ∨ dmemAddr (toy.dmemEa 0 5 + j) + 48 ≤ 0x80170 :=
  ⟨⟨exec_after _ _, by decide⟩, exec_after _ _, by decide +kernel, by decide +kernel⟩

theorem witness_SpecialFrame :
    exec .nop toy = .next (execAfter .nop toy) ∧ Instr.opcode .nop ≠ .fcsqr ∧ Instr.opcode .nop ≠ .fcexp :=
  ⟨exec_after _ _, by decide, by decide⟩

theorem witness_FieldResultsReduced :
    toy.ConfigInv ∧ exec (.fone .F12 52) toy = .next (execAfter (.fone .F12 52) toy)
      ∧ (execAfter (.fone .F12 52) toy).instret = toy.instret + 1 ∧ isFieldResult (Instr.opcode (.fone .F12 52)) = true
      ∧ (52, 12) ∈ destGroups (.fone .F12 52) :=
  ⟨fun _ => toy_configured, exec_after _ _, by decide +kernel, by decide, by decide⟩

/-- Registers that differ in bit 383. -/
theorem witness_HighBitsIgnored :
    Instr.opcode (.badd 3 1 2) ∉ [Opcode.mov, .ldk, .ld, .st] ∧ (toyRegs [(1, 2 ^ 383 + 5)]).e ≠ (toyRegs [(1, 5)]).e
      ∧ ∀ k, ({ toyRegs [(1, 5)] with e := (toyRegs [(1, 2 ^ 383 + 5)]).e } : State).w k = (toyRegs [(1, 5)]).w k := by
  refine ⟨by decide, by decide +kernel, fun k => ?_⟩
  by_cases hk : k < 64
  · have h : ∀ k, k < 64 → ({ toyRegs [(1, 5)] with e := (toyRegs [(1, 2 ^ 383 + 5)]).e } : State).w k = (toyRegs [(1, 5)]).w k := by
      decide +kernel
    exact h k hk
  · simp [State.w, State.getE, State.radix, State.width, State.limbs, Vector.getD, hk]

/-! ### The host interface -/

theorem witness_ConfigCommit :
    State.reset.seq ≠ .running ∧ (State.reset.p % 2 = 0 ∨ State.reset.p < 3) ∧ toyRaw.seq ≠ .running ∧ toyRaw.p % 2 = 1
      ∧ 3 ≤ toyRaw.p := by decide +kernel

/-- Every bit of CTRL but SRST, with reserved bits set. -/
theorem witness_ControlWrites :
    State.reset.seq ≠ .running ∧ toy.seq = .running ∧ (0xFFFFFFF7 : BitVec 32).getLsbD 3 = false := by decide +kernel

theorem witness_RefusedAccesses :
    ((2 : Nat) ≠ 4 ∨ 0x000 % 4 ≠ 0) ∧ ((4 : Nat) ≠ 4 ∨ 0x1001 % 4 ≠ 0)
      ∧ (∀ off ∈ [0x03C, 0x048, 0x05C, 0x080, 0x0FC, 0x200, 0xFFC, 0x4000, 0x3FFFC, 0x44000, 0x7FFFC, 0xC0000, 0xFFFFC],
        ReservedOffset toy.params off)
      ∧ toy.seq = .running
      ∧ (∀ off ∈ [0x1000, 0x1FEC, 0x2000, 0x3FEC, 0x40000, 0x43FFC, 0x80000, 0xBFFEC], StorageOffset toy.params off)
      ∧ 0x00C % 4 = 0 ∧ 0x12C % 4 = 0 := by
  unfold ReservedOffset StorageOffset CsrOffset; decide +kernel

theorem witness_HostStorage :
    State.reset.params.valid = true ∧ State.reset.seq ≠ .running ∧ StorageOffset State.reset.params 0x1000
      ∧ StorageOffset State.reset.params 0xBFFEC ∧ 0xBFFEC ≠ 0x1000 := by
  unfold StorageOffset; decide +kernel

theorem witness_HostReadsAndPadding :
    State.reset.seq ≠ .running ∧ ∀ off ∈ [0x130, 0x1FC, 0x1030, 0x3FFC, 0x80030, 0xBFFFC], PaddingOffset State.reset.params off := by
  unfold PaddingOffset; decide +kernel

/-- Writes of NLIMBS that are ignored and that are not, at the ends of the range; the ends of the read-only windows. -/
theorem witness_CsrReadsAndWrites :
    State.reset.seq ≠ .running
      ∧ ((0xFFFFFFF8 : BitVec 32).toNat % 8 = 0 ∧ (0x7 : BitVec 32).toNat % 8 = 7)
      ∧ ((0x1 : BitVec 32).toNat % 8 = 1 ∧ (0xE : BitVec 32).toNat % 8 = 6)
      ∧ (0x000 % 4 = 0 ∧ 0x140 % 4 = 0 ∧ 0x1FC % 4 = 0 ∧ 0x1FC < 0x200) := by decide +kernel

/-! ### Encoding -/

/-- HALT and NOP with the lowest and the highest must-be-zero bit set. -/
theorem witness_NopHaltResults :
    (InsnWord.field 0xF8000001 26 6 ∈ [0x3E, 0x3F] ∧ InsnWord.field 0xF8000001 0 26 ≠ 0)
      ∧ (InsnWord.field 0xFE000000 26 6 ∈ [0x3E, 0x3F] ∧ InsnWord.field 0xFE000000 0 26 ≠ 0)
      ∧ exec .halt toy = .next (execAfter .halt toy) :=
  ⟨by decide +kernel, by decide +kernel, exec_after _ _⟩

theorem witness_IllegalEncodings :
    ∃ s : State, s.seq = .running ∧ s.noInputDue = true ∧ s.pc.toNat < s.params.imemWords
      ∧ decode (s.imemWord s.pc.toNat) = .error .illegalFt ∧ step s = .next (after s) :=
  ⟨toy.withFetchWord 32 0x07800000, rfl, rfl, by decide +kernel, by
    have h : (toy.withFetchWord 32 0x07800000).imemWord 0 = 0x07800000 := by decide +kernel
    show decode ((toy.withFetchWord 32 0x07800000).imemWord 0) = _
    rw [h]; rfl, step_after _⟩

theorem witness_DecodeEncode : Instr.wellFormed (.fmul .F12 63 63 63) = true := rfl

theorem witness_EncodeDecode : decode 0xB0006240 = .ok (.mldbl 0 12 18) := by rfl

end Sys2Proof.Tests
end

section
/-! PROOFS. The Montgomery constants by value (00_scope R15), writes of CTRL (10_state R48) and the configuration commit (R54). -/

namespace Sys2Proof.Machine

/-! ## The Montgomery constants (R15) -/

/-- (p + 1)/2 is the inverse of 2 modulo an odd p, so its W-th power is the inverse of R = 2^W. -/
theorem two_pow_mul_rInv_mod {p : Nat} (hodd : p % 2 = 1) (W : Nat) : 2 ^ W * rInv p W % p = 1 % p := by
  have hhalf : 2 * ((p + 1) / 2) = p + 1 := by omega
  calc 2 ^ W * rInv p W % p
    _ = 2 ^ W * ((p + 1) / 2) ^ W % p := by rw [rInv, Nat.mul_mod, Nat.mod_mod, ← Nat.mul_mod]
    _ = (p + 1) ^ W % p := by rw [← Nat.mul_pow, hhalf]
    _ = 1 ^ W % p := by rw [Nat.pow_mod, Nat.add_mod_left, ← Nat.pow_mod]
    _ = 1 % p := by rw [Nat.one_pow]

theorem rInv_lt {p : Nat} (hp : 0 < p) (W : Nat) : rInv p W < p := Nat.mod_lt _ hp

/-- The division in `negPInv` is exact and its subtraction does not truncate: pinv and Rinv are the Bezout factors of p and R. -/
theorem negPInv_mul_add_one {p : Nat} (hodd : p % 2 = 1) (hp : 1 < p) (W : Nat) :
    negPInv p W * p + 1 = 2 ^ W * rInv p W := by
  have hmod : 2 ^ W * rInv p W % p = 1 := (two_pow_mul_rInv_mod hodd W).trans (Nat.mod_eq_of_lt hp)
  have hdiv := Nat.div_add_mod (2 ^ W * rInv p W) p
  rw [hmod] at hdiv
  rw [negPInv, ← hdiv, Nat.add_sub_cancel, Nat.mul_div_cancel_left _ (Nat.lt_of_succ_lt hp), Nat.mul_comm]

theorem negPInv_lt {p : Nat} (hp : 0 < p) (W : Nat) : negPInv p W < 2 ^ W := by
  have hprod : 2 ^ W * rInv p W < p * 2 ^ W := by
    rw [Nat.mul_comm p]
    exact Nat.mul_lt_mul_of_pos_left (rInv_lt hp W) (Nat.two_pow_pos W)
  exact Nat.div_lt_of_lt_mul (Nat.lt_of_le_of_lt (Nat.sub_le _ 1) hprod)

/-- pinv = -p^-1 mod R. -/
theorem negPInv_mul_add_one_mod {p : Nat} (hodd : p % 2 = 1) (hp : 1 < p) (W : Nat) :
    (negPInv p W * p + 1) % 2 ^ W = 0 := by
  rw [negPInv_mul_add_one hodd hp, Nat.mul_mod_right]

/-! ## Writes of CTRL (R48) -/

theorem State.running_eq_false {s : State} (h : s.seq ≠ .running) : s.running = false := by
  simp [State.running, h]

/-- A write of CTRL is never refused: CTRL is WO, and R112 closes only RWI registers (R46, R48). -/
theorem State.hostWrite_ctrl (s : State) (d : BitVec 32) : s.hostWrite 0x004 4 d = s.writeCtrl d := by
  have hloc : s.locate 0x004 = .csr .ctrl := rfl
  simp [State.hostWrite, hloc, aligned32, State.refusesWrite, Csr.isRwi, State.writeTarget, State.writeCsr]

theorem State.writeCtrl_cfgcommit (s : State) : s.writeCtrl 0x4 = s.ctrlCommit := rfl

theorem State.ctrlCommit_of_not_running {s : State} (h : s.seq ≠ .running) : s.ctrlCommit = s.commitConfig := by
  simp [State.ctrlCommit, State.running_eq_false h]

/-! ## The configuration commit (R54) -/

theorem State.hostWrite_cfgcommit {s : State} (h : s.seq ≠ .running) : s.hostWrite 0x004 4 0x4 = s.commitConfig := by
  rw [State.hostWrite_ctrl, State.writeCtrl_cfgcommit, State.ctrlCommit_of_not_running h]

theorem State.commitConfig_of_illegal {s : State} (h : s.p % 2 = 0 ∨ s.p < 3) :
    s.commitConfig =
      { s with
        cfgstat := { badEven := decide (s.p % 2 = 0), badSmall := decide (s.p < 3), badWide := false }
        pinv := 0
        rsq := 0
        rone := 0
        cfgok := false } := by
  have hbad : (s.p % 2 == 0 || decide (s.p < 3)) = true := by simpa using h
  rw [State.commitConfig, if_pos hbad]
  rfl

theorem State.commitConfig_of_legal {s : State} (hodd : s.p % 2 = 1) (hthree : 3 ≤ s.p) :
    s.commitConfig =
      { s with
        cfgstat := { badEven := false, badSmall := false, badWide := false }
        pinv := wordOf (negPInv s.p s.width)
        rsq := wordOf (s.radix * s.radix % s.p)
        rone := wordOf (s.radix % s.p)
        cfgok := true } := by
  have heven : (s.p % 2 == 0) = false := by simp [hodd]
  have hsmall : decide (s.p < 3) = false := by simpa using hthree
  simp [State.commitConfig, heven, hsmall]

/-- Settles O51: a legal modulus takes the constants, whose PINV is `negPInv`, and every other modulus clears them. -/
theorem configCommit : Obligations.ConfigCommit := by
  unfold Obligations.ConfigCommit
  intro s hseq
  rw [State.hostWrite_cfgcommit hseq]
  refine ⟨State.commitConfig_of_illegal, fun hodd hthree => ?_⟩
  exact ⟨negPInv s.p s.width, negPInv_lt (by omega) _, negPInv_mul_add_one_mod hodd (by omega) _,
    State.commitConfig_of_legal hodd hthree⟩

end Sys2Proof.Machine
end

section
/-! PROOFS. The instruction word by its fields, the decoder as the inverse of the encoder, and the decode checks (30_encoding
R162, R166). -/

namespace Sys2Proof

/-! ## Fields of a word -/

/-- A group of bits is zero where its two parts are. -/
theorem InsnWord.field_add_eq_zero_iff (w : InsnWord) (lo a b : Nat) :
    w.field lo (a + b) = 0 ↔ w.field lo a = 0 ∧ w.field (lo + a) b = 0 := by
  have hsplit : w.field lo (a + b) = w.field lo a + 2 ^ a * w.field (lo + a) b := by
    simp only [InsnWord.field, Nat.pow_add, Nat.mod_mul, Nat.div_div_eq_div_mul]
  have hpos : 2 ^ a ≠ 0 := Nat.ne_of_gt (Nat.two_pow_pos a)
  simp only [hsplit, Nat.add_eq_zero_iff, Nat.mul_eq_zero, hpos, false_or]

@[simp] theorem InsnWord.field_16_7_eq_zero_iff (w : InsnWord) : w.field 16 7 = 0 ↔ w.field 16 1 = 0 ∧ w.field 17 6 = 0 :=
  w.field_add_eq_zero_iff 16 1 6

@[simp] theorem InsnWord.field_16_10_eq_zero_iff (w : InsnWord) :
    w.field 16 10 = 0 ↔ w.field 16 1 = 0 ∧ w.field 17 6 = 0 ∧ w.field 23 3 = 0 :=
  (w.field_add_eq_zero_iff 16 1 9).trans (and_congr_right' (w.field_add_eq_zero_iff 17 6 3))

@[simp] theorem InsnWord.field_0_17_eq_zero_iff (w : InsnWord) : w.field 0 17 = 0 ↔ w.field 0 16 = 0 ∧ w.field 16 1 = 0 :=
  w.field_add_eq_zero_iff 0 16 1

@[simp] theorem InsnWord.field_0_26_eq_zero_iff (w : InsnWord) :
    w.field 0 26 = 0 ↔ w.field 0 16 = 0 ∧ w.field 16 1 = 0 ∧ w.field 17 6 = 0 ∧ w.field 23 3 = 0 :=
  (w.field_add_eq_zero_iff 0 16 10).trans (and_congr_right' w.field_16_10_eq_zero_iff)

/-! ### The operand fields as numbers -/

@[simp] theorem InsnWord.rd_eq_iff (w : InsnWord) (r : Reg) : w.rd = r ↔ w.field 17 6 = r := by
  simp [Fin.ext_iff, InsnWord.rd, InsnWord.field]

@[simp] theorem InsnWord.rs1_eq_iff (w : InsnWord) (r : Reg) : w.rs1 = r ↔ w.field 11 6 = r := by
  simp [Fin.ext_iff, InsnWord.rs1, InsnWord.field]

@[simp] theorem InsnWord.rs2_eq_iff (w : InsnWord) (r : Reg) : w.rs2 = r ↔ w.field 5 6 = r := by
  simp [Fin.ext_iff, InsnWord.rs2, InsnWord.field]

@[simp] theorem InsnWord.aux_eq_iff (w : InsnWord) (k : Fin 32) : w.aux = k ↔ w.field 0 5 = k := by
  simp [Fin.ext_iff, InsnWord.aux, InsnWord.field]

@[simp] theorem InsnWord.kidx_eq_iff (w : InsnWord) (k : KIdx) : w.kidx = k ↔ w.field 10 7 = k := by
  simp [Fin.ext_iff, InsnWord.kidx, InsnWord.field]

@[simp] theorem InsnWord.cb_eq_iff (w : InsnWord) (c : Ctr) : w.cb = c ↔ w.field 14 3 = c := by
  simp [Fin.ext_iff, InsnWord.cb, InsnWord.field]

@[simp] theorem InsnWord.off_eq_iff (w : InsnWord) (o : Fin 16384) : w.off = o ↔ w.field 0 14 = o := by
  simp [Fin.ext_iff, InsnWord.off, InsnWord.field]

@[simp] theorem InsnWord.ctr_eq_iff (w : InsnWord) (c : Ctr) : w.ctr = c ↔ w.field 23 3 = c := by
  simp [Fin.ext_iff, InsnWord.ctr, InsnWord.field]

@[simp] theorem InsnWord.cs_eq_iff (w : InsnWord) (c : Ctr) : w.cs = c ↔ w.field 20 3 = c := by
  simp [Fin.ext_iff, InsnWord.cs, InsnWord.field]

@[simp] theorem InsnWord.imm16_eq_iff (w : InsnWord) (x : Half) : w.imm16 = x ↔ w.field 0 16 = x.toNat := by
  simp [← BitVec.toNat_inj, InsnWord.imm16, InsnWord.field]

theorem half_toNat_lt (x : Half) : x.toNat < 65536 := x.isLt

/-! ### A word of each format is its fields (R141 to R154) -/

theorem encR_eq_iff (w : InsnWord) (op : Opcode) {ft rd rs1 rs2 aux : Nat} (hft : ft < 8) (hrd : rd < 64) (hrs1 : rs1 < 64)
    (hrs2 : rs2 < 64) (haux : aux < 32) :
    encR op ft rd rs1 rs2 aux = w ↔
      w.field 26 6 = op.code ∧ w.field 23 3 = ft ∧ w.field 17 6 = rd ∧ w.field 11 6 = rs1 ∧ w.field 5 6 = rs2
        ∧ w.field 0 5 = aux := by
  have hop := Laws.OpcodeField.Opcode.code_lt op
  have hw := w.isLt
  simp only [← BitVec.toNat_inj, encR, InsnWord.field, BitVec.toNat_ofNat]
  omega

theorem encK_eq_iff (w : InsnWord) (op : Opcode) {ft rd k : Nat} (hft : ft < 8) (hrd : rd < 64) (hk : k < 128) :
    encK op ft rd k = w ↔
      w.field 26 6 = op.code ∧ w.field 23 3 = ft ∧ w.field 17 6 = rd ∧ w.field 10 7 = k ∧ w.field 0 10 = 0 := by
  have hop := Laws.OpcodeField.Opcode.code_lt op
  have hw := w.isLt
  simp only [← BitVec.toNat_inj, encK, InsnWord.field, BitVec.toNat_ofNat]
  omega

theorem encM_eq_iff (w : InsnWord) (op : Opcode) {ft r cb off : Nat} (hft : ft < 8) (hr : r < 64) (hcb : cb < 8)
    (hoff : off < 16384) :
    encM op ft r cb off = w ↔
      w.field 26 6 = op.code ∧ w.field 23 3 = ft ∧ w.field 17 6 = r ∧ w.field 14 3 = cb ∧ w.field 0 14 = off := by
  have hop := Laws.OpcodeField.Opcode.code_lt op
  have hw := w.isLt
  simp only [← BitVec.toNat_inj, encM, InsnWord.field, BitVec.toNat_ofNat]
  omega

theorem encI_eq_iff (w : InsnWord) (op : Opcode) {top rd imm : Nat} (htop : top < 8) (hrd : rd < 64) (himm : imm < 65536) :
    encI op top rd imm = w ↔
      w.field 26 6 = op.code ∧ w.field 23 3 = top ∧ w.field 17 6 = rd ∧ w.field 16 1 = 0 ∧ w.field 0 16 = imm := by
  have hop := Laws.OpcodeField.Opcode.code_lt op
  have hw := w.isLt
  simp only [← BitVec.toNat_inj, encI, InsnWord.field, BitVec.toNat_ofNat]
  omega

theorem encA_eq_iff (w : InsnWord) (op : Opcode) {cd cs imm : Nat} (hcd : cd < 8) (hcs : cs < 8) (himm : imm < 65536) :
    encA op cd cs imm = w ↔
      w.field 26 6 = op.code ∧ w.field 23 3 = cd ∧ w.field 20 3 = cs ∧ w.field 16 4 = 0 ∧ w.field 0 16 = imm := by
  have hop := Laws.OpcodeField.Opcode.code_lt op
  have hw := w.isLt
  simp only [← BitVec.toNat_inj, encA, InsnWord.field, BitVec.toNat_ofNat]
  omega

/-! ### Codes -/

@[simp] theorem FieldType.code_F1 : FieldType.F1.code = 0 := rfl

theorem FieldType.ofCode_code (ft : FieldType) : FieldType.ofCode ft.code = some ft := by cases ft <;> rfl

theorem FieldType.code_of_ofCode {n : Nat} {ft : FieldType} (h : FieldType.ofCode n = some ft) : ft.code = n := by
  unfold FieldType.ofCode at h
  split at h <;> cases h <;> rfl

theorem FieldType.ofCode_eq_some_iff (n : Nat) (ft : FieldType) : FieldType.ofCode n = some ft ↔ n = ft.code :=
  ⟨fun h => (FieldType.code_of_ofCode h).symm, fun h => h ▸ FieldType.ofCode_code ft⟩

theorem Cond.ofCode_code (c : Cond) : Cond.ofCode c.code = some c := by cases c <;> rfl

theorem Cond.code_of_ofCode {n : Nat} {c : Cond} (h : Cond.ofCode n = some c) : c.code = n := by
  unfold Cond.ofCode at h
  split at h <;> cases h <;> rfl

theorem Cond.ofCode_eq_some_iff (n : Nat) (c : Cond) : Cond.ofCode n = some c ↔ n = c.code :=
  ⟨fun h => (Cond.code_of_ofCode h).symm, fun h => h ▸ Cond.ofCode_code c⟩

/-- Codes 6 and 7 name no condition (R159). -/
theorem Cond.ofCode_eq_none_iff (n : Nat) : Cond.ofCode n = none ↔ 5 < n := by
  match n with
  | 0 | 1 | 2 | 3 | 4 | 5 => decide
  | m + 6 => simp [Cond.ofCode]

theorem Opcode.ofCode_code (op : Opcode) : Opcode.ofCode op.code = some op := by cases op <;> rfl

theorem Opcode.ofCode_eq_some_iff (n : Nat) (op : Opcode) : Opcode.ofCode n = some op ↔ n = op.code :=
  ⟨fun h => (by simpa using List.find?_some h : op.code = n).symm, fun h => h ▸ Opcode.ofCode_code op⟩

/-- The 16 reserved codes (R156). -/
theorem Opcode.ofCode_eq_none_iff {n : Nat} (hn : n < 64) :
    Opcode.ofCode n = none ↔
      n ∈ [0x00, 0x1A, 0x1B, 0x1C, 0x1D, 0x1E, 0x1F, 0x27, 0x2E, 0x2F, 0x38, 0x39, 0x3A, 0x3B, 0x3C, 0x3D] := by
  revert n
  decide

/-- The codes of the field types that a check of ft lets through, in the order of R146. -/
def legalCodes (legal : FieldType → Bool) : List Nat :=
  ([.F1, .F2, .F3, .F4, .F6, .F6B, .F12].filter legal).map FieldType.code

theorem mem_legalCodes_iff (legal : FieldType → Bool) (n : Nat) :
    n ∈ legalCodes legal ↔ ∃ ft : FieldType, n = ft.code ∧ legal ft = true := by
  have hall : ∀ ft : FieldType, ft ∈ [.F1, .F2, .F3, .F4, .F6, .F6B, .F12] := fun ft => by cases ft <;> decide
  simp only [legalCodes, List.mem_map, List.mem_filter, hall, true_and]
  simp only [and_comm, eq_comm]

/-! ## What the checks of a word answer (R162) -/

section Checks

variable (w : InsnWord) (zs : List (Nat × Nat))

@[simp] theorem InsnWord.checkZero_eq_ok_iff (i j : Instr) : w.checkZero zs i = .ok j ↔ w.allZero zs = true ∧ i = j := by
  unfold InsnWord.checkZero
  split <;> simp [*]

@[simp] theorem InsnWord.checkZero_eq_error_iff (i : Instr) (k : Illegal) :
    w.checkZero zs i = .error k ↔ k = .mustBeZero ∧ w.allZero zs = false := by
  unfold InsnWord.checkZero
  split <;> simp [*, eq_comm]

@[simp] theorem InsnWord.withFt_eq_ok_iff (legal : FieldType → Bool) (mk : FieldType → Instr) (j : Instr) :
    w.withFt legal zs mk = .ok j ↔
      ∃ ft : FieldType, mk ft = j ∧ legal ft = true ∧ w.field 23 3 = ft.code ∧ w.allZero zs = true := by
  unfold InsnWord.withFt
  simp only [← FieldType.ofCode_eq_some_iff]
  cases FieldType.ofCode (w.field 23 3) with
  | none => simp
  | some ft => cases h : legal ft <;> grind [InsnWord.checkZero_eq_ok_iff]

/-- The ft field is checked before the must-be-zero bits. -/
@[simp] theorem InsnWord.withFt_eq_error_iff (legal : FieldType → Bool) (mk : FieldType → Instr) (k : Illegal) :
    w.withFt legal zs mk = .error k ↔
      k = .illegalFt ∧ w.field 23 3 ∉ legalCodes legal
        ∨ k = .mustBeZero ∧ w.field 23 3 ∈ legalCodes legal ∧ w.allZero zs = false := by
  unfold InsnWord.withFt
  simp only [mem_legalCodes_iff, ← FieldType.ofCode_eq_some_iff]
  cases FieldType.ofCode (w.field 23 3) with
  | none => simp [eq_comm (b := k)]
  | some ft => cases h : legal ft <;> simp [h, eq_comm (b := k)]

@[simp] theorem InsnWord.withCond_eq_ok_iff (mk : Cond → Instr) (j : Instr) :
    w.withCond zs mk = .ok j ↔ ∃ c : Cond, mk c = j ∧ w.field 23 3 = c.code ∧ w.allZero zs = true := by
  unfold InsnWord.withCond
  simp only [← Cond.ofCode_eq_some_iff]
  cases Cond.ofCode (w.field 23 3) with
  | none => simp
  | some c => grind [InsnWord.checkZero_eq_ok_iff]

/-- The condition is checked before the must-be-zero bits. -/
@[simp] theorem InsnWord.withCond_eq_error_iff (mk : Cond → Instr) (k : Illegal) :
    w.withCond zs mk = .error k ↔
      k = .illegalCond ∧ 5 < w.field 23 3 ∨ k = .mustBeZero ∧ ¬ 5 < w.field 23 3 ∧ w.allZero zs = false := by
  unfold InsnWord.withCond
  simp only [← Cond.ofCode_eq_none_iff]
  cases Cond.ofCode (w.field 23 3) with
  | none => simp [eq_comm (b := k)]
  | some c => simp

end Checks

/-! ## The decoder, opcode by opcode -/

theorem legalCodes_anyFt : legalCodes anyFt = [0, 1, 2, 3, 4, 5, 6] := rfl
theorem legalCodes_onlyF1 : legalCodes onlyF1 = [0] := rfl
theorem legalCodes_isQuadratic : legalCodes FieldType.isQuadratic = [1, 3, 5, 6] := rfl
theorem legalCodes_isCyclotomic : legalCodes FieldType.isCyclotomic = [5, 6] := rfl
theorem legalCodes_isPoint : legalCodes FieldType.isPoint = [0, 1, 2] := rfl
theorem legalCodes_isTwist : legalCodes FieldType.isTwist = [1, 2] := rfl

/-- Steps 2 and 3 of R162 never call an opcode reserved. -/
theorem InsnWord.decodeOp_ne_reservedOpcode (w : InsnWord) (op : Opcode) : w.decodeOp op ≠ .error .reservedOpcode := by
  cases op <;> simp [InsnWord.decodeOp]

theorem InsnWord.decodeOp_eq_illegalFt_iff (w : InsnWord) (op : Opcode) :
    w.decodeOp op = .error .illegalFt ↔ ∃ l, Machine.legalFtCodes op = some l ∧ w.field 23 3 ∉ l := by
  cases op <;>
    simp [InsnWord.decodeOp, Machine.legalFtCodes, legalCodes_anyFt, legalCodes_onlyF1, legalCodes_isQuadratic,
      legalCodes_isCyclotomic, legalCodes_isPoint, legalCodes_isTwist]

theorem InsnWord.decodeOp_eq_illegalCond_iff (w : InsnWord) (op : Opcode) :
    w.decodeOp op = .error .illegalCond ↔ op = .bf ∧ 5 < w.field 23 3 := by
  cases op <;> simp [InsnWord.decodeOp]

/-- An opcode's decoder gives instructions of this opcode alone. -/
theorem InsnWord.opcode_of_decodeOp {w : InsnWord} {op : Opcode} {i : Instr} (h : w.decodeOp op = .ok i) : i.opcode = op := by
  cases op <;>
    simp only [InsnWord.decodeOp, InsnWord.withFt_eq_ok_iff, InsnWord.withCond_eq_ok_iff, InsnWord.checkZero_eq_ok_iff] at h <;>
    grind [Instr.opcode]

/-- Decoder and encoder ask the same of the fields of a word: the checks of R162 on the one side, the format of the opcode on the
other (R141 to R158). -/
theorem InsnWord.decodeOp_opcode_eq_ok_iff (w : InsnWord) (i : Instr) :
    w.field 26 6 = i.opcode.code ∧ w.decodeOp i.opcode = .ok i ↔ i.wellFormed = true ∧ encode i = w := by
  cases i <;>
    simp [InsnWord.decodeOp, InsnWord.allZero, anyFt, onlyF1, Instr.wellFormed, Instr.opcode, encode, encR_eq_iff, encK_eq_iff,
      encM_eq_iff, encI_eq_iff, encA_eq_iff, Laws.OpcodeField.FieldType.code_lt, Laws.OpcodeField.Cond.code_lt,
      half_toNat_lt, and_assoc] <;> grind only

/-! ## The decoder (R162) -/

theorem decode_eq_ok_iff_decodeOp (w : InsnWord) (i : Instr) :
    decode w = .ok i ↔ w.field 26 6 = i.opcode.code ∧ w.decodeOp i.opcode = .ok i := by
  unfold decode
  rw [← Opcode.ofCode_eq_some_iff]
  cases Opcode.ofCode (w.field 26 6) with
  | none => simp
  | some op =>
    simp only [Option.some_inj]
    constructor
    · intro h
      obtain rfl := InsnWord.opcode_of_decodeOp h
      exact ⟨rfl, h⟩
    · rintro ⟨rfl, h⟩
      exact h

/-- The decoder is the inverse of the encoder. -/
theorem decode_eq_ok_iff (w : InsnWord) (i : Instr) : decode w = .ok i ↔ i.wellFormed = true ∧ encode i = w :=
  (decode_eq_ok_iff_decodeOp w i).trans (w.decodeOp_opcode_eq_ok_iff i)

/-- The opcode is checked first. -/
theorem decode_eq_error_iff (w : InsnWord) (k : Illegal) :
    decode w = .error k ↔
      k = .reservedOpcode ∧ Opcode.ofCode (w.field 26 6) = none
        ∨ ∃ op : Opcode, w.field 26 6 = op.code ∧ w.decodeOp op = .error k := by
  unfold decode
  simp only [← Opcode.ofCode_eq_some_iff]
  cases Opcode.ofCode (w.field 26 6) with
  | none => simp [eq_comm (b := k)]
  | some op => simp

theorem decode_eq_reservedOpcode_iff (w : InsnWord) :
    decode w = .error .reservedOpcode ↔ Opcode.ofCode (w.field 26 6) = none := by
  simp [decode_eq_error_iff, InsnWord.decodeOp_ne_reservedOpcode]

theorem decode_eq_illegalFt_iff (w : InsnWord) :
    decode w = .error .illegalFt ↔
      ∃ (op : Opcode) (l : List Nat), w.field 26 6 = op.code ∧ Machine.legalFtCodes op = some l ∧ w.field 23 3 ∉ l := by
  simp [decode_eq_error_iff, InsnWord.decodeOp_eq_illegalFt_iff]

theorem decode_eq_illegalCond_iff (w : InsnWord) :
    decode w = .error .illegalCond ↔ w.field 26 6 = Opcode.bf.code ∧ 5 < w.field 23 3 := by
  simp only [decode_eq_error_iff, InsnWord.decodeOp_eq_illegalCond_iff, reduceCtorEq, false_and, false_or]
  constructor
  · rintro ⟨op, hop, rfl, hcond⟩
    exact ⟨hop, hcond⟩
  · rintro ⟨hop, hcond⟩
    exact ⟨.bf, hop, rfl, hcond⟩

/-- What is left to the must-be-zero check: the other three pass, and no instruction has this word. -/
theorem decode_eq_mustBeZero_iff (w : InsnWord) :
    decode w = .error .mustBeZero ↔
      decode w ≠ .error .reservedOpcode ∧ decode w ≠ .error .illegalFt ∧ decode w ≠ .error .illegalCond
        ∧ ¬ ∃ i : Instr, i.wellFormed = true ∧ encode i = w := by
  simp only [← decode_eq_ok_iff]
  cases decode w with
  | ok i => simp
  | error k => cases k <;> simp

namespace Machine

/-! ## A step at an illegal word (R505) -/

theorem State.nextMove_of_noInputDue {s : State} (hseq : s.seq = .running) (hbus : s.noInputDue = true) :
    s.nextMove = .sequencer s.tick := by
  have hrun : s.running = true := by simp [State.running, hseq]
  rcases hb : s.bus with _ | ⟨⟨_ | n, ev⟩, rest⟩
  case nil =>
    have htick : s.tick.bus = s.bus := by simp [State.tick, hb]
    have hself : s.tick = s := by rw [show s.tick = { s with bus := s.tick.bus } from rfl, htick]
    simp [State.nextMove, hb, hrun, hself]
  case cons.zero => simp [State.noInputDue, hb] at hbus
  case cons.succ => simp [State.nextMove, State.tick, hb, hrun]

/-- While SEQ runs and no input is due, a step is one of SEQ, with the next input one step nearer (log 6). -/
theorem step_of_noInputDue {s : State} (hseq : s.seq = .running) (hbus : s.noInputDue = true) : step s = seqStep s.tick := by
  rw [step, State.nextMove_of_noInputDue hseq hbus]

theorem State.fetch_of_illegal {s : State} {k : Illegal} (hpc : s.pc.toNat < s.params.imemWords)
    (hk : decode (s.imemWord s.pc.toNat) = .error k) :
    s.fetch = .error ((.illegalInsn, k.subcode), s.imemWord s.pc.toNat) := by
  rw [State.fetch, if_pos hpc, hk]

/-- A step that decodes an illegal word takes the fault ILLEGAL_INSN, with the subcode in EINFO. -/
theorem step_of_illegal {s : State} {k : Illegal} (hseq : s.seq = .running) (hbus : s.noInputDue = true)
    (hpc : s.pc.toNat < s.params.imemWords) (hk : decode (s.imemWord s.pc.toNat) = .error k) :
    step s = .next (s.tick.takeFault .illegalInsn k.subcode (s.imemWord s.pc.toNat)) := by
  have hfetch : s.tick.fetch = .error ((.illegalInsn, k.subcode), s.imemWord s.pc.toNat) :=
    State.fetch_of_illegal (s := s.tick) hpc hk
  rw [step_of_noInputDue hseq hbus, seqStep, hfetch]

/-- The fault record of an illegal word: the cause code of ILLEGAL_INSN and the subcode (R501). -/
theorem State.takeFault_illegalInsn_record (s : State) (k : Illegal) (w : InsnWord) :
    (s.takeFault .illegalInsn k.subcode w).fault.cause.toNat = 2
      ∧ (s.takeFault .illegalInsn k.subcode w).fault.einfo.toNat = k.subcode := by
  cases k <;> exact ⟨rfl, rfl⟩

/-- Settles O58: the decoder's answers, case by case, and the step that takes the fault. -/
theorem illegalEncodings : Obligations.IllegalEncodings := by
  unfold Obligations.IllegalEncodings
  refine ⟨fun w => ?reserved, decode_eq_illegalFt_iff, decode_eq_illegalCond_iff, decode_eq_mustBeZero_iff, decode_eq_ok_iff,
    fun s t k hseq hbus hpc hk hstep => ?step, rfl, rfl, rfl, rfl⟩
  case reserved =>
    exact (decode_eq_reservedOpcode_iff w).trans (Opcode.ofCode_eq_none_iff (Nat.mod_lt _ (by decide)))
  case step =>
    rw [step_of_illegal hseq hbus hpc hk] at hstep
    cases hstep
    exact State.takeFault_illegalInsn_record ..

/-- Settles O59: each word is the one that encodes the instruction beside it. -/
theorem workedEncodings : Obligations.WorkedEncodings := by
  unfold Obligations.WorkedEncodings
  simp only [decode_eq_ok_iff]
  decide

end Machine

end Sys2Proof
end

section
/-! PROOFS. The Montgomery form of residues and the Montgomery multiplier (00_scope R15, 41_field R232 to R235), the instructions
that need the configuration (R231), and `Ready` as the common checks (60_exceptions R503). -/

namespace Sys2Proof.Machine

/-! ## Residues and Montgomery words (R15) -/

theorem State.Configured.p_pos {s : State} (h : s.Configured) : 0 < s.p := Nat.lt_of_lt_of_le (by decide) h.three

/-- Rinv is the inverse of R modulo p. -/
theorem State.Configured.radix_mul_rInv_mod {s : State} (h : s.Configured) : s.radix * rInv s.p s.width % s.p = 1 :=
  (two_pow_mul_rInv_mod h.odd s.width).trans (Nat.mod_eq_of_lt (Nat.lt_of_lt_of_le (by decide) h.three))

theorem State.Configured.phi_lt {s : State} (h : s.Configured) (x : Nat) : s.phi x < s.p := Nat.mod_lt _ h.p_pos

theorem State.Configured.val_lt {s : State} (h : s.Configured) (x : Nat) : s.val x < s.p := Nat.mod_lt _ h.p_pos

@[simp] theorem State.phi_mod (s : State) (x : Nat) : s.phi (x % s.p) = s.phi x := Nat.mod_mul_mod x s.radix s.p

@[simp] theorem State.val_mod (s : State) (x : Nat) : s.val (x % s.p) = s.val x := Nat.mod_mul_mod x (rInv s.p s.width) s.p

@[simp] theorem State.phi_zero (s : State) : s.phi 0 = 0 := by rw [State.phi, Nat.zero_mul, Nat.zero_mod]

theorem State.Configured.phi_one {s : State} (h : s.Configured) : s.phi 1 = s.rone.toNat := by
  rw [State.phi, Nat.one_mul, h.rone]

theorem State.Configured.mul_radix_mul_rInv_mod {s : State} (h : s.Configured) (x : Nat) :
    x * (s.radix * rInv s.p s.width) % s.p = x % s.p := by
  rw [Nat.mul_mod, h.radix_mul_rInv_mod, Nat.mul_one, Nat.mod_mod]

/-- `val` undoes `phi` modulo p. -/
theorem State.Configured.val_phi {s : State} (h : s.Configured) (x : Nat) : s.val (s.phi x) = x % s.p := calc
  s.val (s.phi x) = s.val (x * s.radix) := s.val_mod _
  _ = x * (s.radix * rInv s.p s.width) % s.p := by rw [State.val, Nat.mul_assoc]
  _ = x % s.p := h.mul_radix_mul_rInv_mod x

/-- `phi` undoes `val` modulo p. -/
theorem State.Configured.phi_val {s : State} (h : s.Configured) (x : Nat) : s.phi (s.val x) = x % s.p := calc
  s.phi (s.val x) = s.phi (x * rInv s.p s.width) := s.phi_mod _
  _ = x * (s.radix * rInv s.p s.width) % s.p := by rw [State.phi, Nat.mul_assoc, Nat.mul_comm s.radix]
  _ = x % s.p := h.mul_radix_mul_rInv_mod x

/-- `val y` is the one residue whose product with R is y modulo p. -/
theorem State.Configured.eq_val {s : State} (h : s.Configured) {x y : Nat} (hx : x < s.p)
    (hxy : x * s.radix % s.p = y % s.p) : x = s.val y := calc
  x = s.val (s.phi x) := by rw [h.val_phi, Nat.mod_eq_of_lt hx]
  _ = s.val (y % s.p) := by rw [State.phi, hxy]
  _ = s.val y := s.val_mod y

/-! ## Sums, differences and negatives of Montgomery words (R235) -/

theorem State.phi_add (s : State) (x y : Nat) : s.phi ((x + y) % s.p) = (s.phi x + s.phi y) % s.p := by
  rw [State.phi_mod, State.phi, Nat.add_mul, Nat.add_mod]
  rfl

/-- Subtraction modulo p takes back an addition modulo p. -/
theorem add_mod_sub_mod_cancel {p a b : Nat} (ha : a < p) (hb : b < p) : ((a + b) % p + p - b) % p = a := by
  by_cases hsum : a + b < p
  · have hback : a + b + p - b = a + p := by omega
    rw [Nat.mod_eq_of_lt hsum, hback, Nat.add_mod_right, Nat.mod_eq_of_lt ha]
  · have hwrap : (a + b) % p = a + b - p := by
      rw [Nat.mod_eq_sub_mod (Nat.le_of_not_lt hsum), Nat.mod_eq_of_lt (by omega)]
    have hback : a + b - p + p - b = a := by omega
    rw [hwrap, hback, Nat.mod_eq_of_lt ha]

/-- A difference modulo p is the number whose sum with the subtrahend is the minuend. -/
theorem State.Configured.phi_sub {s : State} (h : s.Configured) (x : Nat) {y : Nat} (hy : y < s.p) :
    s.phi ((x + s.p - y) % s.p) = (s.phi x + s.p - s.phi y) % s.p := by
  have hback : x + s.p - y + y = x + s.p := by omega
  have hsum : (s.phi (x + s.p - y) + s.phi y) % s.p = s.phi x := by
    rw [← State.phi_add, hback, Nat.add_mod_right, State.phi_mod]
  rw [State.phi_mod, ← hsum, add_mod_sub_mod_cancel (h.phi_lt _) (h.phi_lt y)]

/-- Negation is subtraction from 0, whose word is 0. -/
theorem State.Configured.phi_neg {s : State} (h : s.Configured) {x : Nat} (hx : x < s.p) :
    s.phi ((s.p - x) % s.p) = (s.p - s.phi x) % s.p := by
  simpa only [State.phi_zero, Nat.zero_add] using h.phi_sub 0 hx

/-- Settles O20: R and Rinv cancel modulo p, and multiplication by R distributes over sums. -/
theorem montgomeryForm : Obligations.MontgomeryForm := by
  unfold Obligations.MontgomeryForm
  intro s h
  exact ⟨fun x hx => ⟨(h.val_phi x).trans (Nat.mod_eq_of_lt hx), (h.phi_val x).trans (Nat.mod_eq_of_lt hx)⟩,
    fun x => ⟨h.phi_lt x, h.val_lt x⟩, fun x y hx hy => ⟨s.phi_add x y, h.phi_sub x hy, h.phi_neg hx⟩, s.phi_zero,
    h.phi_one⟩

/-! ## Montgomery reduction (R232, R233) -/

/-- The quotient (T + m * p) / R of REDC, before the last subtraction (R232). -/
def redcQuotient (p pinv R T : Nat) : Nat := (T + T % R * pinv % R * p) / R

theorem redc_eq_ite (p pinv R T : Nat) :
    redc p pinv R T = if redcQuotient p pinv R T ≥ p then redcQuotient p pinv R T - p else redcQuotient p pinv R T := rfl

/-- The quotient factor of REDC makes the division by R exact. -/
theorem redcQuotient_mul {p pinv R : Nat} (hpinv : (pinv * p + 1) % R = 0) (T : Nat) :
    redcQuotient p pinv R T * R = T + T % R * pinv % R * p := by
  have hfactor : T % R * pinv % R * p % R = T * (pinv * p) % R := by
    rw [Nat.mod_mul_mod, Nat.mul_assoc, Nat.mod_mul_mod]
  refine Nat.div_mul_cancel (Nat.dvd_of_mod_eq_zero ?_)
  calc (T + T % R * pinv % R * p) % R
    _ = (T + T * (pinv * p)) % R := by rw [Nat.add_mod, hfactor, ← Nat.add_mod]
    _ = T * (pinv * p + 1) % R := by rw [Nat.mul_add, Nat.mul_one, Nat.add_comm]
    _ = 0 := by rw [Nat.mul_mod, hpinv, Nat.mul_zero, Nat.zero_mod]

/-- REDC divides by R modulo p, for every T. -/
theorem redc_mul_mod {p pinv R : Nat} (hpinv : (pinv * p + 1) % R = 0) (T : Nat) : redc p pinv R T * R % p = T % p := by
  have hexact : redcQuotient p pinv R T * R % p = T % p := by
    rw [redcQuotient_mul hpinv, Nat.add_mul_mod_self_right]
  rw [redc_eq_ite]
  split
  case isTrue hge => rw [Nat.mul_mod, ← Nat.mod_eq_sub_mod hge, ← Nat.mul_mod, hexact]
  case isFalse => exact hexact

/-- Below p * R, the quotient of REDC is below 2 p. -/
theorem redcQuotient_lt {p pinv R T : Nat} (hR : 0 < R) (hT : T < p * R) : redcQuotient p pinv R T < 2 * p := by
  have hfactor : T % R * pinv % R * p ≤ R * p := Nat.mul_le_mul_right p (Nat.le_of_lt (Nat.mod_lt _ hR))
  refine Nat.div_lt_of_lt_mul ?_
  calc
    T + T % R * pinv % R * p < p * R + R * p := Nat.add_lt_add_of_lt_of_le hT hfactor
    _ = R * (2 * p) := by rw [Nat.mul_comm p R, ← Nat.two_mul, Nat.mul_left_comm]

/-- One subtraction reduces a quotient below 2 p. -/
theorem redc_lt {p pinv R T : Nat} (hR : 0 < R) (hT : T < p * R) : redc p pinv R T < p := by
  have hquot : redcQuotient p pinv R T < 2 * p := redcQuotient_lt hR hT
  rw [redc_eq_ite]
  split <;> omega

theorem State.Configured.redc_mul_radix_mod {s : State} (h : s.Configured) (T : Nat) : s.redc T * s.radix % s.p = T % s.p :=
  redc_mul_mod h.pinv T

theorem State.redc_lt (s : State) {T : Nat} (hT : T < s.p * s.radix) : s.redc T < s.p := Machine.redc_lt s.radix_pos hT

theorem State.Configured.redc_eq_val {s : State} (h : s.Configured) {T : Nat} (hT : T < s.p * s.radix) : s.redc T = s.val T :=
  h.eq_val (s.redc_lt hT) (h.redc_mul_radix_mod T)

/-! ## The Montgomery multiplier (R234) -/

theorem State.mul_lt_p_mul_radix (s : State) {a b : Nat} (ha : a < s.p) (hb : b < s.p) : a * b < s.p * s.radix :=
  Nat.mul_lt_mul'' ha (Nat.lt_trans hb s.p_lt_radix)

/-- The residue of the reduced product is the product of the residues. -/
theorem State.val_val_mul (s : State) (a b : Nat) : s.val (s.val (a * b)) = s.val a * s.val b % s.p := calc
  s.val (s.val (a * b)) = s.val (a * b * rInv s.p s.width) := s.val_mod _
  _ = a * rInv s.p s.width * (b * rInv s.p s.width) % s.p := by rw [State.val, Nat.mul_assoc, Nat.mul_mul_mul_comm]
  _ = s.val a * s.val b % s.p := Nat.mul_mod _ _ _

/-! ## `Ready` as the common checks (R503) -/

/-- A checked register is a word of a group whose role asks for the check. -/
theorem Operands.exists_of_mem_checkedRegs {o : Operands} {i : Nat} (hi : i ∈ o.checkedRegs) :
    ∃ g ∈ o.groups, g.role.checked = true ∧ ∃ j < g.size, i = g.base + j := by
  obtain ⟨g, hg, hmem⟩ := List.mem_flatMap.mp hi
  have hgroup : g ∈ o.groups := by
    simp only [List.mem_append] at hg
    simp only [Operands.groups, List.mem_append]
    obtain (hrs1 | hrs2) | hrd := hg
    · exact .inl (.inr hrs1)
    · exact .inr hrs2
    · exact .inl (.inl hrd)
  split at hmem
  case isTrue hrole =>
    obtain ⟨j, hj, rfl⟩ := List.mem_map.mp hmem
    exact ⟨g, hgroup, hrole, j, List.mem_range.mp hj, rfl⟩
  case isFalse => cases hmem

/-- No common check fails in a `Ready` state whose lists name the groups of the operands, those with a checked role in `srcs`. -/
theorem State.Ready.commonChecks_eq_none {s : State} {dsts srcs : List (Nat × Nat)} {o : Operands} (h : s.Ready dsts srcs o.kst)
    (hgroups : ∀ g ∈ o.groups, (g.base, g.size) ∈ dsts ++ srcs)
    (hchecked : ∀ g ∈ o.groups, g.role.checked = true → (g.base, g.size) ∈ srcs)
    (hoverlap : checkOverlap o = none) (hk : o.kGroup = none) (hdmem : o.dmem = none) : s.commonChecks o = none := by
  obtain ⟨hcfg, hfits, hreduced, hkst⟩ := h
  refine (s.commonChecks_none o).mpr ⟨?range, ?krange, hoverlap, ?config, ?dmem, ?regs, (checkReducedKst_none s o).mpr hkst⟩
  case range => exact (checkRegRange_none o).mpr fun g hg => hfits _ (hgroups g hg)
  case krange => simp [checkKRange, hk]
  case config => exact (checkConfig_none s o).mpr fun _ => hcfg.cfgok
  case dmem => simp [checkDmem, hdmem]
  case regs =>
    refine (checkReducedRegs_none s o).mpr fun i hi => ?_
    obtain ⟨g, hg, hrole, j, hj, rfl⟩ := Operands.exists_of_mem_checkedRegs hi
    exact hreduced _ (hchecked g hg hrole) j hj

theorem State.Ready.commonChecks_three {s : State} {n : Nat} {rd rs1 rs2 : Reg} {ks : List Nat}
    (h : s.Ready [(rd.val, n)] [(rs1.val, n), (rs2.val, n)] ks) : s.commonChecks (.three n rd rs1 rs2 ks) = none := by
  refine State.Ready.commonChecks_eq_none h ?_ ?_ rfl rfl rfl <;>
    simp [Operands.three, Operands.groups, groupAt, Role.checked]

/-- FMUL.F1 is the Montgomery multiplier (R243). -/
theorem exec_fmul_F1 {rd rs1 rs2 : Reg} {s : State} (h : s.Ready [(rd.val, 1)] [(rs1.val, 1), (rs2.val, 1)] []) :
    exec (.fmul .F1 rd rs1 rs2) s
      = .next ((s.setE rd.val (wordOf (s.mont (s.w rs1) (s.w rs2)))).retired (s.pc + 1)) := by
  have hrun := perform_ok (i := .fmul .F1 rd rs1 rs2) (s := s) (run := fun s =>
    .ok (s.setE rd (wordOf (s.mont (s.w rs1) (s.w rs2)))).fallThrough) rfl h.commonChecks_three rfl
  rwa [State.fallThrough_retire] at hrun

/-- Settles O21: the multiplier is REDC of the product, which is below p * R, so it is `val` of the product. -/
theorem montgomeryMultiplier : Obligations.MontgomeryMultiplier := by
  unfold Obligations.MontgomeryMultiplier
  refine ⟨fun s a b h ha hb => ?_, fun _ _ _ _ => exec_fmul_F1⟩
  have hlt : a * b < s.p * s.radix := s.mul_lt_p_mul_radix ha hb
  have hval : s.mont a b = s.val (a * b) := h.redc_eq_val hlt
  refine ⟨rfl, hlt, s.redc_lt hlt, h.redc_mul_radix_mod (a * b), hval, ?_⟩
  rw [hval, s.val_val_mul]

/-! ## The instructions that need the configuration (R231) -/

/-- The instructions whose operands ask for the configuration are those that R231 names. -/
theorem operandsOf_config (i : Instr) :
    (operandsOf i).config = (isFieldResult i.opcode || i.opcode == .ponc || i.opcode == .bredc) := by
  cases i <;> rfl

/-- LDK, the one instruction with a constant-store group, is a move, which needs no configuration. -/
theorem operandsOf_kGroup_of_config {i : Instr} (h : (operandsOf i).config = true) : (operandsOf i).kGroup = none := by
  cases i
  case ldk => cases h
  all_goals rfl

/-- Step 5 of R503 fails, after steps 3 and 4 passed. -/
theorem State.commonChecks_eq_config {s : State} {o : Operands} (hrange : checkRegRange o = none) (hk : o.kGroup = none)
    (hoverlap : checkOverlap o = none) (hconfig : o.config = true) (hcfgok : s.cfgok = false) :
    s.commonChecks o = some (.config, 0) := by
  have hkrange : checkKRange o = none := by simp [checkKRange, hk]
  have hfail : checkConfig s o = some (.config, 0) := by simp [checkConfig, hconfig, hcfgok]
  simp [State.commonChecks, hrange, hkrange, hoverlap, hfail]

/-- Settles O12: the check of the configuration is the first that fails. -/
theorem configFaults : Obligations.ConfigFaults := by
  unfold Obligations.ConfigFaults
  intro i s hop hwf hfits hoverlap hcfgok
  have hconfig : (operandsOf i).config = true := by
    simpa only [operandsOf_config, Bool.or_eq_true, beq_iff_eq, or_assoc] using hop
  exact exec_check hwf (State.commonChecks_eq_config ((checkRegRange_none _).mpr hfits) (operandsOf_kGroup_of_config hconfig)
    hoverlap hconfig hcfgok)

end Sys2Proof.Machine
end

section
/-! PROOFS. The common checks of LD and ST (60_exceptions R503): the register group, then the DMEM group (45_move R402). -/

namespace Sys2Proof.Machine

/-! ## Fault or retirement -/

/-- Retirement counts the instruction in INSTRET (R506); a fault does not (R510). -/
theorem State.retired_ne_takeFault {s t : State} (h : t.instret = s.instret) (q : Half) (cause : Cause) (einfo : Nat)
    (insn : InsnWord) : t.retired q ≠ s.takeFault cause einfo insn := by
  intro heq
  have hcount : s.instret + 1 = s.instret := by simpa [h] using congrArg State.instret heq
  bv_omega

/-! ## The checks of LD and ST -/

/-- Step 3 of R503 fails first where the group of the field rd runs past E63. -/
theorem State.commonChecks_eq_regRange_rd {s : State} {o : Operands} {g : Group} (hrd : o.rd = some g)
    (hfits : ¬ Fits g.base g.size) : s.commonChecks o = some (.regRange, g.base) := by
  have hpast : g.pastEnd = true := decide_eq_true (Nat.lt_of_not_le hfits)
  have hfail : checkRegRange o = some (.regRange, g.base) := by simp [checkRegRange, Operands.groups, hrd, hpast]
  simp [State.commonChecks, hfail]

theorem checkDmem_eq_dmemRange {s : State} {o : Operands} {cb : Ctr} {off d : Nat} (hdmem : o.dmem = some (cb, off, d))
    (hpast : s.params.dmemWords < s.dmemEa cb off + d) : checkDmem s o = some (.dmemRange, s.dmemEa cb off) := by
  simp [checkDmem, hdmem, hpast]

/-- LD or ST, with its register group in range, leaves only step 6 of R503 that can fail. -/
theorem State.commonChecks_eq_checkDmem {s : State} {i : Instr} (hi : (operandsOf i).dmem ≠ none)
    (hfits : ∀ g ∈ (operandsOf i).groups, Fits g.base g.size) :
    s.commonChecks (operandsOf i) = checkDmem s (operandsOf i) := by
  have hrange : checkRegRange (operandsOf i) = none := (checkRegRange_none _).mpr hfits
  have hrest : checkKRange (operandsOf i) = none ∧ checkOverlap (operandsOf i) = none
      ∧ checkConfig s (operandsOf i) = none ∧ checkReducedRegs s (operandsOf i) = none
      ∧ checkReducedKst s (operandsOf i) = none := by
    cases i
    case ld | st => exact ⟨rfl, rfl, rfl, rfl, rfl⟩
    all_goals exact absurd rfl hi
  obtain ⟨hkrange, hoverlap, hconfig, hregs, hkst⟩ := hrest
  cases hdmem : checkDmem s (operandsOf i) <;>
    simp [State.commonChecks, hrange, hkrange, hoverlap, hconfig, hdmem, hregs, hkst]

/-! ## LD and ST past the checks (R403, R404) -/

theorem exec_ld_of_checks {ft : FieldType} {r : Reg} {cb : Ctr} {off : Fin 16384} {s : State}
    (hchecks : s.commonChecks (operandsOf (.ld ft r cb off)) = none) :
    exec (.ld ft r cb off) s
      = .next ((s.setGroup r (s.dmemRead (s.dmemEa cb off) (degree ft))).retired (s.pc + 1)) := by
  have hrun := perform_ok (i := .ld ft r cb off) (s := s) (run := fun s =>
    .ok (s.setGroup r (s.dmemRead (s.dmemEa cb off) (degree ft))).fallThrough) rfl hchecks rfl
  rwa [State.fallThrough_retire, State.setGroup_pc] at hrun

theorem exec_st_of_checks {ft : FieldType} {r : Reg} {cb : Ctr} {off : Fin 16384} {s : State}
    (hchecks : s.commonChecks (operandsOf (.st ft r cb off)) = none) :
    exec (.st ft r cb off) s
      = .next ((s.dmemWrite (s.dmemEa cb off) (s.group r (degree ft))).retired (s.pc + 1)) := by
  have hrun := perform_ok (i := .st ft r cb off) (s := s) (run := fun s =>
    .ok (s.dmemWrite (s.dmemEa cb off) (s.group r (degree ft))).fallThrough) rfl hchecks rfl
  rwa [State.fallThrough_retire, State.dmemWrite_pc] at hrun

/-- LD or ST that passes its checks takes no fault. -/
theorem exec_ne_takeFault_of_checks {i : Instr} {s : State} (hi : (operandsOf i).dmem ≠ none)
    (hchecks : s.commonChecks (operandsOf i) = none) (cause : Cause) (einfo : Nat) (insn : InsnWord) :
    exec i s ≠ .next (s.takeFault cause einfo insn) := by
  intro hexec
  cases i
  case ld ft r cb off =>
    rw [exec_ld_of_checks hchecks] at hexec
    exact State.retired_ne_takeFault (s.setGroup_instret _ _) _ _ _ _ (Host.Outcome.next.inj hexec)
  case st ft r cb off =>
    rw [exec_st_of_checks hchecks] at hexec
    exact State.retired_ne_takeFault (s.dmemWrite_instret _ _) _ _ _ _ (Host.Outcome.next.inj hexec)
  all_goals exact absurd rfl hi

/-! ## The range of DMEM (R402) -/

/-- LD or ST, with its register group in range, faults exactly where its DMEM group runs past DMEM_WORDS. -/
theorem exec_eq_dmemRange_iff {i : Instr} {s : State} {cb : Ctr} {off d : Nat} (hwf : i.wellFormed = true)
    (hdmem : (operandsOf i).dmem = some (cb, off, d)) (hfits : ∀ g ∈ (operandsOf i).groups, Fits g.base g.size) :
    exec i s = .next (s.takeFault .dmemRange (s.dmemEa cb off) (encode i))
      ↔ s.params.dmemWords < s.dmemEa cb off + d := by
  have hi : (operandsOf i).dmem ≠ none := by simp [hdmem]
  have hchecks : s.commonChecks (operandsOf i) = checkDmem s (operandsOf i) := State.commonChecks_eq_checkDmem hi hfits
  constructor
  · intro hexec
    refine Nat.lt_of_not_le fun hinside => ?_
    have hpass : checkDmem s (operandsOf i) = none := by
      simp only [checkDmem, hdmem, Nat.not_lt.mpr hinside, if_false]
    exact exec_ne_takeFault_of_checks hi (hchecks.trans hpass) _ _ _ hexec
  · intro hpast
    exact exec_check hwf (hchecks.trans (checkDmem_eq_dmemRange hdmem hpast))

/-- The largest index is that of the counter 65535 and the offset 16383. -/
theorem State.dmemEa_le (s : State) (cb : Ctr) (off : Fin 16384) : s.dmemEa cb off ≤ 81918 :=
  Nat.add_le_add (Nat.le_of_lt_succ (s.getC cb).isLt) (Nat.le_of_lt_succ off.isLt)

/-- Settles O13: step 3 of R503 fails first where the register group does not fit; past it, step 6 decides. -/
theorem dmemRangeFaults : Obligations.DmemRangeFaults := by
  unfold Obligations.DmemRangeFaults
  intro ft r cb off s
  refine ⟨fun hfits => ⟨?ld, ?st⟩, fun hpast => ⟨?ldRange, ?stRange⟩, s.dmemEa_le cb off, ?einfo⟩
  case ld => exact exec_eq_dmemRange_iff rfl rfl fun g hg => List.mem_singleton.mp hg ▸ hfits
  case st => exact exec_eq_dmemRange_iff rfl rfl fun g hg => List.mem_singleton.mp hg ▸ hfits
  case ldRange => exact exec_check rfl (State.commonChecks_eq_regRange_rd (g := ⟨r, degree ft, .dst⟩) rfl hpast)
  case stRange => exact exec_check rfl (State.commonChecks_eq_regRange_rd (g := ⟨r, degree ft, .raw⟩) rfl hpast)
  case einfo =>
    have hle : s.dmemEa cb off ≤ 81918 := s.dmemEa_le cb off
    exact Nat.mod_eq_of_lt (Nat.lt_of_le_of_lt hle (by decide))

end Sys2Proof.Machine
end

section
/-! PROOFS. NOP and HALT (48_control R433, R434): their results, the START after HALT (10_state R48), and the words of the two
opcodes. -/

namespace Sys2Proof.Machine

/-! ## The two instructions -/

theorem exec_nop (s : State) : exec .nop s = .next (s.retired (s.pc + 1)) := by
  have hrun := perform_ok (i := .nop) (s := s) (run := fun s => .ok s.fallThrough) rfl rfl rfl
  rwa [State.fallThrough_retire] at hrun

/-- Retirement of HALT, in one record: DONE, whatever STATE and the two latches were (R506). -/
theorem Result.retire_of_halt (s : State) (q : Half) :
    ({ state := s, pc := q, halt := true } : Result).retire =
      { s with
        pc := q
        instret := s.instret + 1
        seq := .done
        irqpendDone := true
        stepPending := false
        haltRequested := false } := rfl

theorem exec_halt (s : State) :
    exec .halt s = .next
      { s with
        pc := s.pc + 1
        instret := s.instret + 1
        seq := .done
        irqpendDone := true
        stepPending := false
        haltRequested := false } := by
  have hrun := perform_ok (i := .halt) (s := s) (run := fun s => .ok { s.fallThrough with halt := true }) rfl
    (commonChecks_halt s) rfl
  rwa [Result.retire_of_halt] at hrun

/-! ## START after HALT (R48) -/

theorem State.writeCtrl_start (s : State) : s.writeCtrl 0x1 = s.ctrlStart := rfl

theorem State.ctrlStart_of_not_running {s : State} (h : s.seq ≠ .running) : s.ctrlStart = s.start := by
  simp [State.ctrlStart, State.running_eq_false h]

theorem State.hostWrite_start {s : State} (h : s.seq ≠ .running) : s.hostWrite 0x004 4 0x1 = s.start := by
  rw [State.hostWrite_ctrl, State.writeCtrl_start, State.ctrlStart_of_not_running h]

/-! ## The words of the two opcodes (R154) -/

/-- An opcode that asks all other bits to be zero calls a word with one of them set illegal, with subcode 3. -/
theorem decode_eq_mustBeZero_of_allZero {w : InsnWord} {op : Opcode} {i : Instr} (hop : w.field 26 6 = op.code)
    (hdecode : w.decodeOp op = w.checkZero [(0, 26)] i) (hbits : w.field 0 26 ≠ 0) : decode w = .error .mustBeZero := by
  have hset : w.allZero [(0, 26)] = false := by simpa [InsnWord.allZero] using hbits
  exact (decode_eq_error_iff w .mustBeZero).mpr
    (.inr ⟨op, hop, hdecode.trans ((w.checkZero_eq_error_iff _ i .mustBeZero).mpr ⟨rfl, hset⟩)⟩)

theorem decode_eq_mustBeZero_of_nop_halt {w : InsnWord} (hop : w.field 26 6 ∈ [0x3E, 0x3F]) (hbits : w.field 0 26 ≠ 0) :
    decode w = .error .mustBeZero := by
  obtain hnop | hhalt : w.field 26 6 = Opcode.nop.code ∨ w.field 26 6 = Opcode.halt.code := by
    simpa [Opcode.code] using hop
  · exact decode_eq_mustBeZero_of_allZero hnop rfl hbits
  · exact decode_eq_mustBeZero_of_allZero hhalt rfl hbits

/-- Settles O44: HALT is not running after it retires, so a later START takes effect, and it keeps the pc that HALT left. -/
theorem nopHaltResults : Obligations.NopHaltResults := by
  unfold Obligations.NopHaltResults
  refine ⟨fun s => ⟨exec_nop s, exec_halt s, fun t hexec => ?resume⟩, (decode_eq_ok_iff _ _).mpr ⟨rfl, rfl⟩,
    (decode_eq_ok_iff _ _).mpr ⟨rfl, rfl⟩, fun _ => decode_eq_mustBeZero_of_nop_halt⟩
  case resume =>
    rw [exec_halt] at hexec
    cases hexec
    rw [State.hostWrite_start (by simp)]
    exact ⟨rfl, rfl⟩

end Sys2Proof.Machine
end

section
/-! PROOFS. Writes of HOST (10_state R48, R57; 20_memory R111): which of them reach the fault record and IRQPEND, and the
interrupt output (60_exceptions R520). -/

namespace Sys2Proof.Machine

/-- The fault record and the bits of IRQPEND of `t` are those of `s`. -/
def State.SameExceptions (s t : State) : Prop :=
  t.fault = s.fault ∧ t.irqpendDone = s.irqpendDone ∧ t.irqpendErr = s.irqpendErr

theorem State.SameExceptions.trans {s t u : State} (hst : s.SameExceptions t) (htu : t.SameExceptions u) :
    s.SameExceptions u :=
  ⟨htu.1.trans hst.1, htu.2.1.trans hst.2.1, htu.2.2.trans hst.2.2⟩

/-! ## The target of a write -/

theorem State.offset_of_locate_eq_csr {s : State} {off : Nat} {r : Csr} (h : s.locate off = .csr r) : r.offset = off := by
  have hat : Csr.at off = some r := by
    unfold State.locate at h
    split at h
    · cases hat : Csr.at off with
      | none => simp [hat] at h
      | some r' => simpa [hat] using h
    · (repeat' split at h) <;> cases h
  simpa using List.find?_some hat

theorem State.writeWindow_sameExceptions (s : State) (d : BitVec 32) (w : Window) (slot : Nat) :
    s.SameExceptions (s.writeWindow d w slot) := by
  unfold State.writeWindow
  split
  · exact ⟨rfl, rfl, rfl⟩
  · cases w <;> exact ⟨rfl, rfl, rfl⟩

/-- A write that is not refused and names a register has the effect of that register; every other write leaves the fault record
and IRQPEND as they are. -/
theorem State.hostWrite_cases (s : State) (off size : Nat) (d : BitVec 32) :
    (size = 4 ∧ ∃ r : Csr, off = r.offset ∧ s.hostWrite off size d = s.writeCsr d r)
      ∨ s.SameExceptions (s.hostWrite off size d) := by
  unfold State.hostWrite
  split
  case isFalse => exact .inr ⟨rfl, rfl, rfl⟩
  case isTrue haccepted =>
    cases hloc : s.locate off with
    | csr r =>
      have hsize : size = 4 := by simp_all [aligned32]
      exact .inl ⟨hsize, r, (State.offset_of_locate_eq_csr hloc).symm, rfl⟩
    | window w slot => exact .inr (s.writeWindow_sameExceptions d w slot)
    | imem i => exact .inr ⟨rfl, rfl, rfl⟩
    | reserved => exact .inr ⟨rfl, rfl, rfl⟩

/-! ## CTRL (R48) -/

theorem State.ctrlCommit_sameExceptions (s : State) : s.SameExceptions s.ctrlCommit := by
  simp only [State.ctrlCommit, State.commitConfig]
  split
  · exact ⟨rfl, rfl, rfl⟩
  · split <;> exact ⟨rfl, rfl, rfl⟩

theorem State.ctrlHaltReq_sameExceptions (s : State) : s.SameExceptions s.ctrlHaltReq := by
  simp only [State.ctrlHaltReq]
  split <;> exact ⟨rfl, rfl, rfl⟩

theorem State.ctrlStart_irqpend (s : State) :
    s.ctrlStart.irqpendDone = s.irqpendDone ∧ s.ctrlStart.irqpendErr = s.irqpendErr := by
  simp only [State.ctrlStart]
  split <;> exact ⟨rfl, rfl⟩

theorem State.ctrlStep_irqpend (s : State) :
    s.ctrlStep.irqpendDone = s.irqpendDone ∧ s.ctrlStep.irqpendErr = s.irqpendErr := by
  simp only [State.ctrlStep]
  split <;> exact ⟨rfl, rfl⟩

theorem State.writeCtrl_srst (s : State) {d : BitVec 32} (h : d.getLsbD 3 = true) : s.writeCtrl d = s.softReset := by
  rw [State.writeCtrl, if_pos h]

/-- Without SRST, CFGCOMMIT and HALTREQ act first and keep the fault record and IRQPEND; START or STEP follow. -/
theorem State.writeCtrl_cases (s : State) {d : BitVec 32} (h : d.getLsbD 3 = false) :
    ∃ t : State, s.SameExceptions t
      ∧ s.writeCtrl d = if d.getLsbD 0 then t.ctrlStart else if d.getLsbD 4 then t.ctrlStep else t := by
  have hcommit : s.SameExceptions (if d.getLsbD 2 then s.ctrlCommit else s) := by
    split
    · exact s.ctrlCommit_sameExceptions
    · exact ⟨rfl, rfl, rfl⟩
  simp only [State.writeCtrl, h, Bool.false_eq_true, if_false]
  generalize (if d.getLsbD 2 = true then s.ctrlCommit else s) = s1 at hcommit ⊢
  refine ⟨if d.getLsbD 1 then s1.ctrlHaltReq else s1, ?_, rfl⟩
  split
  · exact hcommit.trans s1.ctrlHaltReq_sameExceptions
  · exact hcommit

/-- Only SRST, START and STEP write the fault record. -/
theorem State.writeCtrl_fault (s : State) {d : BitVec 32} (h : (d.getLsbD 0 || d.getLsbD 3 || d.getLsbD 4) = false) :
    (s.writeCtrl d).fault = s.fault := by
  simp only [Bool.or_eq_false_iff] at h
  obtain ⟨⟨hstart, hsrst⟩, hstep⟩ := h
  obtain ⟨t, ⟨hfault, -⟩, hwrite⟩ := s.writeCtrl_cases hsrst
  have hkept : s.writeCtrl d = t := by
    rw [hwrite, hstart, hstep]
    rfl
  rw [hkept, hfault]

/-- A write of CTRL without SRST leaves IRQPEND as it is. -/
theorem State.writeCtrl_irqpend (s : State) {d : BitVec 32} (h : d.getLsbD 3 = false) :
    (s.writeCtrl d).irqpendDone = s.irqpendDone ∧ (s.writeCtrl d).irqpendErr = s.irqpendErr := by
  obtain ⟨t, ⟨-, hdone, herr⟩, hwrite⟩ := s.writeCtrl_cases h
  rw [hwrite, ← hdone, ← herr]
  split
  · exact t.ctrlStart_irqpend
  · split
    · exact t.ctrlStep_irqpend
    · exact ⟨rfl, rfl⟩

/-! ## The other registers -/

theorem State.writeNlimbs_sameExceptions (s : State) (v : Nat) : s.SameExceptions (s.writeNlimbs v) := by
  unfold State.writeNlimbs
  split <;> exact ⟨rfl, rfl, rfl⟩

theorem State.writeCsr_status_sameExceptions (s : State) (d : BitVec 32) : s.SameExceptions (s.writeCsr d .status) := by
  simp only [State.writeCsr]
  split <;> exact ⟨rfl, rfl, rfl⟩

theorem State.writeCsr_instret_sameExceptions (s : State) (d : BitVec 32) {r : Csr} (hr : r = .instretLo ∨ r = .instretHi) :
    s.SameExceptions (s.writeCsr d r) := by
  -- With the value written as a variable, the kernel need not compare its powers of 2 with INSTRET.
  obtain ⟨n, hwrite⟩ : ∃ n : BitVec 64, s.writeCsr d r = { s with instret := n } := by
    obtain rfl | rfl := hr <;> exact ⟨_, rfl⟩
  rw [hwrite]
  exact ⟨rfl, rfl, rfl⟩

/-- Of the registers, only CTRL and IRQPEND reach the fault record or IRQPEND. -/
theorem State.writeCsr_sameExceptions (s : State) (d : BitVec 32) {r : Csr} (hctrl : r ≠ .ctrl) (hirqpend : r ≠ .irqpend) :
    s.SameExceptions (s.writeCsr d r) := by
  cases r
  case ctrl => exact absurd rfl hctrl
  case irqpend => exact absurd rfl hirqpend
  case status => exact s.writeCsr_status_sameExceptions d
  case nlimbs => exact s.writeNlimbs_sameExceptions _
  case instretLo => exact s.writeCsr_instret_sameExceptions d (.inl rfl)
  case instretHi => exact s.writeCsr_instret_sameExceptions d (.inr rfl)
  all_goals exact ⟨rfl, rfl, rfl⟩

/-- IRQPEND takes writes in every state: R112 closes only RWI registers (R46, R57). -/
theorem State.hostWrite_irqpend (s : State) (d : BitVec 32) : s.hostWrite 0x028 4 d = s.writeCsr d .irqpend := by
  have hloc : s.locate 0x028 = .csr .irqpend := rfl
  simp [State.hostWrite, hloc, aligned32, State.refusesWrite, Csr.isRwi, State.writeTarget]

/-- A write other than one of IRQPEND or of CTRL.SRST leaves IRQPEND as it is. -/
theorem State.hostWrite_keeps_irqpend (s : State) {off : Nat} (size : Nat) {d : BitVec 32} (hirqpend : off ≠ 0x028)
    (hsrst : ¬ (off = 0x004 ∧ d.getLsbD 3 = true)) :
    (s.hostWrite off size d).irqpendDone = s.irqpendDone ∧ (s.hostWrite off size d).irqpendErr = s.irqpendErr := by
  obtain ⟨-, r, rfl, hwrite⟩ | ⟨-, hkept⟩ := s.hostWrite_cases off size d
  · rw [hwrite]
    by_cases hctrl : r = .ctrl
    · subst hctrl
      exact s.writeCtrl_irqpend (Bool.eq_false_iff.mpr fun hbit => hsrst ⟨rfl, hbit⟩)
    · exact (s.writeCsr_sameExceptions d hctrl fun h => hirqpend (h ▸ rfl)).2
  · exact hkept

/-- A write that changes the fault record is one of CTRL with START, SRST or STEP (R510). -/
theorem State.hostWrite_changes_fault {s : State} {off size : Nat} {d : BitVec 32}
    (h : (s.hostWrite off size d).fault ≠ s.fault) :
    off = 0x004 ∧ size = 4 ∧ (d.getLsbD 0 || d.getLsbD 3 || d.getLsbD 4) = true := by
  obtain ⟨hsize, r, rfl, hwrite⟩ | ⟨hkept, -⟩ := s.hostWrite_cases off size d
  · rw [hwrite] at h
    by_cases hctrl : r = .ctrl
    · subst hctrl
      exact ⟨rfl, hsize, eq_true_of_ne_false fun hbits => h (s.writeCtrl_fault hbits)⟩
    · by_cases hirqpend : r = .irqpend
      · subst hirqpend
        exact absurd rfl h
      · exact absurd (s.writeCsr_sameExceptions d hctrl hirqpend).1 h
  · exact absurd hkept h

/-! ## IRQPEND after an instruction (R520) -/

@[simp] theorem Result.retire_irqpendDone (r : Result) : r.retire.irqpendDone = (r.state.irqpendDone || r.halt) := by
  simp only [Result.retire]
  split
  case isTrue hhalt => simp [hhalt]
  case isFalse hhalt => split <;> simp [hhalt]

/-- HALT sets DONE and a fault sets ERR; a fault is the ending that does not count in INSTRET. -/
theorem exec_irqpend {i : Instr} {s t : State} (h : exec i s = .next t) :
    t.irqpendDone = (s.irqpendDone || isHalt i) ∧ t.irqpendErr = (s.irqpendErr || decide (t.instret = s.instret)) := by
  obtain ⟨hnothalt, cause, einfo, rfl⟩ | ⟨r, rfl, hhalt, -, hfixed, -⟩ := exec_cases h
  · simp [hnothalt]
  · unfold Result.KeepsFixed at hfixed
    simp [hhalt, hfixed]

/-- Settles O9: `exec_irqpend` for instructions, the reset values, and for HOST's writes CTRL, IRQPEND and all the others. -/
theorem interruptOutput : Obligations.InterruptOutput := by
  unfold Obligations.InterruptOutput
  refine ⟨fun _ => rfl, fun _ _ _ => exec_irqpend, fun _ _ _ _ => ⟨rfl, rfl⟩, fun s d hsrst => ?srst, fun _ => ⟨rfl, rfl⟩,
    fun s d => ?irqpend, fun s _ size _ => s.hostWrite_keeps_irqpend size⟩
  case srst =>
    rw [State.hostWrite_ctrl, s.writeCtrl_srst hsrst]
    exact ⟨rfl, rfl⟩
  case irqpend =>
    rw [State.hostWrite_irqpend]
    exact ⟨rfl, rfl⟩

end Sys2Proof.Machine
end

section
/-! PROOFS. The step that takes a fault (60_exceptions R510): the causes an instruction can find, and the fault record until HOST
writes CTRL. -/

namespace Sys2Proof.Machine

/-! ## The causes an instruction can find (R501, R503) -/

/-- A common check fails with a cause of its own step of R503, none of them the fetch's. -/
theorem State.commonChecks_cause_ne_fetchRange {s : State} {o : Operands} {f : FaultInfo} (h : s.commonChecks o = some f) :
    f.1 ≠ .fetchRange := by
  obtain ⟨check, hmem, hfail⟩ := List.exists_of_findSome?_eq_some h
  simp only [List.mem_cons, List.not_mem_nil, or_false, id] at hmem hfail
  subst hfail
  obtain h | h | h | h | h | h | h := hmem
  · grind [checkRegRange, Option.map_eq_some_iff]
  · grind [checkKRange]
  · grind [checkOverlap]
  · grind [checkConfig]
  · grind [checkDmem]
  · grind [checkReducedRegs, Option.map_eq_some_iff]
  · grind [checkReducedKst, Option.map_eq_some_iff]

/-- Every instruction runs by `perform`; what it executes keeps STATE, and fails only for want of an inverse (R256, R326). -/
theorem exec_eq_perform (i : Instr) (s : State) :
    ∃ run : State → Except FaultInfo Result, exec i s = perform i s run
      ∧ (∀ f, run s = .error f → f.1 = .notInvertible) ∧ ∀ r, run s = .ok r → r.state.seq = s.seq := by
  cases i <;> simp only [exec] <;> refine ⟨_, rfl, ?_⟩
  case finv ft rd rs1 => cases (s.ring ft).inv (s.elt ft rs1) <;> simp
  case paff ft rd rs1 => cases pointAffine (s.ring ft) (s.point ft rs1) <;> simp
  case fmul ft rd rs1 rs2 => cases ft <;> simp
  case fcsqr | fcexp =>
    dsimp only
    (repeat' split) <;> simp
  all_goals simp

/-! ## The step that faults (R510) -/

theorem Result.retire_seq_ne_error {r : Result} (h : r.state.seq ≠ .error) : r.retire.seq ≠ .error := by
  simp only [Result.retire]
  split
  case isTrue => nofun
  case isFalse =>
    split
    case isTrue => nofun
    case isFalse => exact h

/-- An instruction that ends in ERROR has taken a fault with its own word, and the fault is not the fetch's. -/
theorem exec_takes_fault {i : Instr} {s t : State} (hseq : s.seq = .running) (h : exec i s = .next t) (herr : t.seq = .error) :
    ∃ (cause : Cause) (einfo : Nat), cause ≠ .fetchRange ∧ t = s.takeFault cause einfo (encode i) := by
  obtain ⟨run, hrun, hfails, hkeeps⟩ := exec_eq_perform i s
  rw [hrun] at h
  obtain ⟨-, hp⟩ | ⟨f, -, hcheck, hp⟩ | ⟨f, -, -, hf, hp⟩ | ⟨r, -, -, hr, hp⟩ := perform_cases i s run <;>
    (rw [hp] at h; cases h)
  · exact ⟨.illegalInsn, 2, nofun, rfl⟩
  · exact ⟨_, _, State.commonChecks_cause_ne_fetchRange hcheck, rfl⟩
  · exact ⟨_, _, by simp [hfails f hf], rfl⟩
  · exact absurd herr (Result.retire_seq_ne_error (by simp [hkeeps r hr, hseq]))

/-- A step of SEQ that ends in ERROR has taken a fault with the word at pc, or, past IMEM, FETCH_RANGE with 0 (R505). -/
theorem seqStep_takes_fault {s t : State} (hseq : s.seq = .running) (h : seqStep s = .next t) (herr : t.seq = .error) :
    ∃ (cause : Cause) (einfo : Nat), (cause = .fetchRange ↔ s.params.imemWords ≤ s.pc.toNat)
      ∧ t = s.takeFault cause einfo (if s.pc.toNat < s.params.imemWords then s.imemWord s.pc.toNat else 0) := by
  by_cases hpc : s.pc.toNat < s.params.imemWords
  case neg =>
    have hpast : s.params.imemWords ≤ s.pc.toNat := Nat.le_of_not_lt hpc
    simp only [seqStep, State.fetch, if_neg hpc, Host.Outcome.next.injEq] at h
    exact ⟨.fetchRange, s.pc.toNat, by simp [hpast], by rw [if_neg hpc, h]⟩
  case pos =>
    have hinside : ¬ s.params.imemWords ≤ s.pc.toNat := Nat.not_le_of_lt hpc
    rw [if_pos hpc]
    cases hdecode : decode (s.imemWord s.pc.toNat) with
    | error k =>
      simp only [seqStep, State.fetch_of_illegal hpc hdecode, Host.Outcome.next.injEq] at h
      exact ⟨.illegalInsn, k.subcode, by simp [hinside], h.symm⟩
    | ok i =>
      simp only [seqStep, State.fetch, if_pos hpc, hdecode] at h
      obtain ⟨-, hword⟩ := (decode_eq_ok_iff _ i).mp hdecode
      obtain ⟨cause, einfo, hcause, rfl⟩ := exec_takes_fault hseq h herr
      exact ⟨cause, einfo, by simp [hcause, hinside], by rw [hword]⟩

/-! ## The record stays (R510) -/

theorem State.hostRead_fault (s : State) (off size : Nat) : (s.hostRead off size).fault = s.fault := by
  unfold State.hostRead
  split <;> rfl

theorem State.hostEvent_read_fault (s : State) (addr size : Nat) : (s.hostEvent (.read addr size)).fault = s.fault := by
  simp only [State.hostEvent]
  split
  case isTrue => exact s.hostRead_fault _ size
  case isFalse => rfl

theorem State.hostEvent_write_changes_fault {s : State} {addr size : Nat} {d : BitVec 32}
    (h : (s.hostEvent (.write addr size d)).fault ≠ s.fault) :
    addr = s.params.base + 0x004 ∧ size = 4 ∧ (d.getLsbD 0 || d.getLsbD 3 || d.getLsbD 4) = true := by
  simp only [State.hostEvent] at h
  split at h
  case isFalse => exact absurd rfl h
  case isTrue hwindow =>
    obtain ⟨hoff, hsize, hbits⟩ := State.hostWrite_changes_fault h
    have hoffset : addr = s.params.base + 0x004 := by omega
    exact ⟨hoffset, hsize, hbits⟩

/-- SEQ makes a step only while it is RUNNING (R61). -/
theorem State.running_of_nextMove_eq_sequencer {s t : State} (h : s.nextMove = .sequencer t) : s.running = true := by
  cases hstopped : s.running with
  | true => rfl
  | false => rcases hbus : s.bus with _ | ⟨⟨_ | n, ev⟩, rest⟩ <;> simp [State.nextMove, hbus, hstopped] at h

/-- Settles O7: `seqStep_takes_fault` at the state with the next input one step nearer, then what HOST and SEQ may do to the
record. -/
theorem faultStepIsPrecise : Obligations.FaultStepIsPrecise := by
  unfold Obligations.FaultStepIsPrecise
  refine ⟨fun s t hseq hbus hstep herr => ?fault, fun s addr size d => State.hostEvent_write_changes_fault,
    State.hostEvent_read_fault, fun s t hseq hmove => ?stopped⟩
  case fault =>
    rw [step_of_noInputDue hseq hbus] at hstep
    obtain ⟨cause, einfo, hcause, ht⟩ := seqStep_takes_fault (s := s.tick) hseq hstep herr
    exact ⟨cause, einfo, _, rfl, hcause, ht⟩
  case stopped =>
    have hrunning := State.running_of_nextMove_eq_sequencer hmove
    simp [State.running, hseq] at hrunning

end Sys2Proof.Machine
end

section
/-! PROOFS. The two resets (70_reset R550): the registers both clear, the storage a soft reset keeps, and CTRL.SRST (10_state R48). -/

namespace Sys2Proof.Machine

/-- Every register is as a hardware reset leaves it: only the storage arrays and the model's own inputs to come, free words and
read data may differ. This is what the two resets have in common (R550). -/
def State.RegistersReset (t : State) : Prop :=
  ∃ (P : Params) (epoch : Nat) (e : Vector Word 64) (kst : Vector Word 128) (mem : Memory) (freeCtr : Nat)
    (bus : List (Nat × HostEvent)) (rdata : BitVec 32),
    t =
      { State.hardwareReset P epoch with
        e := e, kst := kst, mem := mem, freeCtr := freeCtr, bus := bus, rdata := rdata }

theorem State.reset_registersReset : State.reset.RegistersReset := ⟨_, _, _, _, _, _, _, _, rfl⟩

theorem State.hardReset_registersReset (s : State) : s.hardReset.RegistersReset := ⟨_, _, _, _, _, _, _, _, rfl⟩

theorem State.softReset_registersReset (s : State) : s.softReset.RegistersReset := ⟨_, _, _, _, _, _, _, _, rfl⟩

theorem State.RegistersReset.getC {t : State} (h : t.RegistersReset) (i : Ctr) : t.getC i = 0 := by
  obtain ⟨P, epoch, e, kst, mem, freeCtr, bus, rdata, rfl⟩ := h
  exact Vector.getElem_replicate i.isLt

/-- Settles O1: in all three states the registers are reset, a soft reset keeps the storage, and CTRL.SRST is the soft reset in
every state. -/
theorem resetValues : Obligations.ResetValues := by
  unfold Obligations.ResetValues
  refine ⟨fun t hreset => ?values,
    fun s => ⟨s.softReset_e, s.softReset_kst, s.softReset_mem, s.softReset_epoch, s.softReset_params⟩,
    fun s d hsrst => (s.hostWrite_ctrl d).trans (s.writeCtrl_srst hsrst)⟩
  case values =>
    have hregs : t.RegistersReset := by
      obtain rfl | ⟨s, rfl⟩ | ⟨s, rfl⟩ := hreset
      · exact State.reset_registersReset
      · exact s.hardReset_registersReset
      · exact s.softReset_registersReset
    refine ⟨hregs.getC, ?_⟩
    obtain ⟨P, epoch, e, kst, mem, freeCtr, bus, rdata, rfl⟩ := hregs
    and_intros <;> rfl

end Sys2Proof.Machine
end

section
/-! PROOFS. Decoder and encoder undo each other (30_encoding R141 to R158). -/

namespace Sys2Proof.Machine

/-- Settles O56: `decode_eq_ok_iff` at the word that encodes the instruction. -/
theorem decodeEncode : Obligations.DecodeEncode := by
  unfold Obligations.DecodeEncode
  exact fun i hwf => (decode_eq_ok_iff (encode i) i).mpr ⟨hwf, rfl⟩

/-- Settles O57: `decode_eq_ok_iff`, read from the decoder's side. -/
theorem encodeDecode : Obligations.EncodeDecode := by
  unfold Obligations.EncodeDecode
  exact fun w i => (decode_eq_ok_iff w i).mp

end Sys2Proof.Machine
end

section
/-! PROOFS. The invariant of the machine: its three parts, the fields each part depends on, and the moves that keep them (instructions,
accesses of HOST, resets). -/

namespace Sys2Proof.Machine

/-! ## The three parts of the invariant -/

/-- The part of the invariant about the parameters and memory. -/
def State.MemInv (s : State) : Prop :=
  s.params.valid = true ∧ s.mem.wf ∧ ∀ cell ∈ s.mem, ByteExists s.params cell.1

/-- The part of the invariant about the configuration. -/
def State.CommitInv (s : State) : Prop :=
  s.ConfigInv ∧ (s.cfgok = true → s.cfgstat = { badEven := false, badSmall := false, badWide := false })
    ∧ s.cfgstat.badWide = false

/-- The part of the invariant about SEQ: the latches and the fault record. -/
def State.SeqInv (s : State) : Prop :=
  (s.seq ≠ .running → s.stepPending = false ∧ s.haltRequested = false)
    ∧ (s.seq ≠ .error → s.fault = { cause := 0, epc := 0, einfo := 0, insn := 0 })
    ∧ (s.seq = .error → 1 ≤ s.fault.cause.toNat ∧ s.fault.cause.toNat ≤ 8)

theorem State.inv_iff (s : State) : s.Inv ↔ s.MemInv ∧ s.CommitInv ∧ s.SeqInv := by
  constructor
  · intro h
    exact ⟨⟨h.params, h.mem_wf, h.mem_exists⟩, ⟨h.config, h.cfgstat, h.badWide⟩, h.latches, h.no_record, h.record⟩
  · rintro ⟨⟨hparams, hwf, hexists⟩, ⟨hconfig, hstat, hwide⟩, hlatches, hnone, hrecord⟩
    exact ⟨hparams, hwf, hexists, hconfig, hstat, hwide, hlatches, hnone, hrecord⟩

/-! ### The fields each part depends on -/

/-- The fields `MemInv` reads. -/
def State.memFields (s : State) : Params × Memory := (s.params, s.mem)

/-- The fields `CommitInv` reads. -/
def State.commitFields (s : State) : Fin 6 × Word × Word × Word × Word × Bool × CfgStat :=
  (s.nlimbs, s.modp, s.pinv, s.rsq, s.rone, s.cfgok, s.cfgstat)

/-- The fields `SeqInv` reads. -/
def State.seqFields (s : State) : SeqState × Bool × Bool × FaultRecord := (s.seq, s.stepPending, s.haltRequested, s.fault)

theorem State.MemInv.congr {s t : State} (h : s.MemInv) (heq : t.memFields = s.memFields) : t.MemInv := by
  simp only [State.memFields, Prod.mk.injEq] at heq
  obtain ⟨hparams, hmem⟩ := heq
  simpa only [State.MemInv, hparams, hmem] using h

/-- A configuration is the modulus, the width and what the commit left for them. -/
theorem State.Configured.congr {s t : State} (h : s.Configured) (hn : t.nlimbs = s.nlimbs) (hm : t.modp = s.modp)
    (hpinv : t.pinv = s.pinv) (hrsq : t.rsq = s.rsq) (hrone : t.rone = s.rone) (hok : t.cfgok = s.cfgok) : t.Configured := by
  have hp : t.p = s.p := State.p_congr hn hm
  have hr : t.radix = s.radix := State.radix_congr hn
  exact ⟨hok ▸ h.cfgok, hp ▸ h.odd, hp ▸ h.three, by rw [hpinv, hr]; exact h.pinv_lt, by rw [hpinv, hr, hp]; exact h.pinv,
    by rw [hrsq, hr, hp]; exact h.rsq, by rw [hrone, hr, hp]; exact h.rone⟩

theorem State.CommitInv.congr {s t : State} (h : s.CommitInv) (heq : t.commitFields = s.commitFields) : t.CommitInv := by
  simp only [State.commitFields, Prod.mk.injEq] at heq
  obtain ⟨hn, hm, hpinv, hrsq, hrone, hok, hstat⟩ := heq
  obtain ⟨hconfig, hclean, hwide⟩ := h
  refine ⟨fun htok => ?_, by simpa only [hok, hstat] using hclean, by rw [hstat]; exact hwide⟩
  exact (hconfig (hok ▸ htok)).congr hn hm hpinv hrsq hrone hok

theorem State.SeqInv.congr {s t : State} (h : s.SeqInv) (heq : t.seqFields = s.seqFields) : t.SeqInv := by
  simp only [State.seqFields, Prod.mk.injEq] at heq
  obtain ⟨hseq, hstep, hhalt, hfault⟩ := heq
  simpa only [State.SeqInv, hseq, hstep, hhalt, hfault] using h

/-- A state that agrees on the fields of the three parts keeps the invariant. -/
theorem State.Inv.congr {s t : State} (h : s.Inv) (hmem : t.memFields = s.memFields) (hcommit : t.commitFields = s.commitFields)
    (hseq : t.seqFields = s.seqFields) : t.Inv := by
  obtain ⟨hmemInv, hcommitInv, hseqInv⟩ := s.inv_iff.mp h
  exact t.inv_iff.mpr ⟨hmemInv.congr hmem, hcommitInv.congr hcommit, hseqInv.congr hseq⟩

/-! ## Memory -/

/-- Stored bytes that exist keep the canonical form and list only bytes that exist. -/
theorem State.MemInv.storeBytes {s : State} (h : s.MemInv) {a : Nat} {bs : List Byte}
    (hexists : ∀ x, a ≤ x → x < a + bs.length → ByteExists s.params x) : (s.storeBytes a bs).MemInv := by
  obtain ⟨hparams, hwf, hcells⟩ := h
  refine ⟨hparams, Memory.store_wf hwf a bs, fun cell hcell => ?_⟩
  obtain hold | ⟨hlow, hhigh⟩ := Memory.mem_store hcell
  · exact hcells cell hold
  · exact hexists cell.1 hlow hhigh

/-- The 48 bytes of a DMEM word that exists. -/
theorem byteExists_dmemAddr {P : Params} {i x : Nat} (hi : i < P.dmemWords) (hlow : dmemAddr i ≤ x)
    (hhigh : x < dmemAddr i + 48) : ByteExists P x := by
  unfold dmemAddr at hlow hhigh
  exact .inr (by omega)

/-- The 4 bytes of an IMEM word that exists. -/
theorem byteExists_imemAddr {P : Params} {i x : Nat} (hi : i < P.imemWords) (hlow : imemAddr i ≤ x)
    (hhigh : x < imemAddr i + 4) : ByteExists P x := by
  unfold imemAddr at hlow hhigh
  exact .inl (by omega)

theorem State.MemInv.dmemWrite {s : State} (h : s.MemInv) {ea : Nat} {ws : List Word}
    (hfits : ea + ws.length ≤ s.params.dmemWords) : (s.dmemWrite ea ws).MemInv := by
  obtain ⟨hparams, hwf, hcells⟩ := h
  have hkept : (s.dmemWrite ea ws).params = s.params := s.dmemWrite_params ea ws
  refine ⟨hkept ▸ hparams, s.dmemWrite_wf ea ws hwf, fun cell hcell => hkept ▸ ?_⟩
  obtain hold | ⟨j, hj, hlow, hhigh⟩ := State.mem_dmemWrite hcell
  · exact hcells cell hold
  · exact byteExists_dmemAddr (Nat.lt_of_lt_of_le (Nat.add_lt_add_left hj ea) hfits) hlow hhigh

/-! ## Instructions -/

theorem State.group_length (s : State) (i n : Nat) : (s.group i n).length = n := by simp [State.group]

/-- What ST does to memory: nothing where it faults, else it stores its group in words of DMEM that exist. -/
theorem exec_st_mem {ft : FieldType} {r : Reg} {cb : Ctr} {off : Fin 16384} {s t : State}
    (h : exec (.st ft r cb off) s = .next t) :
    t.mem = s.mem ∨ (s.dmemEa cb off + degree ft ≤ s.params.dmemWords
      ∧ t.mem = (s.dmemWrite (s.dmemEa cb off) (s.group r (degree ft))).mem) := by
  cases hchecks : s.commonChecks (operandsOf (.st ft r cb off)) with
  | some f =>
    rw [exec_check rfl hchecks] at h
    cases h
    exact .inl rfl
  | none =>
    obtain ⟨-, -, -, -, hdmem, -⟩ := (s.commonChecks_none _).mp hchecks
    rw [exec_st_of_checks hchecks] at h
    cases h
    exact .inr ⟨(checkDmem_none s _).mp hdmem cb off (degree ft) rfl, State.retired_mem _ _⟩

theorem exec_mem_of_ne_st {i : Instr} {s t : State} (h : exec i s = .next t) (hi : i.opcode ≠ .st) : t.mem = s.mem := by
  obtain ⟨-, cause, einfo, rfl⟩ | ⟨r, rfl, -, -, -, -, hmem, -⟩ := exec_cases h
  · rfl
  · exact (Result.retire_mem r).trans (hmem hi)

/-- The configuration and the parameters after an instruction are those before it (R562). -/
theorem exec_keeps_commitFields {i : Instr} {s t : State} (h : exec i s = .next t) :
    t.commitFields = s.commitFields ∧ t.params = s.params := by
  obtain ⟨-, cause, einfo, rfl⟩ | ⟨r, rfl, -, -, hfixed, -⟩ := exec_cases h
  · exact ⟨rfl, rfl⟩
  · unfold Result.KeepsFixed at hfixed
    simp [State.commitFields, hfixed]

theorem State.MemInv.exec {i : Instr} {s t : State} (h : s.MemInv) (hexec : exec i s = .next t) : t.MemInv := by
  obtain ⟨-, hparams⟩ := exec_keeps_commitFields hexec
  by_cases hst : i.opcode = .st
  · cases i
    case st ft r cb off =>
      obtain hmem | ⟨hfits, hmem⟩ := exec_st_mem hexec
      · exact h.congr (by simp [State.memFields, hparams, hmem])
      · have hwrite := h.dmemWrite (ws := s.group r (degree ft)) (by rwa [State.group_length])
        exact hwrite.congr (by simp [State.memFields, hparams, hmem])
    all_goals cases hst
  · exact h.congr (by simp [State.memFields, hparams, exec_mem_of_ne_st hexec hst])

theorem Cause.code_range (cause : Cause) :
    1 ≤ (BitVec.ofNat 8 cause.code).toNat ∧ (BitVec.ofNat 8 cause.code).toNat ≤ 8 := by
  cases cause <;> decide

/-- A fault leaves SEQ in ERROR with a cause of R501, and both latches clear. -/
theorem State.takeFault_seqInv (s : State) (cause : Cause) (einfo : Nat) (insn : InsnWord) :
    (s.takeFault cause einfo insn).SeqInv :=
  ⟨fun _ => ⟨rfl, rfl⟩, fun h => absurd rfl h, fun _ => cause.code_range⟩

/-- Retirement from RUNNING leaves no fault record, and SEQ outside RUNNING only with both latches clear. -/
theorem Result.retire_seqInv {r : Result} (hseq : r.state.seq = .running)
    (hfault : r.state.fault = { cause := 0, epc := 0, einfo := 0, insn := 0 }) : r.retire.SeqInv := by
  have hrecord : r.retire.fault = { cause := 0, epc := 0, einfo := 0, insn := 0 } := (Result.retire_fault r).trans hfault
  refine ⟨?_, fun _ => hrecord, fun herr => absurd herr (Result.retire_seq_ne_error (by simp [hseq]))⟩
  simp only [Result.retire]
  split
  · exact fun _ => ⟨rfl, rfl⟩
  · split
    · exact fun _ => ⟨rfl, rfl⟩
    · exact fun hstopped => absurd hseq hstopped

theorem State.SeqInv.exec {i : Instr} {s t : State} (h : s.SeqInv) (hseq : s.seq = .running) (hexec : exec i s = .next t) :
    t.SeqInv := by
  obtain ⟨-, hnone, -⟩ := h
  obtain ⟨-, cause, einfo, rfl⟩ | ⟨r, rfl, -, -, hfixed, -⟩ := exec_cases hexec
  · exact s.takeFault_seqInv cause einfo _
  · unfold Result.KeepsFixed at hfixed
    have hrun : r.state.seq = .running := by simp [hfixed, hseq]
    have hfault : r.state.fault = s.fault := by simp only [hfixed]
    exact Result.retire_seqInv hrun (hfault.trans (hnone (by simp [hseq])))

theorem State.Inv.takeFault {s : State} (h : s.Inv) (cause : Cause) (einfo : Nat) (insn : InsnWord) :
    (s.takeFault cause einfo insn).Inv := by
  obtain ⟨hmem, hcommit, -⟩ := s.inv_iff.mp h
  exact (State.inv_iff _).mpr ⟨hmem.congr rfl, hcommit.congr rfl, s.takeFault_seqInv cause einfo insn⟩

theorem State.Inv.exec {i : Instr} {s t : State} (h : s.Inv) (hseq : s.seq = .running) (hexec : exec i s = .next t) :
    t.Inv := by
  obtain ⟨hmem, hcommit, hseqInv⟩ := s.inv_iff.mp h
  exact t.inv_iff.mpr ⟨hmem.exec hexec, hcommit.congr (exec_keeps_commitFields hexec).1, hseqInv.exec hseq hexec⟩

theorem State.Inv.seqStep {s t : State} (h : s.Inv) (hseq : s.seq = .running) (hstep : seqStep s = .next t) : t.Inv := by
  unfold Machine.seqStep at hstep
  split at hstep
  · exact h.exec hseq hstep
  · cases hstep
    exact h.takeFault _ _ _

/-! ## Resets and CTRL (R550, R48) -/

/-- No configuration is committed, and CFGSTAT is clear. -/
theorem State.commitInv_of_not_ok {s : State} (hok : s.cfgok = false) (hwide : s.cfgstat.badWide = false) : s.CommitInv :=
  ⟨fun h => by simp [hok] at h, fun h => by simp [hok] at h, hwide⟩

theorem State.RegistersReset.commitInv {t : State} (h : t.RegistersReset) : t.CommitInv := by
  obtain ⟨P, epoch, e, kst, mem, freeCtr, bus, rdata, rfl⟩ := h
  exact State.commitInv_of_not_ok rfl rfl

theorem State.RegistersReset.seqInv {t : State} (h : t.RegistersReset) : t.SeqInv := by
  obtain ⟨P, epoch, e, kst, mem, freeCtr, bus, rdata, rfl⟩ := h
  exact ⟨fun _ => ⟨rfl, rfl⟩, fun _ => rfl, nofun⟩

theorem State.memInv_of_empty {s : State} (hparams : s.params.valid = true) (hmem : s.mem = []) : s.MemInv :=
  ⟨hparams, hmem ▸ List.Pairwise.nil, by simp [hmem]⟩

theorem State.Inv.softReset {s : State} (h : s.Inv) : s.softReset.Inv := by
  have hregs := s.softReset_registersReset
  exact (State.inv_iff _).mpr ⟨(s.inv_iff.mp h).1.congr (by simp [State.memFields]), hregs.commitInv, hregs.seqInv⟩

theorem State.Inv.hardReset {s : State} (h : s.Inv) : s.hardReset.Inv := by
  have hregs := s.hardReset_registersReset
  have hmem : s.hardReset.MemInv := State.memInv_of_empty (by simp [h.params]) rfl
  exact (State.inv_iff _).mpr ⟨hmem, hregs.commitInv, hregs.seqInv⟩

/-- The commit of a legal modulus leaves the configuration that `Configured` describes (R54). -/
theorem State.commitConfig_configured {s : State} (hodd : s.p % 2 = 1) (hthree : 3 ≤ s.p) : s.commitConfig.Configured := by
  have hpos : 0 < s.p := by omega
  rw [State.commitConfig_of_legal hodd hthree]
  have hpinv : (wordOf (negPInv s.p s.width)).toNat = negPInv s.p s.width := wordOf_toNat_of_lt s _ (negPInv_lt hpos _)
  have hbelow (n : Nat) : (wordOf (n % s.p)).toNat = n % s.p :=
    wordOf_toNat_of_lt s _ (Nat.lt_trans (Nat.mod_lt _ hpos) s.p_lt_radix)
  exact
    { cfgok := rfl
      odd := hodd
      three := hthree
      pinv_lt := by rw [hpinv]; exact negPInv_lt hpos _
      pinv := by rw [hpinv]; exact negPInv_mul_add_one_mod hodd (by omega) _
      rsq := hbelow _
      rone := hbelow _ }

theorem State.commitConfig_commitInv (s : State) : s.commitConfig.CommitInv := by
  by_cases hlegal : s.p % 2 = 1 ∧ 3 ≤ s.p
  · obtain ⟨hodd, hthree⟩ := hlegal
    refine ⟨fun _ => State.commitConfig_configured hodd hthree, ?_⟩
    rw [State.commitConfig_of_legal hodd hthree]
    exact ⟨fun _ => rfl, rfl⟩
  · rw [State.commitConfig_of_illegal (by omega)]
    exact State.commitInv_of_not_ok rfl rfl

/-- A commit writes the configuration alone. -/
theorem State.commitConfig_keeps (s : State) :
    s.commitConfig.memFields = s.memFields ∧ s.commitConfig.seqFields = s.seqFields := by
  simp only [State.commitConfig]
  split <;> exact ⟨rfl, rfl⟩

theorem State.Inv.ctrlCommit {s : State} (h : s.Inv) : s.ctrlCommit.Inv := by
  unfold State.ctrlCommit
  split
  · exact h.congr rfl rfl rfl
  · obtain ⟨hmem, -, hseq⟩ := s.inv_iff.mp h
    obtain ⟨hmemEq, hseqEq⟩ := s.commitConfig_keeps
    exact (State.inv_iff _).mpr ⟨hmem.congr hmemEq, s.commitConfig_commitInv, hseq.congr hseqEq⟩

theorem State.Inv.ctrlHaltReq {s : State} (h : s.Inv) : s.ctrlHaltReq.Inv := by
  unfold State.ctrlHaltReq
  split
  case isFalse => exact h
  case isTrue hrun =>
    have hseq : s.seq = .running := by simpa [State.running] using hrun
    obtain ⟨hmem, hcommit, -, hrecord⟩ := s.inv_iff.mp h
    exact (State.inv_iff _).mpr ⟨hmem.congr rfl, hcommit.congr rfl, fun hstopped => absurd hseq hstopped, hrecord⟩

/-- A start leaves SEQ in RUNNING with the record clear, whatever the latches (R48, R512). -/
theorem State.Inv.running {s t : State} (h : s.Inv) (hmem : t.memFields = s.memFields)
    (hcommit : t.commitFields = s.commitFields) (hseq : t.seq = .running)
    (hfault : t.fault = { cause := 0, epc := 0, einfo := 0, insn := 0 }) : t.Inv := by
  obtain ⟨hmemInv, hcommitInv, -⟩ := s.inv_iff.mp h
  exact t.inv_iff.mpr ⟨hmemInv.congr hmem, hcommitInv.congr hcommit, fun hstopped => absurd hseq hstopped, fun _ => hfault,
    fun herr => by simp [hseq] at herr⟩

theorem State.Inv.ctrlStart {s : State} (h : s.Inv) : s.ctrlStart.Inv := by
  unfold State.ctrlStart
  split
  · exact h
  · exact h.running rfl rfl rfl rfl

theorem State.Inv.ctrlStep {s : State} (h : s.Inv) : s.ctrlStep.Inv := by
  unfold State.ctrlStep
  split
  · exact h
  · exact h.running rfl rfl rfl rfl

theorem State.Inv.ite {s t : State} (b : Bool) (hs : s.Inv) (ht : t.Inv) : (if b then s else t).Inv := by
  split
  · exact hs
  · exact ht

theorem State.Inv.writeCtrl {s : State} (h : s.Inv) (d : BitVec 32) : (s.writeCtrl d).Inv := by
  have hcommit : (if d.getLsbD 2 then s.ctrlCommit else s).Inv := .ite _ h.ctrlCommit h
  have hhalt := State.Inv.ite (d.getLsbD 1) hcommit.ctrlHaltReq hcommit
  exact .ite _ h.softReset (.ite _ hhalt.ctrlStart (.ite _ hhalt.ctrlStep hhalt))

/-! ## The other writes of HOST -/

/-- A write of NLIMBS or MODP takes the configuration back, so CFGOK claims nothing (R52, R53). -/
theorem State.Inv.unconfigured {s t : State} (h : s.Inv) (hmem : t.memFields = s.memFields) (hseq : t.seqFields = s.seqFields)
    (hok : t.cfgok = false) (hwide : t.cfgstat.badWide = false) : t.Inv := by
  obtain ⟨hmemInv, -, hseqInv⟩ := s.inv_iff.mp h
  exact t.inv_iff.mpr ⟨hmemInv.congr hmem, State.commitInv_of_not_ok hok hwide, hseqInv.congr hseq⟩

theorem State.Inv.writeNlimbs {s : State} (h : s.Inv) (v : Nat) : (s.writeNlimbs v).Inv := by
  unfold State.writeNlimbs
  split
  case h_7 => exact h
  all_goals exact h.unconfigured rfl rfl rfl rfl

theorem State.Inv.setInstret {s : State} (h : s.Inv) (n : BitVec 64) : ({ s with instret := n } : State).Inv :=
  h.congr rfl rfl rfl

theorem State.Inv.writeCsr {s : State} (h : s.Inv) (d : BitVec 32) (r : Csr) : (s.writeCsr d r).Inv := by
  cases r
  case ctrl => exact h.writeCtrl d
  case nlimbs => exact h.writeNlimbs _
  case status => exact .ite _ (h.congr rfl rfl rfl) h
  case instretLo | instretHi => exact h.setInstret _
  all_goals exact h.congr rfl rfl rfl

/-- The map names only IMEM words that exist (R101). -/
theorem State.lt_of_locate_eq_imem {s : State} {off i : Nat} (h : s.locate off = .imem i) : i < s.params.imemWords := by
  unfold State.locate at h
  (repeat' split at h) <;> cases h
  assumption

/-- The map names only DMEM words that exist (R101). -/
theorem State.lt_of_locate_eq_dmem {s : State} {off i slot : Nat} (h : s.locate off = .window (.dmem i) slot) :
    i < s.params.dmemWords := by
  unfold State.locate csrWindow at h
  (repeat' split at h) <;> cases h
  assumption

theorem State.Inv.storeBytes {s : State} (h : s.Inv) {a : Nat} {bs : List Byte}
    (hexists : ∀ x, a ≤ x → x < a + bs.length → ByteExists s.params x) : (s.storeBytes a bs).Inv := by
  obtain ⟨hmem, hcommit, hseq⟩ := s.inv_iff.mp h
  exact (State.inv_iff _).mpr ⟨hmem.storeBytes hexists, hcommit.congr rfl, hseq.congr rfl⟩

theorem State.Inv.writeWindow {s : State} (h : s.Inv) (d : BitVec 32) {off slot : Nat} {w : Window}
    (hloc : s.locate off = .window w slot) : (s.writeWindow d w slot).Inv := by
  unfold State.writeWindow
  split
  case isTrue => exact h
  case isFalse hslot =>
    cases w
    case modp => exact h.unconfigured rfl rfl rfl rfl
    case dmem i =>
      refine h.storeBytes fun x hlow hhigh => byteExists_dmemAddr (State.lt_of_locate_eq_dmem hloc) ?_ ?_
      · omega
      · rw [bytesOfNat_length] at hhigh
        omega
    case pinv | rsq | rone => exact h
    all_goals exact h.congr rfl rfl rfl

theorem State.Inv.hostWrite {s : State} (h : s.Inv) (off size : Nat) (d : BitVec 32) : (s.hostWrite off size d).Inv := by
  unfold State.hostWrite
  split
  case isFalse => exact h.congr rfl rfl rfl
  case isTrue =>
    cases hloc : s.locate off with
    | csr r => exact h.writeCsr d r
    | window w slot => exact h.writeWindow d hloc
    | imem i =>
      exact h.storeBytes fun x hlow hhigh =>
        byteExists_imemAddr (State.lt_of_locate_eq_imem hloc) hlow (by rwa [bytesOfNat_length] at hhigh)
    | reserved => exact h

theorem State.Inv.hostRead {s : State} (h : s.Inv) (off size : Nat) : (s.hostRead off size).Inv :=
  .ite _ (h.congr rfl rfl rfl) (h.congr rfl rfl rfl)

theorem State.Inv.hostEvent {s : State} (h : s.Inv) (ev : HostEvent) : (s.hostEvent ev).Inv := by
  cases ev with
  | read addr size => exact .ite _ (h.hostRead _ size) h
  | write addr size d => exact .ite _ (h.hostWrite _ size d) h
  | reset => exact h.hardReset

/-! ## Reset and steps -/

/-- Settles O2: at reset memory is empty, nothing is configured and SEQ is IDLE. -/
theorem invAtReset : Obligations.InvAtReset := by
  unfold Obligations.InvAtReset
  have hregs := State.reset_registersReset
  exact (State.inv_iff _).mpr ⟨State.memInv_of_empty (by decide) rfl, hregs.commitInv, hregs.seqInv⟩

/-- A step moves from a state that differs in the schedule alone. -/
theorem State.Inv.setBus {s : State} (h : s.Inv) (bus : List (Nat × HostEvent)) : ({ s with bus := bus } : State).Inv :=
  h.congr rfl rfl rfl

/-- What moves next starts from the state but for its schedule, and SEQ moves only while it is RUNNING (R61). -/
theorem State.nextMove_cases (s : State) :
    (∃ ev bus, s.nextMove = .input ev { s with bus := bus })
      ∨ (s.seq = .running ∧ ∃ bus, s.nextMove = .sequencer { s with bus := bus }) ∨ s.nextMove = .rest := by
  have hrun (h : s.running = true) : s.seq = .running := by simpa [State.running] using h
  rcases hbus : s.bus with _ | ⟨⟨_ | n, ev⟩, rest⟩
  case cons.zero => exact .inl ⟨ev, rest, by simp [State.nextMove, hbus]⟩
  case nil =>
    cases hr : s.running
    · exact .inr (.inr (by simp [State.nextMove, hbus, hr]))
    · have hmove : s.nextMove = .sequencer s := by simp [State.nextMove, hbus, hr]
      exact .inr (.inl ⟨hrun hr, s.bus, hmove⟩)
  case cons.succ =>
    cases hr : s.running
    · exact .inl ⟨ev, rest, by simp [State.nextMove, hbus, hr]⟩
    · exact .inr (.inl ⟨hrun hr, (n, ev) :: rest, by simp [State.nextMove, hbus, hr]⟩)

/-- Settles O3: an input keeps the three parts by `State.Inv.hostEvent`, a step of SEQ by `State.Inv.seqStep`. -/
theorem stepKeepsInv : Obligations.StepKeepsInv := by
  unfold Obligations.StepKeepsInv
  intro s t h hstep
  obtain ⟨ev, bus, hmove⟩ | ⟨hseq, bus, hmove⟩ | hmove := s.nextMove_cases
  · simp only [step, hmove, Host.Outcome.next.injEq] at hstep
    exact hstep ▸ (h.setBus bus).hostEvent ev
  · simp only [step, hmove] at hstep
    exact (h.setBus bus).seqStep hseq hstep
  · simp only [step, hmove, Host.Outcome.next.injEq] at hstep
    exact hstep ▸ h

end Sys2Proof.Machine
end

section
/-! PROOFS. One step of SEQ (60_exceptions R505), the bits of CTRL (10_state R48), and what an instruction that retires leaves in
every field but the registers (R506). -/

namespace Sys2Proof.Machine

/-! ## Steps (R505, R535) -/

theorem State.fetch_of_decodes {s : State} {i : Instr} (hpc : s.pc.toNat < s.params.imemWords)
    (hdecode : decode (s.imemWord s.pc.toNat) = .ok i) : s.fetch = .ok i := by
  rw [State.fetch, if_pos hpc, hdecode]

/-- Settles O4: the fetch at pc gives the instruction that decodes there. -/
theorem stepRunsDecoded : Obligations.StepRunsDecoded := by
  unfold Obligations.StepRunsDecoded
  intro s i hseq hbus hpc hdecode
  have hfetch : s.tick.fetch = .ok i := State.fetch_of_decodes (s := s.tick) hpc hdecode
  rw [step_of_noInputDue hseq hbus, seqStep, hfetch]

/-- Settles O5: the schedule decides what moves, and outside RUNNING an input lands whatever its delay. -/
theorem stepWithoutInstruction : Obligations.StepWithoutInstruction := by
  unfold Obligations.StepWithoutInstruction
  refine ⟨fun s ev rest hbus => ?_, fun s n ev rest hseq hbus => ?_, fun s hseq hbus => ?_⟩
  · simp [step, State.nextMove, hbus]
  · cases n <;> simp [step, State.nextMove, hbus, State.running_eq_false hseq]
  · simp [step, State.nextMove, hbus, State.running_eq_false hseq]

/-- A step at a pc past IMEM takes the fault FETCH_RANGE. -/
theorem step_of_fetchRange {s : State} (hseq : s.seq = .running) (hbus : s.noInputDue = true)
    (hpc : s.params.imemWords ≤ s.pc.toNat) : step s = .next (s.tick.takeFault .fetchRange s.pc.toNat 0) := by
  have hfetch : s.tick.fetch = .error ((.fetchRange, s.pc.toNat), 0) := by
    rw [State.fetch, if_neg (by exact Nat.not_lt.mpr hpc)]
    rfl
  rw [step_of_noInputDue hseq hbus, seqStep, hfetch]

/-- Settles O6: the two ways a fetch fails. -/
theorem fetchAndDecodeFaults : Obligations.FetchAndDecodeFaults := by
  unfold Obligations.FetchAndDecodeFaults
  exact fun s hseq hbus => ⟨step_of_fetchRange hseq hbus, fun k => step_of_illegal hseq hbus⟩

/-! ## CTRL (R48) -/

theorem State.writeCtrl_haltreq (s : State) : s.writeCtrl 0x2 = s.ctrlHaltReq := rfl

theorem State.writeCtrl_step (s : State) : s.writeCtrl 0x10 = s.ctrlStep := rfl

theorem State.running_eq_true {s : State} (h : s.seq = .running) : s.running = true := by simp [State.running, h]

theorem State.ctrlStart_of_running {s : State} (h : s.seq = .running) : s.ctrlStart = s := if_pos (State.running_eq_true h)

theorem State.ctrlStep_of_running {s : State} (h : s.seq = .running) : s.ctrlStep = s := if_pos (State.running_eq_true h)

theorem State.ctrlHaltReq_of_running {s : State} (h : s.seq = .running) :
    s.ctrlHaltReq = { s with haltRequested := true } := if_pos (State.running_eq_true h)

theorem State.ctrlCommit_of_running {s : State} (h : s.seq = .running) : s.ctrlCommit = s.refuse :=
  if_pos (State.running_eq_true h)

/-- The bits CFGCOMMIT, HALTREQ, START and STEP together: STEP is ignored beside START (R48). -/
theorem State.writeCtrl_all (s : State) : s.writeCtrl 0x17 = s.ctrlCommit.ctrlHaltReq.ctrlStart := rfl

theorem State.commitConfig_seq (s : State) : s.commitConfig.seq = s.seq := congrArg Prod.fst s.commitConfig_keeps.2

/-- Settles O52: every write of CTRL is `writeCtrl`, whose bits are the four operations in their order. -/
theorem controlWrites : Obligations.ControlWrites := by
  unfold Obligations.ControlWrites
  simp only [State.hostWrite_ctrl, State.writeCtrl_start, State.writeCtrl_step, State.writeCtrl_haltreq,
    State.writeCtrl_cfgcommit]
  refine ⟨fun s hseq => ?stopped, fun s hseq => ?running, fun s d hsrst => ⟨_, _, rfl, rfl, ?bits⟩⟩
  case stopped =>
    have hrun : s.running = false := State.running_eq_false hseq
    have hcommit : s.commitConfig.running = false := State.running_eq_false (by rwa [State.commitConfig_seq])
    simp [State.writeCtrl, State.ctrlStart, State.ctrlStep, State.ctrlHaltReq, State.ctrlCommit, hrun, hcommit, State.start,
      State.startStep]
  case running =>
    refine ⟨State.ctrlStart_of_running hseq, State.ctrlStep_of_running hseq, State.ctrlHaltReq_of_running hseq,
      State.ctrlCommit_of_running hseq, ?_⟩
    rw [State.writeCtrl_all, State.ctrlCommit_of_running hseq, State.ctrlHaltReq_of_running (s := s.refuse) hseq]
    exact State.ctrlStart_of_running hseq
  case bits => rw [State.writeCtrl, if_neg (Bool.eq_false_iff.mp hsrst)]

/-! ## Retirement (R506) -/

/-- Retirement by the latches, of an instruction other than HALT. -/
theorem Result.retire_latches {r : Result} (hhalt : r.halt = false) :
    r.retire.seq = (if r.state.stepPending || r.state.haltRequested then .idle else r.state.seq)
      ∧ r.retire.irqpendDone = r.state.irqpendDone ∧ r.retire.stepPending = false ∧ r.retire.haltRequested = false := by
  obtain ⟨u, q, halt⟩ := r
  obtain rfl : halt = false := hhalt
  rw [Result.retire_of_not_halt]
  exact ⟨rfl, rfl, rfl, rfl⟩

theorem Result.retire_halt {r : Result} (hhalt : r.halt = true) :
    r.retire.seq = .done ∧ r.retire.irqpendDone = true ∧ r.retire.stepPending = false ∧ r.retire.haltRequested = false := by
  obtain ⟨u, q, halt⟩ := r
  obtain rfl : halt = true := hhalt
  exact ⟨rfl, rfl, rfl, rfl⟩

/-- Settles O8: what `Keeps` says of the result, through `Result.retire`. -/
theorem retiredInstruction : Obligations.RetiredInstruction := by
  unfold Obligations.RetiredInstruction
  intro i s t hexec hnofault
  obtain ⟨r, rfl, hhalt, hpc, hfixed, -⟩ := exec_retires hexec hnofault
  unfold Result.KeepsFixed at hfixed
  refine ⟨by simp [hfixed], by simpa using hpc, fun hi => Result.retire_halt (hhalt.trans hi), fun hi hlatch => ?latched,
    fun hi hstep hreq => ?free, by simp [hfixed], by simp [hfixed]⟩
  case latched =>
    have hretire := Result.retire_latches (hhalt.trans hi)
    simpa [hfixed, hlatch] using hretire
  case free =>
    have hretire := Result.retire_latches (hhalt.trans hi)
    simpa [hfixed, hstep, hreq] using hretire

/-! ## Frames of everything but the registers -/

/-- Settles O46: a fault writes neither, and a result keeps them by `Keeps`. -/
theorem counterAndFlagFrame : Obligations.CounterAndFlagFrame := by
  unfold Obligations.CounterAndFlagFrame
  intro i s t hexec
  obtain ⟨-, cause, einfo, rfl⟩ | ⟨r, rfl, -, -, -, -, -, hctr, hC, hEq, hLt⟩ := exec_cases hexec
  · exact ⟨fun _ _ => rfl, fun _ _ => rfl, fun _ _ => rfl, fun _ => rfl⟩
  · have hc (c : Ctr) : r.retire.getC c = r.state.getC c := State.getC_congr (Result.retire_c r) c
    simpa only [hc, Result.retire_flC, Result.retire_flEq, Result.retire_flLt] using ⟨hctr, hC, hEq, hLt⟩

theorem exec_epoch {i : Instr} {s t : State} (hexec : exec i s = .next t) : t.epoch = s.epoch := by
  obtain ⟨-, cause, einfo, rfl⟩ | ⟨r, rfl, -, -, hfixed, -⟩ := exec_cases hexec
  · rfl
  · unfold Result.KeepsFixed at hfixed
    simp [hfixed]

/-- Settles O47: memory is the same but after ST, which stores its group by DMemWrite. -/
theorem memoryFrame : Obligations.MemoryFrame := by
  unfold Obligations.MemoryFrame
  refine ⟨fun i s t hexec hi a => ?other, fun ft r cb off s t hexec a hout => ?st⟩
  case other => exact State.readByte_congr (exec_mem_of_ne_st hexec hi) (exec_epoch hexec) a
  case st =>
    obtain hmem | ⟨-, hmem⟩ := exec_st_mem hexec
    · exact State.readByte_congr hmem (exec_epoch hexec) a
    · calc t.readByte a
        _ = (s.dmemWrite (s.dmemEa cb off) (s.group r (degree ft))).readByte a :=
          State.readByte_congr hmem ((exec_epoch hexec).trans (s.dmemWrite_epoch _ _).symm) a
        _ = s.readByte a := s.readByte_dmemWrite_out _ a _ fun j hj => hout j (by rwa [State.group_length] at hj)

/-- Settles O48: a fault writes the record alone, and a result keeps these fields by `Keeps`. -/
theorem specialFrame : Obligations.SpecialFrame := by
  unfold Obligations.SpecialFrame
  intro i s t hexec
  obtain ⟨-, cause, einfo, rfl⟩ | ⟨r, rfl, -, -, hfixed, hfree, -⟩ := exec_cases hexec
  · simp
  · unfold Result.KeepsFixed at hfixed
    simpa [hfixed] using hfree

end Sys2Proof.Machine
end

section
/-! PROOFS. The common checks one by one (60_exceptions R503): the first that fails is the fault. -/

namespace Sys2Proof.Machine

/-! ## Register and constant groups (step 3) -/

/-- The first element that has a property is the first one behind elements without it. -/
theorem find?_append_cons_of_forall_not {α : Type} {q : α → Bool} {pre post : List α} {x : α}
    (hpre : ∀ y ∈ pre, q y = false) (hx : q x = true) : (pre ++ x :: post).find? q = some x := by
  have hnone : pre.find? q = none := List.find?_eq_none.mpr fun y hy => by simp [hpre y hy]
  simp [List.find?_append, hnone, hx]

theorem Group.pastEnd_eq_false {g : Group} (h : Fits g.base g.size) : g.pastEnd = false :=
  decide_eq_false (Nat.not_lt.mpr h)

theorem Group.pastEnd_eq_true {g : Group} (h : ¬ Fits g.base g.size) : g.pastEnd = true :=
  decide_eq_true (Nat.lt_of_not_le h)

theorem checkRegRange_eq_first {o : Operands} {pre post : List Group} {g : Group} (hgroups : o.groups = pre ++ g :: post)
    (hpre : ∀ h ∈ pre, Fits h.base h.size) (hg : ¬ Fits g.base g.size) : checkRegRange o = some (.regRange, g.base) := by
  rw [checkRegRange, hgroups,
    find?_append_cons_of_forall_not (fun h hh => Group.pastEnd_eq_false (hpre h hh)) (Group.pastEnd_eq_true hg)]
  rfl

/-- Settles O10: step 3 of R503 is the first check, with LDK's constant group behind the register groups. -/
theorem regRangeFaults : Obligations.RegRangeFaults := by
  unfold Obligations.RegRangeFaults
  refine ⟨fun i s pre post g hwf hgroups hpre hg => ?regs, fun ft rd k s hfits hk => ?ldk⟩
  case regs =>
    have hchecks : s.commonChecks (operandsOf i) = some (.regRange, g.base) := by
      simp [State.commonChecks, checkRegRange_eq_first hgroups hpre hg]
    exact exec_check hwf hchecks
  case ldk =>
    have hregs : checkRegRange (operandsOf (.ldk ft rd k)) = none :=
      (checkRegRange_none _).mpr fun g hg => List.mem_singleton.mp hg ▸ hfits
    have hkst : checkKRange (operandsOf (.ldk ft rd k)) = some (.regRange, 0x100 + k.val) := if_pos hk
    have hchecks : s.commonChecks (operandsOf (.ldk ft rd k)) = some (.regRange, 0x100 + k.val) := by
      simp [State.commonChecks, hregs, hkst]
    exact exec_check rfl hchecks

/-! ## Overlap (step 4) -/

theorem Group.meets_eq_true {g h : Group} (hg : ¬ Apart g.base g.size h.base h.size) : g.meets h = true := by
  unfold Apart at hg
  simp only [Group.meets, Bool.and_eq_true, decide_eq_true_eq]
  omega

/-- An instruction that keeps its rd and rs1 groups apart faults where they meet, once its groups fit. -/
theorem exec_regOverlap {i : Instr} {s : State} {g h : Group} (hwf : i.wellFormed = true)
    (hfits : ∀ g ∈ (operandsOf i).groups, Fits g.base g.size) (hk : (operandsOf i).kGroup = none)
    (hrd : (operandsOf i).rd = some g) (hrs1 : (operandsOf i).rs1 = some h) (hno : (operandsOf i).noOverlap = true)
    (hmeet : ¬ Apart g.base g.size h.base h.size) : exec i s = .next (s.takeFault .regOverlap 0 (encode i)) := by
  have hrange : checkRegRange (operandsOf i) = none := (checkRegRange_none _).mpr hfits
  have hkrange : checkKRange (operandsOf i) = none := by simp [checkKRange, hk]
  have hoverlap : checkOverlap (operandsOf i) = some (.regOverlap, 0) := by
    simp [checkOverlap, hrd, hrs1, hno, Group.meets_eq_true hmeet]
  have hchecks : s.commonChecks (operandsOf i) = some (.regOverlap, 0) := by
    simp [State.commonChecks, hrange, hkrange, hoverlap]
  exact exec_check hwf hchecks

/-- Settles O11: `exec_regOverlap` at the four instructions with two destination groups. -/
theorem regOverlapFaults : Obligations.RegOverlapFaults := by
  unfold Obligations.RegOverlapFaults
  intro rd rs1 rs2 s hrs1
  refine ⟨fun hrd hmeet => exec_regOverlap rfl ?_ rfl rfl rfl rfl hmeet,
    fun hrd hrs2 hmeet => exec_regOverlap rfl ?_ rfl rfl rfl rfl hmeet,
    fun hrd hrs2 hmeet => exec_regOverlap rfl ?_ rfl rfl rfl rfl hmeet,
    fun hrd hrs2 hmeet => exec_regOverlap rfl ?_ rfl rfl rfl rfl hmeet⟩ <;>
  simp [operandsOf, Operands.groups, groupAt, *]

/-! ## Reduction (step 7) -/

/-- The moves, which have a DMEM or a constant group, check no word for reduction. -/
theorem operandsOf_unchecked {i : Instr} (h : (operandsOf i).kGroup ≠ none ∨ (operandsOf i).dmem ≠ none) :
    (operandsOf i).checkedRegs = [] ∧ (operandsOf i).kst = [] := by
  cases i
  case ldk | ld | st => exact ⟨rfl, rfl⟩
  all_goals exact absurd h (by simp [operandsOf, Operands.three, Operands.two])

/-- Steps 3 to 6 of R503 pass for an instruction that checks some word for reduction. -/
theorem State.commonChecks_eq_reduced {s : State} {i : Instr} (hfits : ∀ g ∈ (operandsOf i).groups, Fits g.base g.size)
    (hoverlap : checkOverlap (operandsOf i) = none) (hcfg : (operandsOf i).config = true → s.cfgok = true)
    (hchecked : (operandsOf i).checkedRegs ≠ [] ∨ (operandsOf i).kst ≠ []) :
    s.commonChecks (operandsOf i)
      = (checkReducedRegs s (operandsOf i)).or (checkReducedKst s (operandsOf i)) := by
  have hplain : (operandsOf i).kGroup = none ∧ (operandsOf i).dmem = none := by
    refine Classical.byContradiction fun hmove => ?_
    obtain ⟨hregs, hkst⟩ := operandsOf_unchecked (Classical.not_and_iff_not_or_not.mp hmove)
    exact hchecked.elim (absurd hregs) (absurd hkst)
  obtain ⟨hk, hd⟩ := hplain
  have hrange : checkRegRange (operandsOf i) = none := (checkRegRange_none _).mpr hfits
  have hkrange : checkKRange (operandsOf i) = none := by simp [checkKRange, hk]
  have hconfig : checkConfig s (operandsOf i) = none := (checkConfig_none s _).mpr hcfg
  have hdmem : checkDmem s (operandsOf i) = none := by simp [checkDmem, hd]
  cases hregs : checkReducedRegs s (operandsOf i) <;> cases hkst : checkReducedKst s (operandsOf i) <;>
    simp [State.commonChecks, hrange, hkrange, hoverlap, hconfig, hdmem, hregs, hkst]

/-- Settles O14: step 7 of R503 decides, the registers before the constants. -/
theorem notReducedFaults : Obligations.NotReducedFaults := by
  unfold Obligations.NotReducedFaults
  intro i s hwf hfits hoverlap hcfg
  have hbelow {x : Nat} (h : x < s.p) : decide (s.p ≤ x) = false := decide_eq_false (Nat.not_le.mpr h)
  refine ⟨fun pre post j hregs hpre hj => ?regs, fun pre post k hregs hkst hpre hk => ?consts⟩
  case regs =>
    have hfail : checkReducedRegs s (operandsOf i) = some (.notReduced, j) := by
      rw [checkReducedRegs, hregs,
        find?_append_cons_of_forall_not (fun x hx => hbelow (hpre x hx)) (decide_eq_true hj)]
      rfl
    have hchecks := State.commonChecks_eq_reduced hfits hoverlap hcfg (.inl (by simp [hregs]))
    exact exec_check hwf (f := (.notReduced, j)) (hchecks.trans (by simp [hfail]))
  case consts =>
    have hpass : checkReducedRegs s (operandsOf i) = none := (checkReducedRegs_none s _).mpr hregs
    have hfail : checkReducedKst s (operandsOf i) = some (.notReduced, 0x100 + k) := by
      rw [checkReducedKst, hkst,
        find?_append_cons_of_forall_not (fun x hx => hbelow (hpre x hx)) (decide_eq_true hk)]
      rfl
    have hchecks := State.commonChecks_eq_reduced hfits hoverlap hcfg (.inr (by simp [hkst]))
    exact exec_check hwf (f := (.notReduced, 0x100 + k)) (hchecks.trans (by simp [hpass, hfail]))

end Sys2Proof.Machine
end

section
/-! PROOFS. The instructions that check no word for reduction and need no configuration: BigInt (40_bigint), moves (45_move), branches
and counters (46_control); and the constants of 41_field. -/

namespace Sys2Proof.Machine

/-! ## An instruction that passes its checks -/

/-- An instruction that passes its checks retires to the next pc with its results written (R506, R421). -/
theorem exec_retired {i : Instr} {s u : State} {run : State → Except FaultInfo Result} (hexec : exec i s = perform i s run)
    (hwf : i.wellFormed = true) (hchecks : s.commonChecks (operandsOf i) = none) (hrun : run s = .ok u.fallThrough)
    (hpc : u.pc = s.pc) : exec i s = .next (u.retired (s.pc + 1)) := by
  rw [hexec, perform_ok hwf hchecks hrun, State.fallThrough_retire, hpc]

/-- Operands that ask for no more than register groups in the file pass every check where they fit. -/
theorem State.commonChecks_of_fits {s : State} {o : Operands} (hfits : ∀ g ∈ o.groups, Fits g.base g.size)
    (hk : ∀ k n, o.kGroup = some (k, n) → k + n ≤ 128)
    (hdmem : ∀ cb off d, o.dmem = some (cb, off, d) → s.dmemEa cb off + d ≤ s.params.dmemWords)
    (hoverlap : checkOverlap o = none) (hconfig : o.config = false) (hregs : o.checkedRegs = []) (hkst : o.kst = []) :
    s.commonChecks o = none :=
  (s.commonChecks_none o).mpr ⟨(checkRegRange_none o).mpr hfits, (checkKRange_none o).mpr hk, hoverlap,
    (checkConfig_none s o).mpr (by simp [hconfig]), (checkDmem_none s o).mpr hdmem,
    (checkReducedRegs_none s o).mpr (by simp [hregs]), (checkReducedKst_none s o).mpr (by simp [State.KstReduced, hkst])⟩

/-- A single register always fits. -/
theorem fits_one (r : Reg) : Fits r.val 1 := r.isLt

/-! ## BADD and BSUB (R202, R203) -/

/-- Bit W of the sum of two W-bit numbers is set exactly where the sum reaches 2^W. -/
theorem carryOut_eq {W a b : Nat} (ha : a < 2 ^ W) (hb : b < 2 ^ W) : carryOut W a b = decide (2 ^ W ≤ a + b) := by
  rw [carryOut, Nat.testBit_eq_decide_div_mod_eq]
  by_cases h : 2 ^ W ≤ a + b
  · have hone : (a + b) / 2 ^ W = 1 := Nat.div_eq_of_lt_le (by omega) (by omega)
    simp [h, hone]
  · have hzero : (a + b) / 2 ^ W = 0 := Nat.div_eq_of_lt (by omega)
    simp [h, hzero]

/-- The wrapped difference of two numbers below R is their integer difference modulo R. -/
theorem sub_mod_eq_int_emod {R a b : Nat} (hb : b < R) : (a + (R - b)) % R = (((a : Int) - (b : Int)) % R).toNat := by
  have hcast : ((a + (R - b) : Nat) : Int) = (a : Int) - b + R := by omega
  have hmod : (((a + (R - b)) % R : Nat) : Int) = ((a : Int) - b) % R := by
    rw [Int.natCast_emod, hcast, Int.add_emod_right]
  rw [← hmod, Int.toNat_natCast]

/-- Settles O15: three single registers always pass the checks. -/
theorem baddBsubResults : Obligations.BaddBsubResults := by
  unfold Obligations.BaddBsubResults
  intro rd rs1 rs2 s
  have hchecks : s.commonChecks (operandsOf (.badd rd rs1 rs2)) = none := by
    refine State.commonChecks_of_fits ?_ nofun nofun rfl rfl rfl rfl
    simp [operandsOf, Operands.groups, groupAt, fits_one]
  constructor
  · rw [← carryOut_eq (s.w_lt_radix rs1) (s.w_lt_radix rs2)]
    exact exec_retired rfl rfl hchecks (by rfl) rfl
  · have hdiff := sub_mod_eq_int_emod (a := s.w rs1) (s.w_lt_radix rs2)
    rw [State.radix, Int.natCast_pow, Int.cast_ofNat_Int] at hdiff
    rw [← hdiff]
    exact exec_retired rfl rfl hchecks (by rfl) rfl

/-! ## BMUL and BREDC (R204, R205) -/

/-- The result of REDC on a double word fits one word, also where the double word is not below p * R. -/
theorem redc_lt_radix {p pinv R T : Nat} (hp : p < R) (hT : T < R * R) : redc p pinv R T < R := by
  have hR : 0 < R := by omega
  have hfactor : T % R * pinv % R * p ≤ R * p := Nat.mul_le_mul_right p (Nat.le_of_lt (Nat.mod_lt _ hR))
  have hquot : redcQuotient p pinv R T < R + p := by
    refine Nat.div_lt_of_lt_mul ?_
    rw [Nat.mul_add]
    exact Nat.add_lt_add_of_lt_of_le hT hfactor
  rw [redc_eq_ite]
  split <;> omega

/-- Settles O16: the product of two words by its quotient and remainder, and REDC by the bounds of R233. -/
theorem bmulBredcResults : Obligations.BmulBredcResults := by
  unfold Obligations.BmulBredcResults
  refine ⟨fun rd rs1 rs2 s hrd => ?bmul, fun rd rs1 s hcfg hrs1 => ⟨_, rfl, ?bound, ?value, s.redc_lt, ?bredc⟩⟩
  case bmul =>
    have hprod : s.w rs1 * s.w rs2 < s.radix * s.radix := Nat.mul_lt_mul'' (s.w_lt_radix rs1) (s.w_lt_radix rs2)
    refine ⟨s.w rs1 * s.w rs2 % s.radix, s.w rs1 * s.w rs2 / s.radix, Nat.mod_lt _ s.radix_pos,
      Nat.div_lt_of_lt_mul hprod, Nat.mod_add_div' _ _, ?_⟩
    refine exec_retired (u := s.setGroup rd [_, _]) rfl rfl ?_ (by rfl) rfl
    refine State.commonChecks_of_fits ?_ nofun nofun rfl rfl rfl rfl
    simp [operandsOf, Operands.groups, groupAt, fits_one, hrd]
  case bound =>
    have hhigh : s.w (rs1.val + 1) + 1 ≤ s.radix := s.w_lt_radix _
    have hlow : s.w rs1 < s.radix := s.w_lt_radix _
    refine redc_lt_radix s.p_lt_radix ?_
    calc s.w (rs1.val + 1) * s.radix + s.w rs1
      _ < (s.w (rs1.val + 1) + 1) * s.radix := by rw [Nat.succ_mul]; omega
      _ ≤ s.radix * s.radix := Nat.mul_le_mul_right _ hhigh
  case value => exact hcfg.redc_mul_radix_mod _
  case bredc =>
    have hready : s.Ready [(rd.val, 1), (rs1.val, 2)] [] [] :=
      ⟨hcfg, by simp [fits_one, hrs1], by simp, by simp [State.KstReduced]⟩
    refine exec_retired rfl rfl (hready.commonChecks_eq_none ?_ ?_ rfl rfl rfl) (by rfl) rfl <;>
      simp [operandsOf, Operands.groups, groupAt, Role.checked]

/-! ## BCMP (R206) -/

/-- A common factor of the terms of a sum. -/
theorem sum_map_mul_const (l : List Nat) (f : Nat → Nat) (c : Nat) : (l.map fun j => f j * c).sum = (l.map f).sum * c := by
  induction l with
  | nil => simp
  | cons j l ih => rw [List.map_cons, List.map_cons, List.sum_cons, List.sum_cons, ih, Nat.add_mul]

/-- The integer in a group is the sum of its words by their weights. -/
theorem State.multiword_eq_sum (s : State) (i n : Nat) :
    s.multiword i n = ((List.range n).map fun j => s.w (i + j) * 2 ^ (s.width * j)).sum := by
  induction n generalizing i with
  | zero => rfl
  | succ n ih =>
    have hshift (j : Nat) : s.w (i + 1 + j) * 2 ^ (s.width * j) * s.radix = s.w (i + (j + 1)) * 2 ^ (s.width * (j + 1)) := by
      rw [State.radix, Nat.mul_assoc, ← Nat.pow_add, Nat.mul_succ, show i + 1 + j = i + (j + 1) by omega]
    rw [State.multiword, ih, Nat.mul_comm, List.range_succ_eq_map, List.map_cons, List.sum_cons, List.map_map,
      ← sum_map_mul_const]
    simp [Function.comp_def, hshift]

/-- Two groups hold the same integer exactly when they hold the same words. -/
theorem State.multiword_eq_iff (s : State) (i j n : Nat) :
    s.multiword i n = s.multiword j n ↔ ∀ k, k < n → s.w (i + k) = s.w (j + k) := by
  induction n generalizing i j with
  | zero => simp [State.multiword]
  | succ n ih =>
    have hdigits : s.w i + s.radix * s.multiword (i + 1) n = s.w j + s.radix * s.multiword (j + 1) n
        ↔ s.w i = s.w j ∧ s.multiword (i + 1) n = s.multiword (j + 1) n := by
      refine ⟨fun h => ?_, fun ⟨h1, h2⟩ => by rw [h1, h2]⟩
      have hlow : s.w i = s.w j := by
        simpa [Nat.add_mul_mod_self_left, Nat.mod_eq_of_lt (s.w_lt_radix _)] using congrArg (· % s.radix) h
      rw [hlow, Nat.add_left_cancel_iff] at h
      exact ⟨hlow, Nat.eq_of_mul_eq_mul_left s.radix_pos h⟩
    have hword (k : Nat) : s.w (i + 1 + k) = s.w (j + 1 + k) ↔ s.w (i + (k + 1)) = s.w (j + (k + 1)) := by
      rw [show i + 1 + k = i + (k + 1) by omega, show j + 1 + k = j + (k + 1) by omega]
    rw [State.multiword, State.multiword, hdigits, ih]
    simp only [hword]
    constructor
    · rintro ⟨hzero, hsucc⟩ k hk
      cases k with
      | zero => exact hzero
      | succ k => exact hsucc k (by omega)
    · exact fun h => ⟨h 0 (by omega), fun k hk => h (k + 1) (by omega)⟩

/-- Settles O17: the comparison of the integers in the two groups. -/
theorem bcmpResult : Obligations.BcmpResult := by
  unfold Obligations.BcmpResult
  intro ft rs1 rs2 s hrs1 hrs2
  simp only [← State.multiword_eq_sum]
  refine ⟨exec_retired rfl rfl ?_ (by rfl) rfl, s.multiword_eq_iff rs1 rs2 (degree ft)⟩
  refine State.commonChecks_of_fits ?_ nofun nofun rfl rfl rfl rfl
  simp [operandsOf, Operands.groups, groupAt, hrs1, hrs2]

/-! ## Constants (R207, R266, R268) -/

theorem ringOf_coeffs_one (p : Nat) (kv : Nat → Nat) (ft : FieldType) :
    (ringOf p kv ft).coeffs (ringOf p kv ft).one = 1 % p :: List.replicate (degree ft - 1) 0 := by
  cases ft <;> rfl

/-- The words of the element one are RONE and zeros (R268). -/
theorem State.Configured.putElt_one {s : State} (h : s.Configured) (ft : FieldType) (i : Nat) :
    s.putElt ft i (s.ring ft).one = s.setGroup i (s.rone :: List.replicate (degree ft - 1) 0) := by
  simp [State.putElt, State.putCoeffs, State.ring, ringOf_coeffs_one, h.phi_one, wordOf]

/-- Settles O18: BSETI always fits, and the words of the element one are those FONE writes. -/
theorem constantResults : Obligations.ConstantResults := by
  unfold Obligations.ConstantResults
  refine ⟨fun rd imm s => ?bseti, fun ft rd s hready => ?field⟩
  case bseti =>
    have hchecks : s.commonChecks (operandsOf (.bseti rd imm)) = none := by
      refine State.commonChecks_of_fits ?_ nofun nofun rfl rfl rfl rfl
      simp [operandsOf, Operands.groups, groupAt, fits_one]
    have hword : imm.setWidth 384 = wordOf imm.toNat := (BitVec.ofNat_toNat 384 imm).symm
    rw [hword]
    exact exec_retired rfl rfl hchecks (by rfl) rfl
  case field =>
    have hchecks : s.commonChecks (operandsOf (.fone ft rd)) = none := by
      refine hready.commonChecks_eq_none ?_ ?_ rfl rfl rfl <;> simp [operandsOf, Operands.groups, groupAt, Role.checked]
    have hfone : exec (.fone ft rd) s
        = .next ((s.setGroup rd.val (s.rone :: List.replicate (degree ft - 1) 0)).retired (s.pc + 1)) :=
      exec_retired rfl rfl hchecks (by rfl) (by simp)
    refine ⟨exec_retired rfl rfl hchecks (by rfl) (by simp), hfone, ?_⟩
    rw [hready.1.putElt_one, hfone]

/-! ## Moves (R400 to R404) -/

/-- Writing a group changes the register file alone. -/
theorem State.setGroup_eq (s : State) (i : Nat) (ws : List Word) : s.setGroup i ws = { s with e := (s.setGroup i ws).e } := by
  induction ws generalizing s i with
  | nil => rfl
  | cons w ws ih => exact ih (s.setE i w) (i + 1)

theorem State.getE_retired (s : State) (q : Half) (i : Nat) : (s.retired q).getE i = s.getE i := rfl

/-- An instruction whose one result is a group of registers: its words, and nothing else. -/
theorem exec_writes_group {i : Instr} {s : State} {base : Nat} {ws : List Word}
    (hexec : exec i s = .next ((s.setGroup base ws).retired (s.pc + 1))) (hfits : Fits base ws.length) :
    ∃ t : State, exec i s = .next t ∧ (∀ (j : Nat) (hj : j < ws.length), t.getE (base + j) = ws[j])
      ∧ t = ({ s with e := t.e } : State).retired (s.pc + 1) := by
  refine ⟨_, hexec, fun j hj => ?_, ?_⟩
  · rw [State.getE_retired, State.getE_setGroup_in s base j ws hj hfits]
  · exact congrArg (State.retired · (s.pc + 1)) (s.setGroup_eq base ws)

/-- Settles O39: MOV and LDK write the group they read, word for word. -/
theorem movLdkResults : Obligations.MovLdkResults := by
  unfold Obligations.MovLdkResults
  refine ⟨fun ft rd rs1 s hrd hrs1 => ?mov, fun ft rd k s hrd hk => ?ldk⟩
  case mov =>
    have hchecks : s.commonChecks (operandsOf (.mov ft rd rs1)) = none := by
      refine State.commonChecks_of_fits ?_ nofun nofun rfl rfl rfl rfl
      simp [operandsOf, Operands.groups, groupAt, hrd, hrs1]
    have hexec : exec (.mov ft rd rs1) s = .next ((s.setGroup rd (s.group rs1 (degree ft))).retired (s.pc + 1)) :=
      exec_retired rfl rfl hchecks (by rfl) (by simp)
    obtain ⟨t, ht, hwords, hrest⟩ := exec_writes_group hexec (by rwa [State.group_length])
    exact ⟨t, ht, fun j hj => (hwords j (by rwa [State.group_length])).trans (by simp [State.group]), hrest⟩
  case ldk =>
    have hchecks : s.commonChecks (operandsOf (.ldk ft rd k)) = none := by
      refine State.commonChecks_of_fits ?_ ?_ nofun rfl rfl rfl rfl
      · simp [operandsOf, Operands.groups, groupAt, hrd]
      · rintro _ _ ⟨⟩
        exact hk
    have hexec : exec (.ldk ft rd k) s
        = .next ((s.setGroup rd ((List.range (degree ft)).map fun j => s.getK (k.val + j))).retired (s.pc + 1)) :=
      exec_retired rfl rfl hchecks (by rfl) (by simp)
    obtain ⟨t, ht, hwords, hrest⟩ := exec_writes_group hexec (by simpa using hrd)
    exact ⟨t, ht, fun j hj => (hwords j (by simpa using hj)).trans (by simp), hrest⟩

/-- LD and ST pass their checks where both groups are in range. -/
theorem State.commonChecks_of_dmem {s : State} {i : Instr} {cb : Ctr} {off d : Nat}
    (hdmem : (operandsOf i).dmem = some (cb, off, d)) (hfits : ∀ g ∈ (operandsOf i).groups, Fits g.base g.size)
    (hinside : s.dmemEa cb off + d ≤ s.params.dmemWords) : s.commonChecks (operandsOf i) = none := by
  rw [State.commonChecks_eq_checkDmem (by simp [hdmem]) hfits]
  simp [checkDmem, hdmem, Nat.not_lt.mpr hinside]

/-- Settles O40: LD writes the DMEM words it reads. -/
theorem ldResult : Obligations.LdResult := by
  unfold Obligations.LdResult
  intro ft r cb off s hr hinside
  have hchecks : s.commonChecks (operandsOf (.ld ft r cb off)) = none :=
    State.commonChecks_of_dmem rfl (fun g hg => List.mem_singleton.mp hg ▸ hr) hinside
  obtain ⟨t, ht, hwords, hrest⟩ := exec_writes_group (exec_ld_of_checks hchecks) (by simpa [State.dmemRead] using hr)
  exact ⟨t, ht, fun j hj => (hwords j (by simpa [State.dmemRead] using hj)).trans (by simp [State.dmemRead, State.dmemEa]),
    hrest⟩

/-- A number whose bytes memory holds reads back. -/
theorem State.readNat_of_bytes {s : State} {a n v : Nat}
    (h : ∀ k, k < n → s.readByte (a + k) = BitVec.ofNat 8 (v / 256 ^ k)) : s.readNat a n = v % 256 ^ n := by
  have hbytes : (List.range n).map (fun j => s.readByte (a + j)) = bytesOfNat n v := by
    refine List.ext_getElem (by simp) fun k hk hk' => ?_
    have hkn : k < n := by simpa using hk
    have hbyte := bytesOfNat_getElem? n v k hkn
    rw [List.getElem?_eq_getElem hk', Option.some.injEq] at hbyte
    rw [hbyte, List.getElem_map, List.getElem_range, h k hkn]
  rw [State.readNat, hbytes, natOfBytes_bytesOfNat]

theorem pow_256 (n : Nat) : 256 ^ n = 2 ^ (8 * n) := (Nat.pow_mul 2 8 n).symm

/-- A word of DMEM whose bytes memory holds reads back. -/
theorem State.dmemWord_of_bytes {s : State} {i : Nat} {w : Word}
    (h : ∀ k, k < 48 → s.readByte (dmemAddr i + k) = BitVec.ofNat 8 (w.toNat / 256 ^ k)) : s.dmemWord i = w := by
  rw [State.dmemWord, State.readNat_of_bytes h, Nat.mod_eq_of_lt (Nat.lt_of_lt_of_eq w.isLt (pow_256 48).symm), BitVec.ofNat_toNat, BitVec.setWidth_eq]

/-- Writing DMEM changes memory alone. -/
theorem State.dmemWrite_eq (s : State) (ea : Nat) (ws : List Word) :
    s.dmemWrite ea ws = { s with mem := (s.dmemWrite ea ws).mem } := by
  induction ws generalizing s ea with
  | nil => rfl
  | cons w ws ih => exact ih (s.storeBytes (dmemAddr ea) (bytesOfNat 48 w.toNat)) (ea + 1)

/-- Settles O41: the bytes of every word by `State.readByte_dmemWrite_in`, and from them the words. -/
theorem stResult : Obligations.StResult := by
  unfold Obligations.StResult
  intro ft r cb off s hr hinside
  have hchecks : s.commonChecks (operandsOf (.st ft r cb off)) = none :=
    State.commonChecks_of_dmem rfl (fun g hg => List.mem_singleton.mp hg ▸ hr) hinside
  have hbytes (j k : Nat) (hj : j < degree ft) (hk : k < 48) :
      ((s.dmemWrite (s.dmemEa cb off) (s.group r (degree ft))).retired (s.pc + 1)).readByte
          (dmemAddr ((s.getC cb).toNat + off.val + j) + k)
        = BitVec.ofNat 8 ((s.getE (r.val + j)).toNat / 256 ^ k) := by
    have hword := s.readByte_dmemWrite_in (s.dmemEa cb off) j k (s.group r (degree ft)) (by rwa [State.group_length]) hk
    rw [show (s.group r (degree ft))[j]'_ = s.getE (r.val + j) by simp [State.group]] at hword
    exact hword
  refine ⟨_, exec_st_of_checks hchecks, fun j hj => State.dmemWord_of_bytes fun k => hbytes j k hj, fun j k => hbytes j k, ?_⟩
  exact congrArg (State.retired · (s.pc + 1)) (s.dmemWrite_eq _ _)

/-! ## Branches and counters (R422 to R432) -/

/-- A branch that passes its checks retires to its target where it is taken, else to pc + 1 (R421). -/
theorem exec_branched {i : Instr} {s u : State} {run : State → Except FaultInfo Result} {taken : Bool} {target : Half}
    (hexec : exec i s = perform i s run) (hwf : i.wellFormed = true) (hchecks : s.commonChecks (operandsOf i) = none)
    (hrun : run s = .ok (u.branch taken target)) (hpc : u.pc = s.pc) :
    exec i s = .next (u.retired (if taken then target else s.pc + 1)) := by
  rw [hexec, perform_ok hwf hchecks hrun, State.branch_retire, hpc]

/-- An instruction with at most one raw register passes its checks in every state. -/
theorem State.commonChecks_one_raw (s : State) (r : Reg) : s.commonChecks { rs1 := groupAt r 1 .raw } = none :=
  State.commonChecks_of_fits (by simp [Operands.groups, groupAt, fits_one]) nofun nofun rfl rfl rfl rfl

theorem State.bitOf_eq_true_iff (s : State) (r : Reg) (i : Nat) :
    s.bitOf r i = true ↔ i < s.width ∧ s.w r / 2 ^ i % 2 = 1 := by
  simp [State.bitOf, Nat.testBit_eq_decide_div_mod_eq]

theorem sub_one_eq_zero_iff (v : Half) : v - 1 = 0 ↔ v.toNat = 1 := by
  rw [← BitVec.toNat_inj]
  simp
  omega

/-- Settles O42: the target of a taken branch, by the condition of each. -/
theorem branchResults : Obligations.BranchResults := by
  unfold Obligations.BranchResults
  intro s target
  refine ⟨exec_branched (u := s) (taken := true) rfl rfl rfl (by rfl) rfl, fun cond => ?bf, fun ci rs => ⟨?bbs, ?bbc⟩,
    fun cd => ?bcnz⟩
  case bf =>
    have hexec : exec (.bf cond target) s = .next (s.retired (if s.holds cond then target else s.pc + 1)) :=
      exec_branched rfl rfl rfl (by rfl) rfl
    rw [hexec]
    cases cond
    case eq | ne => cases hflag : s.flEq <;> simp [State.holds, hflag]
    case lt | ge => cases hflag : s.flLt <;> simp [State.holds, hflag]
    case cs | cc => cases hflag : s.flC <;> simp [State.holds, hflag]
  case bbs =>
    have hexec : exec (.bbs ci rs target) s
        = .next (s.retired (if s.bitOf rs (s.getC ci).toNat then target else s.pc + 1)) :=
      exec_branched rfl rfl (s.commonChecks_one_raw rs) (by rfl) rfl
    simp only [hexec, State.bitOf_eq_true_iff]
  case bbc =>
    have hexec : exec (.bbc ci rs target) s
        = .next (s.retired (if !s.bitOf rs (s.getC ci).toNat then target else s.pc + 1)) :=
      exec_branched rfl rfl (s.commonChecks_one_raw rs) (by rfl) rfl
    simp only [hexec, Bool.not_eq_true', ← Bool.not_eq_true, State.bitOf_eq_true_iff, ite_not]
  case bcnz =>
    have hexec : exec (.bcnz cd target) s
        = .next ((s.setC cd (s.getC cd - 1)).retired (if s.getC cd - 1 != 0 then target else s.pc + 1)) :=
      exec_branched rfl rfl rfl (by rfl) rfl
    simp only [hexec, bne_iff_ne, ne_eq, sub_one_eq_zero_iff, ite_not]

/-- A number has one length in bits (R432). -/
theorem bitlen_eq {m n : Nat} (hlt : m < 2 ^ n) (hle : n = 0 ∨ 2 ^ (n - 1) ≤ m) : bitlen m = n := by
  unfold bitlen
  obtain rfl | hle := hle
  · have hzero : m = 0 := by simpa using hlt
    simp [hzero]
  · have hm : m ≠ 0 := Nat.ne_of_gt (Nat.lt_of_lt_of_le (Nat.two_pow_pos _) hle)
    have hn : n ≠ 0 := by
      rintro rfl
      exact hm (by simpa using hlt)
    have hlog : m.log2 = n - 1 := by
      rw [Nat.log2_eq_iff hm]
      exact ⟨hle, by rwa [Nat.sub_one_add_one hn]⟩
    rw [if_neg hm, hlog, Nat.sub_one_add_one hn]

/-- A number of `n` bits below 2^W. -/
theorem le_of_two_pow_le {n W m : Nat} (hle : 2 ^ (n - 1) ≤ m) (hlt : m < 2 ^ W) : n ≤ W := by
  have hexp : n - 1 < W := (Nat.pow_lt_pow_iff_right (by decide)).mp (Nat.lt_of_le_of_lt hle hlt)
  omega

/-- Settles O43: the three counter instructions have at most one raw register. -/
theorem counterResults : Obligations.CounterResults := by
  unfold Obligations.CounterResults
  refine fun s => ⟨fun cd imm => ?cset, fun cd cs imm => ?caddi, fun cd rs n hlt hle => ⟨?cblen, ?le⟩⟩
  case cset => exact exec_retired rfl rfl rfl (by rfl) rfl
  case caddi =>
    have hsum : BitVec.ofInt 16 (((s.getC cs).toNat : Int) + imm.toInt) = s.getC cs + imm := by
      rw [BitVec.ofInt_add, BitVec.ofInt_toInt, BitVec.ofInt_natCast, BitVec.ofNat_toNat, BitVec.setWidth_eq]
    rw [hsum]
    exact exec_retired rfl rfl rfl (by rfl) rfl
  case cblen =>
    have hexec : exec (.cblen cd rs) s = .next ((s.setC cd (BitVec.ofNat 16 (bitlen (s.w rs)))).retired (s.pc + 1)) :=
      exec_retired rfl rfl (s.commonChecks_one_raw rs) (by rfl) rfl
    rw [hexec, bitlen_eq hlt hle]
  case le =>
    obtain rfl | hle := hle
    · exact Nat.zero_le _
    · exact Nat.le_trans (le_of_two_pow_le hle (s.w_lt_radix rs)) s.width_le

end Sys2Proof.Machine
end

section
/-! PROOFS. The rings of the tower (41_field R236, R237) as commutative rings: each level is interpreted in a commutative ring, from
the residues modulo p upward; and the inverse that each level computes (R256). -/

namespace Sys2Proof.Machine

/-! ## What an interpretation is -/

/-- Every base-field coefficient of an element is below p (R19). -/
def RingOps.Below {α : Type} (F : RingOps α) (p : Nat) (x : α) : Prop := ∀ c ∈ F.coeffs x, c < p

/-- The operations of `F` are those of the commutative ring `A` under the map `φ`, which is injective on elements in canonical form,
and every operation gives elements in canonical form. -/
structure RingOps.Interp {α : Type} (F : RingOps α) (p : Nat) {A : Type} [R : Lean.Grind.CommRing A] (φ : α → A) : Prop where
  inj : ∀ {x y}, F.Below p x → F.Below p y → φ x = φ y → x = y
  beq_iff : ∀ x y, F.beq x y = true ↔ x = y
  map_zero : φ F.zero = 0
  map_one : φ F.one = 1
  map_add : ∀ x y, φ (F.add x y) = φ x + φ y
  map_sub : ∀ x y, φ (F.sub x y) = φ x - φ y
  map_neg : ∀ x, φ (F.neg x) = -φ x
  map_mul : ∀ x y, φ (F.mul x y) = φ x * φ y
  zero_below : F.Below p F.zero
  one_below : F.Below p F.one
  add_below : ∀ x y, F.Below p (F.add x y)
  sub_below : ∀ x y, F.Below p (F.sub x y)
  neg_below : ∀ x, F.Below p (F.neg x)
  mul_below : ∀ x y, F.Below p (F.mul x y)
  scale_below : ∀ k x, F.Below p (F.scale k x)

/-- The inverse that `F` computes is one in canonical form, and is found wherever there is one. -/
structure RingOps.LawfulInv {α : Type} (F : RingOps α) (p : Nat) : Prop where
  some_spec : ∀ {x b}, F.inv x = some b → F.Below p b ∧ F.mul x b = F.one
  none_spec : ∀ {x b}, F.inv x = none → F.Below p b → F.mul x b ≠ F.one

/-! ## The prime field (R236) -/

theorem primeRing_below {p x : Nat} : (primeRing p).Below p x ↔ x < p := by simp [RingOps.Below, primeRing]

theorem ofNat_add (p : Nat) [NeZero p] (a b : Nat) : Fin.ofNat p (a + b) = Fin.ofNat p a + Fin.ofNat p b :=
  Fin.ext (by simp [Fin.val_add])

theorem ofNat_mul (p : Nat) [NeZero p] (a b : Nat) : Fin.ofNat p (a * b) = Fin.ofNat p a * Fin.ofNat p b :=
  Fin.ext (by simp [Fin.val_mul, Nat.mul_mod])

theorem ofNat_mod (p : Nat) [NeZero p] (a : Nat) : Fin.ofNat p (a % p) = Fin.ofNat p a := Fin.ext (by simp)

/-- A number subtracted from p is its negative modulo p. -/
theorem ofNat_sub_self (p : Nat) [NeZero p] {b : Nat} (h : b ≤ p) : Fin.ofNat p (p - b) = -Fin.ofNat p b := by
  have hsum : Fin.ofNat p (p - b) + Fin.ofNat p b = 0 := by rw [← ofNat_add, Nat.sub_add_cancel h, Fin.ofNat_self]
  grind

theorem primeRing_interp (p : Nat) [NeZero p] : (primeRing p).Interp p (Fin.ofNat p) where
  inj hx hy h := by
    have hval : _ % p = _ % p := congrArg Fin.val h
    rwa [Nat.mod_eq_of_lt (primeRing_below.mp hx), Nat.mod_eq_of_lt (primeRing_below.mp hy)] at hval
  beq_iff x y := by simp [primeRing]
  map_zero := rfl
  map_one := ofNat_mod p 1
  map_add x y := (ofNat_mod p _).trans (ofNat_add p x y)
  map_sub x y := by
    have hle : y % p ≤ p := Nat.le_of_lt (Nat.mod_lt y (Nat.pos_of_neZero p))
    simp only [primeRing, ofNat_mod, ofNat_add, ofNat_sub_self p hle]
    grind
  map_neg x := by
    have hle : x % p ≤ p := Nat.le_of_lt (Nat.mod_lt x (Nat.pos_of_neZero p))
    simp only [primeRing, ofNat_mod, ofNat_sub_self p hle]
  map_mul x y := (ofNat_mod p _).trans (ofNat_mul p x y)
  zero_below := primeRing_below.mpr (Nat.pos_of_neZero p)
  one_below := primeRing_below.mpr (Nat.mod_lt _ (Nat.pos_of_neZero p))
  add_below _ _ := primeRing_below.mpr (Nat.mod_lt _ (Nat.pos_of_neZero p))
  sub_below _ _ := primeRing_below.mpr (Nat.mod_lt _ (Nat.pos_of_neZero p))
  neg_below _ := primeRing_below.mpr (Nat.mod_lt _ (Nat.pos_of_neZero p))
  mul_below _ _ := primeRing_below.mpr (Nat.mod_lt _ (Nat.pos_of_neZero p))
  scale_below _ _ := primeRing_below.mpr (Nat.mod_lt _ (Nat.pos_of_neZero p))

/-! ### The inverse modulo p -/

/-- The step of Euclid on the factors: the new remainder's factor, modulo p. -/
theorem euclid_factor {p : Nat} [NeZero p] {a : Fin p} {r0 t0 r1 t1 : Nat} (h0 : Fin.ofNat p r0 = Fin.ofNat p t0 * a)
    (h1 : Fin.ofNat p r1 = Fin.ofNat p t1 * a) :
    Fin.ofNat p (r0 % r1) = Fin.ofNat p ((t0 + (p - r0 / r1 % p * t1 % p)) % p) * a := by
  have hdiv : Fin.ofNat p r0 = Fin.ofNat p r1 * Fin.ofNat p (r0 / r1) + Fin.ofNat p (r0 % r1) := by
    rw [← ofNat_mul, ← ofNat_add, Nat.div_add_mod]
  have hle : r0 / r1 % p * t1 % p ≤ p := Nat.le_of_lt (Nat.mod_lt _ (Nat.pos_of_neZero p))
  rw [ofNat_mod, ofNat_add, ofNat_sub_self p hle, ofNat_mod, ofNat_mul, ofNat_mod]
  grind

/-- What the loop of Euclid returns: the greatest common divisor, and a factor below p that gives it modulo p. -/
theorem euclid_spec {p : Nat} [NeZero p] (a : Fin p) {fuel r0 t0 r1 t1 : Nat} (hfuel : r1 < fuel)
    (h0 : Fin.ofNat p r0 = Fin.ofNat p t0 * a) (h1 : Fin.ofNat p r1 = Fin.ofNat p t1 * a) (ht0 : t0 < p) (ht1 : t1 < p) :
    (euclid p fuel r0 t0 r1 t1).1 = Nat.gcd r0 r1
      ∧ Fin.ofNat p (euclid p fuel r0 t0 r1 t1).1 = Fin.ofNat p (euclid p fuel r0 t0 r1 t1).2 * a
      ∧ (euclid p fuel r0 t0 r1 t1).2 < p := by
  induction fuel generalizing r0 t0 r1 t1 with
  | zero => omega
  | succ fuel ih =>
    rw [euclid]
    split
    case isTrue hzero => exact ⟨by simp [hzero], h0, ht0⟩
    case isFalse hpos =>
      have hrem : r0 % r1 < r1 := Nat.mod_lt _ (Nat.pos_of_ne_zero hpos)
      obtain ⟨hgcd, hfactor, hlt⟩ := ih (by omega) h1 (euclid_factor h0 h1) ht1 (Nat.mod_lt _ (Nat.pos_of_neZero p))
      refine ⟨?_, hfactor, hlt⟩
      rw [hgcd, Nat.gcd_comm r1, ← Nat.gcd_rec, Nat.gcd_comm]

/-- A factor that gives 1 modulo p leaves no common divisor. -/
theorem gcd_eq_one_of_mul {p a b : Nat} (h : a * b % p = 1 % p) : Nat.gcd p (a % p) = 1 := by
  have hdvd : Nat.gcd p (a % p) ∣ a := (Nat.dvd_mod_iff (Nat.gcd_dvd_left _ _)).mp (Nat.gcd_dvd_right _ _)
  have hone : Nat.gcd p (a % p) ∣ 1 % p := h ▸ (Nat.dvd_mod_iff (Nat.gcd_dvd_left _ _)).mpr (Nat.dvd_mul_right_of_dvd hdvd b)
  exact Nat.dvd_one.mp ((Nat.dvd_mod_iff (Nat.gcd_dvd_left _ _)).mp hone)

theorem modInv_spec {p : Nat} [NeZero p] (a : Nat) :
    (∀ b, modInv p a = some b → b < p ∧ Fin.ofNat p a * Fin.ofNat p b = 1)
      ∧ (modInv p a = none → ∀ b, a * b % p ≠ 1 % p) := by
  have hp : 0 < p := Nat.pos_of_neZero p
  have hfirst : Fin.ofNat p p = Fin.ofNat p 0 * Fin.ofNat p a := by rw [← ofNat_mul, Nat.zero_mul, Fin.ofNat_self]; rfl
  have hsecond : Fin.ofNat p (a % p) = Fin.ofNat p (1 % p) * Fin.ofNat p a := by
    rw [ofNat_mod, ofNat_mod, ← ofNat_mul, Nat.one_mul]
  have hfuel : a % p < p + 1 := Nat.lt_succ_of_lt (Nat.mod_lt _ hp)
  obtain ⟨hgcd, hfactor, hlt⟩ := euclid_spec (Fin.ofNat p a) hfuel hfirst hsecond hp (Nat.mod_lt _ hp)
  simp only [modInv]
  split
  case isTrue hone =>
    refine ⟨fun b hb => ?_, nofun⟩
    obtain rfl := Option.some.inj hb
    exact ⟨hlt, by rw [Fin.mul_comm, ← hfactor, hone]; rfl⟩
  case isFalse hnot => exact ⟨nofun, fun _ b hb => hnot (hgcd.trans (gcd_eq_one_of_mul hb))⟩

theorem primeRing_lawfulInv (p : Nat) [NeZero p] : (primeRing p).LawfulInv p := by
  have hF := primeRing_interp p
  refine ⟨fun {a b} h => ?_, fun {a b} h _ hmul => (modInv_spec a).2 h b hmul⟩
  obtain ⟨hlt, hprod⟩ := (modInv_spec a).1 b h
  refine ⟨primeRing_below.mpr hlt, hF.inj (hF.mul_below _ _) hF.one_below ?_⟩
  rw [hF.map_mul, hF.map_one, hprod]

/-! ## Commutative rings from their laws -/

/-- The laws of a commutative ring, of operations given as functions. -/
structure CommRingLaws {B : Type} (zero one : B) (add mul : B → B → B) (neg : B → B) : Prop where
  add_zero : ∀ x, add x zero = x
  add_comm : ∀ x y, add x y = add y x
  add_assoc : ∀ x y z, add (add x y) z = add x (add y z)
  neg_add : ∀ x, add (neg x) x = zero
  mul_one : ∀ x, mul x one = x
  mul_comm : ∀ x y, mul x y = mul y x
  mul_assoc : ∀ x y z, mul (mul x y) z = mul x (mul y z)
  mul_add : ∀ x y z, mul x (add y z) = add (mul x y) (mul x z)

namespace CommRingLaws

variable {B : Type} {zero one : B} {add mul : B → B → B} {neg : B → B} (h : CommRingLaws zero one add mul neg)
include h

theorem zero_add (x : B) : add zero x = x := (h.add_comm _ _).trans (h.add_zero x)

/-- An element has one negative. -/
theorem eq_neg {x y : B} (hsum : add y x = zero) : y = neg x := by
  rw [← h.add_zero y, ← h.neg_add x, h.add_comm (neg x), ← h.add_assoc, hsum, h.zero_add]

theorem neg_neg (x : B) : neg (neg x) = x := (h.eq_neg ((h.add_comm _ _).trans (h.neg_add x))).symm

theorem neg_zero : neg zero = zero := (h.eq_neg (h.add_zero zero)).symm

theorem mul_zero (x : B) : mul x zero = zero := by
  have hdouble : add (mul x zero) (mul x zero) = mul x zero := by rw [← h.mul_add, h.add_zero]
  calc mul x zero = add (add (neg (mul x zero)) (mul x zero)) (mul x zero) := by rw [h.neg_add, h.zero_add]
    _ = zero := by rw [h.add_assoc, hdouble, h.neg_add]

theorem zero_mul (x : B) : mul zero x = zero := (h.mul_comm _ _).trans (h.mul_zero x)

theorem add_mul (x y z : B) : mul (add x y) z = add (mul x z) (mul y z) := by
  rw [h.mul_comm, h.mul_add, h.mul_comm z x, h.mul_comm z y]

theorem neg_mul (x y : B) : mul (neg x) y = neg (mul x y) := h.eq_neg (by rw [← h.add_mul, h.neg_add, h.zero_mul])

end CommRingLaws

section Build

variable {B : Type} (zero one : B) (add mul : B → B → B) (neg : B → B)

/-- A natural number as an element. -/
def elementOfNat : Nat → B
  | 0 => zero
  | 1 => one
  | n + 2 => add (elementOfNat (n + 1)) one

/-- An integer as an element. -/
def elementOfInt : Int → B
  | .ofNat n => elementOfNat zero one add n
  | .negSucc n => neg (elementOfNat zero one add (n + 1))

/-- A power as a repeated product. -/
def elementPow (x : B) : Nat → B
  | 0 => one
  | n + 1 => mul (elementPow x n) x

variable {zero one add mul neg}

theorem CommRingLaws.elementOfInt_neg (h : CommRingLaws zero one add mul neg) (i : Int) :
    elementOfInt zero one add neg (-i) = neg (elementOfInt zero one add neg i) := by
  cases i with
  | ofNat n =>
    cases n with
    | zero => exact h.neg_zero.symm
    | succ n => rfl
  | negSucc n => exact (h.neg_neg _).symm

/-- The commutative ring of these operations. -/
@[reducible] def CommRingLaws.toCommRing (h : CommRingLaws zero one add mul neg) : Lean.Grind.CommRing B where
  add := add
  mul := mul
  neg := neg
  sub x y := add x (neg y)
  natCast := ⟨elementOfNat zero one add⟩
  ofNat n := ⟨elementOfNat zero one add n⟩
  intCast := ⟨elementOfInt zero one add neg⟩
  nsmul := ⟨fun n x => mul (elementOfNat zero one add n) x⟩
  zsmul := ⟨fun i x => mul (elementOfInt zero one add neg i) x⟩
  npow := ⟨elementPow one mul⟩
  add_zero := h.add_zero
  add_comm := h.add_comm
  add_assoc := h.add_assoc
  neg_add_cancel := h.neg_add
  sub_eq_add_neg _ _ := rfl
  mul_comm := h.mul_comm
  mul_assoc := h.mul_assoc
  mul_one := h.mul_one
  one_mul x := (h.mul_comm _ _).trans (h.mul_one x)
  left_distrib := h.mul_add
  right_distrib := h.add_mul
  zero_mul := h.zero_mul
  mul_zero := h.mul_zero
  pow_zero _ := rfl
  pow_succ _ _ := rfl
  ofNat_succ n := by
    cases n with
    | zero => exact (h.zero_add one).symm
    | succ n => rfl
  neg_zsmul i x := (congrArg (mul · x) (h.elementOfInt_neg i)).trans (h.neg_mul _ x)
  intCast_neg := h.elementOfInt_neg

end Build

/-! ## The rings of the extensions (R237) -/

/-- The quadratic extension of a ring, g^2 = ν: re + im g. -/
@[ext] structure QuadExt {A : Type} (ν : A) where
  re : A
  im : A

/-- The cubic extension of a ring, g^3 = ν: c0 + c1 g + c2 g^2. -/
@[ext] structure CubicExt {A : Type} (ν : A) where
  c0 : A
  c1 : A
  c2 : A

section Rings

variable {A : Type} [R : Lean.Grind.CommRing A]

/-- The sum in a quadratic extension. -/
def QuadExt.add {ν : A} (x y : QuadExt ν) : QuadExt ν := ⟨x.re + y.re, x.im + y.im⟩

/-- The product in a quadratic extension. -/
def QuadExt.mul {ν : A} (x y : QuadExt ν) : QuadExt ν := ⟨x.re * y.re + ν * (x.im * y.im), x.re * y.im + x.im * y.re⟩

/-- The negative in a quadratic extension. -/
def QuadExt.neg {ν : A} (x : QuadExt ν) : QuadExt ν := ⟨-x.re, -x.im⟩

/-- Each law is a polynomial identity in the components. -/
theorem quadExt_laws (ν : A) : CommRingLaws (⟨0, 0⟩ : QuadExt ν) ⟨1, 0⟩ QuadExt.add QuadExt.mul QuadExt.neg := by
  constructor <;> intros <;> ext <;> simp only [QuadExt.add, QuadExt.mul, QuadExt.neg] <;> grind

/-- The quadratic extension as a ring. -/
@[reducible] def quadCommRing (ν : A) : Lean.Grind.CommRing (QuadExt ν) := (quadExt_laws ν).toCommRing

/-- The sum in a cubic extension. -/
def CubicExt.add {ν : A} (x y : CubicExt ν) : CubicExt ν := ⟨x.c0 + y.c0, x.c1 + y.c1, x.c2 + y.c2⟩

/-- The product in a cubic extension. -/
def CubicExt.mul {ν : A} (x y : CubicExt ν) : CubicExt ν :=
  ⟨x.c0 * y.c0 + ν * (x.c1 * y.c2 + x.c2 * y.c1), x.c0 * y.c1 + x.c1 * y.c0 + ν * (x.c2 * y.c2),
    x.c0 * y.c2 + x.c1 * y.c1 + x.c2 * y.c0⟩

/-- The negative in a cubic extension. -/
def CubicExt.neg {ν : A} (x : CubicExt ν) : CubicExt ν := ⟨-x.c0, -x.c1, -x.c2⟩

/-- Each law is a polynomial identity in the components. -/
theorem cubicExt_laws (ν : A) : CommRingLaws (⟨0, 0, 0⟩ : CubicExt ν) ⟨1, 0, 0⟩ CubicExt.add CubicExt.mul CubicExt.neg := by
  constructor <;> intros <;> ext <;> simp only [CubicExt.add, CubicExt.mul, CubicExt.neg] <;> grind

/-- The cubic extension as a ring. -/
@[reducible] def cubicCommRing (ν : A) : Lean.Grind.CommRing (CubicExt ν) := (cubicExt_laws ν).toCommRing

end Rings

/-! ## The two extensions (R237) -/

section Extensions

variable {α A : Type} [R : Lean.Grind.CommRing A] {F : RingOps α} {p : Nat} {φ : α → A} {nr : α → α} {ν : A}

/-- The interpretation of a quadratic extension, g^2 = ν. -/
def quadMap (ν : A) (φ : α → A) (x : α × α) : QuadExt ν := ⟨φ x.1, φ x.2⟩

theorem quadRing_below {x : α × α} : (quadRing F nr).Below p x ↔ F.Below p x.1 ∧ F.Below p x.2 := by
  simp only [RingOps.Below, quadRing, List.mem_append, or_imp, forall_and]

theorem quadRing_interp (hF : F.Interp p φ) (hnr : ∀ x, φ (nr x) = ν * φ x) :
    (quadRing F nr).Interp p (R := quadCommRing ν) (quadMap ν φ) :=
  letI := quadCommRing ν
  { inj {x y} hx hy h := by
      obtain ⟨hx1, hx2⟩ := quadRing_below.mp hx
      obtain ⟨hy1, hy2⟩ := quadRing_below.mp hy
      exact Prod.ext (hF.inj hx1 hy1 (congrArg QuadExt.re h)) (hF.inj hx2 hy2 (congrArg QuadExt.im h))
    beq_iff x y := by simp [quadRing, hF.beq_iff, Prod.ext_iff]
    map_zero := QuadExt.ext hF.map_zero hF.map_zero
    map_one := QuadExt.ext hF.map_one hF.map_zero
    map_add x y := QuadExt.ext (hF.map_add ..) (hF.map_add ..)
    map_sub x y := QuadExt.ext ((hF.map_sub ..).trans (R.sub_eq_add_neg _ _)) ((hF.map_sub ..).trans (R.sub_eq_add_neg _ _))
    map_neg x := QuadExt.ext (hF.map_neg _) (hF.map_neg _)
    map_mul x y := by
      refine QuadExt.ext ((hF.map_add ..).trans ?_) ((hF.map_add ..).trans ?_)
      · rw [hF.map_mul, hnr, hF.map_mul]; rfl
      · rw [hF.map_mul, hF.map_mul]; rfl
    zero_below := quadRing_below.mpr ⟨hF.zero_below, hF.zero_below⟩
    one_below := quadRing_below.mpr ⟨hF.one_below, hF.zero_below⟩
    add_below _ _ := quadRing_below.mpr ⟨hF.add_below _ _, hF.add_below _ _⟩
    sub_below _ _ := quadRing_below.mpr ⟨hF.sub_below _ _, hF.sub_below _ _⟩
    neg_below _ := quadRing_below.mpr ⟨hF.neg_below _, hF.neg_below _⟩
    mul_below _ _ := quadRing_below.mpr ⟨hF.add_below _ _, hF.add_below _ _⟩
    scale_below _ _ := quadRing_below.mpr ⟨hF.scale_below _ _, hF.scale_below _ _⟩ }

/-- Multiplication by the generator of a quadratic extension: g (x0 + x1 g) = NR x1 + x0 g. -/
theorem quadMap_generator (hnr : ∀ x, φ (nr x) = ν * φ x) (x : α × α) :
    quadMap ν φ (nr x.2, x.1) = QuadExt.mul ⟨0, 1⟩ (quadMap ν φ x) := by
  ext <;> simp only [quadMap, QuadExt.mul, hnr] <;> grind

/-- The norm of a quadratic extension is multiplicative, so an element with an inverse has an invertible norm. -/
theorem quadRing_lawfulInv (hF : F.Interp p φ) (hinv : F.LawfulInv p) (hnr : ∀ x, φ (nr x) = ν * φ x) :
    (quadRing F nr).LawfulInv p := by
  have hnorm (x : α × α) : φ (F.sub (F.mul x.1 x.1) (nr (F.mul x.2 x.2))) = φ x.1 * φ x.1 - ν * (φ x.2 * φ x.2) := by
    rw [hF.map_sub, hF.map_mul, hnr, hF.map_mul]
  refine ⟨fun {x b} h => ?some, fun {x b} h hb hmul => ?none⟩
  case some =>
    simp only [quadRing] at h
    split at h
    case h_2 => cases h
    case h_1 n hn =>
      obtain rfl := Option.some.inj h
      have hunit : (φ x.1 * φ x.1 - ν * (φ x.2 * φ x.2)) * φ n = 1 := by
        rw [← hnorm, ← hF.map_mul, (hinv.some_spec hn).2, hF.map_one]
      refine ⟨quadRing_below.mpr ⟨hF.mul_below _ _, hF.neg_below _⟩, Prod.ext ?_ ?_⟩
      · refine hF.inj (hF.add_below _ _) hF.one_below ?_
        simp only [quadRing, hF.map_add, hF.map_mul, hF.map_neg, hF.map_one, hnr]
        grind
      · refine hF.inj (hF.add_below _ _) hF.zero_below ?_
        simp only [quadRing, hF.map_add, hF.map_mul, hF.map_neg, hF.map_zero]
        grind
  case none =>
    simp only [quadRing] at h
    split at h
    case h_1 => cases h
    case h_2 hn =>
      have hre : φ x.1 * φ b.1 + ν * (φ x.2 * φ b.2) = 1 := by
        rw [← hF.map_one, ← hF.map_mul, ← hF.map_mul, ← hnr, ← hF.map_add]
        exact congrArg (fun y => φ y.1) hmul
      have him : φ x.1 * φ b.2 + φ x.2 * φ b.1 = 0 := by
        rw [← hF.map_zero, ← hF.map_mul, ← hF.map_mul, ← hF.map_add]
        exact congrArg (fun y => φ y.2) hmul
      refine hinv.none_spec hn (hF.sub_below (F.mul b.1 b.1) (nr (F.mul b.2 b.2)))
        (hF.inj (hF.mul_below _ _) hF.one_below ?_)
      rw [hF.map_mul, hnorm, hnorm, hF.map_one]
      grind

/-- The interpretation of a cubic extension, g^3 = ν. -/
def cubicMap (ν : A) (φ : α → A) (x : α × α × α) : CubicExt ν := ⟨φ x.1, φ x.2.1, φ x.2.2⟩

theorem cubicRing_below {x : α × α × α} :
    (cubicRing F nr).Below p x ↔ F.Below p x.1 ∧ F.Below p x.2.1 ∧ F.Below p x.2.2 := by
  simp only [RingOps.Below, cubicRing, List.mem_append, or_imp, forall_and, and_assoc]

theorem cubicRing_interp (hF : F.Interp p φ) (hnr : ∀ x, φ (nr x) = ν * φ x) :
    (cubicRing F nr).Interp p (R := cubicCommRing ν) (cubicMap ν φ) :=
  letI := cubicCommRing ν
  { inj {x y} hx hy h := by
      obtain ⟨hx1, hx2, hx3⟩ := cubicRing_below.mp hx
      obtain ⟨hy1, hy2, hy3⟩ := cubicRing_below.mp hy
      exact Prod.ext (hF.inj hx1 hy1 (congrArg CubicExt.c0 h))
        (Prod.ext (hF.inj hx2 hy2 (congrArg CubicExt.c1 h)) (hF.inj hx3 hy3 (congrArg CubicExt.c2 h)))
    beq_iff x y := by simp [cubicRing, hF.beq_iff, Prod.ext_iff, and_assoc]
    map_zero := CubicExt.ext hF.map_zero hF.map_zero hF.map_zero
    map_one := CubicExt.ext hF.map_one hF.map_zero hF.map_zero
    map_add x y := CubicExt.ext (hF.map_add ..) (hF.map_add ..) (hF.map_add ..)
    map_sub x y := CubicExt.ext ((hF.map_sub ..).trans (R.sub_eq_add_neg _ _)) ((hF.map_sub ..).trans (R.sub_eq_add_neg _ _))
      ((hF.map_sub ..).trans (R.sub_eq_add_neg _ _))
    map_neg x := CubicExt.ext (hF.map_neg _) (hF.map_neg _) (hF.map_neg _)
    map_mul x y := by
      refine CubicExt.ext ((hF.map_add ..).trans ?_) ((hF.map_add ..).trans ?_) ((hF.map_add ..).trans ?_)
      · rw [hF.map_mul, hnr, hF.map_add, hF.map_mul, hF.map_mul]; rfl
      · rw [hF.map_add, hF.map_mul, hF.map_mul, hnr, hF.map_mul]; rfl
      · rw [hF.map_add, hF.map_mul, hF.map_mul, hF.map_mul]; rfl
    zero_below := cubicRing_below.mpr ⟨hF.zero_below, hF.zero_below, hF.zero_below⟩
    one_below := cubicRing_below.mpr ⟨hF.one_below, hF.zero_below, hF.zero_below⟩
    add_below _ _ := cubicRing_below.mpr ⟨hF.add_below _ _, hF.add_below _ _, hF.add_below _ _⟩
    sub_below _ _ := cubicRing_below.mpr ⟨hF.sub_below _ _, hF.sub_below _ _, hF.sub_below _ _⟩
    neg_below _ := cubicRing_below.mpr ⟨hF.neg_below _, hF.neg_below _, hF.neg_below _⟩
    mul_below _ _ := cubicRing_below.mpr ⟨hF.add_below _ _, hF.add_below _ _, hF.add_below _ _⟩
    scale_below _ _ := cubicRing_below.mpr ⟨hF.scale_below _ _, hF.scale_below _ _, hF.scale_below _ _⟩ }

/-- Multiplication by the generator of a cubic extension: g (x0 + x1 g + x2 g^2) = NR x2 + x0 g + x1 g^2. -/
theorem cubicMap_generator (hnr : ∀ x, φ (nr x) = ν * φ x) (x : α × α × α) :
    cubicMap ν φ (nr x.2.2, x.1, x.2.1) = CubicExt.mul ⟨0, 1, 0⟩ (cubicMap ν φ x) := by
  ext <;> simp only [cubicMap, CubicExt.mul, hnr] <;> grind

/-- The norm of a cubic extension. -/
def cubicNorm (ν : A) (φ : α → A) (x : α × α × α) : A :=
  φ x.1 ^ 3 + ν * φ x.2.1 ^ 3 + ν ^ 2 * φ x.2.2 ^ 3 - 3 * ν * φ x.1 * φ x.2.1 * φ x.2.2

theorem cubicNorm_mul (hF : F.Interp p φ) (hnr : ∀ x, φ (nr x) = ν * φ x) (x y : α × α × α) :
    cubicNorm ν φ ((cubicRing F nr).mul x y) = cubicNorm ν φ x * cubicNorm ν φ y := by
  simp only [cubicNorm, cubicRing, hF.map_add, hF.map_mul, hnr]
  grind

/-- The element of the child ring whose inverse `cubicRing` asks for: its norm. -/
def cubicNormElt (F : RingOps α) (nr : α → α) (x : α × α × α) : α :=
  F.add (F.mul x.1 (F.sub (F.mul x.1 x.1) (nr (F.mul x.2.1 x.2.2))))
    (nr (F.add (F.mul x.2.2 (F.sub (nr (F.mul x.2.2 x.2.2)) (F.mul x.1 x.2.1)))
      (F.mul x.2.1 (F.sub (F.mul x.2.1 x.2.1) (F.mul x.1 x.2.2)))))

theorem map_cubicNormElt (hF : F.Interp p φ) (hnr : ∀ x, φ (nr x) = ν * φ x) (x : α × α × α) :
    φ (cubicNormElt F nr x) = cubicNorm ν φ x := by
  simp only [cubicNormElt, cubicNorm, hF.map_add, hF.map_sub, hF.map_mul, hnr]
  grind

theorem cubicRing_inv (F : RingOps α) (nr : α → α) (x : α × α × α) :
    (cubicRing F nr).inv x = (F.inv (cubicNormElt F nr x)).map fun n =>
      (F.mul (F.sub (F.mul x.1 x.1) (nr (F.mul x.2.1 x.2.2))) n,
        F.mul (F.sub (nr (F.mul x.2.2 x.2.2)) (F.mul x.1 x.2.1)) n,
        F.mul (F.sub (F.mul x.2.1 x.2.1) (F.mul x.1 x.2.2)) n) := by
  simp only [cubicRing, cubicNormElt]
  split <;> simp [*]

theorem cubicRing_lawfulInv (hF : F.Interp p φ) (hinv : F.LawfulInv p) (hnr : ∀ x, φ (nr x) = ν * φ x) :
    (cubicRing F nr).LawfulInv p := by
  refine ⟨fun {x b} h => ?some, fun {x b} h hb hmul => ?none⟩
  case some =>
    rw [cubicRing_inv, Option.map_eq_some_iff] at h
    obtain ⟨n, hn, rfl⟩ := h
    have hunit : cubicNorm ν φ x * φ n = 1 := by
      rw [← map_cubicNormElt hF hnr, ← hF.map_mul, (hinv.some_spec hn).2, hF.map_one]
    refine ⟨cubicRing_below.mpr ⟨hF.mul_below _ _, hF.mul_below _ _, hF.mul_below _ _⟩,
      Prod.ext ?_ (Prod.ext ?_ ?_)⟩
    · refine hF.inj (hF.add_below _ _) hF.one_below ?_
      simp only [cubicRing, hF.map_add, hF.map_sub, hF.map_mul, hF.map_one, hnr]
      unfold cubicNorm at hunit
      grind
    · refine hF.inj (hF.add_below _ _) hF.zero_below ?_
      simp only [cubicRing, hF.map_add, hF.map_sub, hF.map_mul, hF.map_zero, hnr]
      grind
    · refine hF.inj (hF.add_below _ _) hF.zero_below ?_
      simp only [cubicRing, hF.map_add, hF.map_sub, hF.map_mul, hF.map_zero, hnr]
      grind
  case none =>
    rw [cubicRing_inv, Option.map_eq_none_iff] at h
    refine hinv.none_spec h (hF.add_below _ _) (b := cubicNormElt F nr b) (hF.inj (hF.mul_below _ _) hF.one_below ?_)
    rw [hF.map_mul, map_cubicNormElt hF hnr, map_cubicNormElt hF hnr, ← cubicNorm_mul hF hnr, hmul, hF.map_one]
    simp only [cubicNorm, cubicRing, hF.map_one, hF.map_zero]
    grind

end Extensions

/-! ## The levels -/

section Levels

variable {p : Nat} [NeZero p] (kv : Nat → Nat)

theorem ofNat_kst_mul (k x : Nat) : Fin.ofNat p (kv k * x % p) = Fin.ofNat p (kv k) * Fin.ofNat p x :=
  (ofNat_mod p _).trans (ofNat_mul p _ _)

/-- The ring in which F2 is interpreted. -/
@[reducible] def commRing2 (p : Nat) [NeZero p] (kv : Nat → Nat) : Lean.Grind.CommRing (QuadExt (Fin.ofNat p (kv 0))) :=
  quadCommRing _

/-- The ring in which F3 is interpreted. -/
@[reducible] def commRing3 (p : Nat) [NeZero p] (kv : Nat → Nat) : Lean.Grind.CommRing (CubicExt (Fin.ofNat p (kv 1))) :=
  cubicCommRing _

/-- The interpretation of F2. -/
def map2 (p : Nat) [NeZero p] (kv : Nat → Nat) : E2 → QuadExt (Fin.ofNat p (kv 0)) := quadMap _ (Fin.ofNat p)

/-- The interpretation of F3. -/
def map3 (p : Nat) [NeZero p] (kv : Nat → Nat) : E3 → CubicExt (Fin.ofNat p (kv 1)) := cubicMap _ (Fin.ofNat p)

theorem interp2 : (ring2 p kv).Interp p (R := commRing2 p kv) (map2 p kv) :=
  quadRing_interp (primeRing_interp p) (ofNat_kst_mul kv 0)

theorem interp3 : (ring3 p kv).Interp p (R := commRing3 p kv) (map3 p kv) :=
  cubicRing_interp (primeRing_interp p) (ofNat_kst_mul kv 1)

/-- The non-residue of F6 is the element xi of F2. -/
theorem map2_mulXi (x : E2) : map2 p kv (mulXi p kv x) = QuadExt.mul (map2 p kv (kv 2, kv 3)) (map2 p kv x) :=
  RingOps.Interp.map_mul (R := commRing2 p kv) (interp2 kv) _ _

/-- The ring in which F6 is interpreted. -/
@[reducible] def commRing6 (p : Nat) [NeZero p] (kv : Nat → Nat) : Lean.Grind.CommRing (CubicExt (map2 p kv (kv 2, kv 3))) :=
  cubicCommRing (R := commRing2 p kv) _

/-- The interpretation of F6. -/
def map6 (p : Nat) [NeZero p] (kv : Nat → Nat) : E6 → CubicExt (map2 p kv (kv 2, kv 3)) := cubicMap _ (map2 p kv)

theorem interp6 : (ring6 p kv).Interp p (R := commRing6 p kv) (map6 p kv) :=
  cubicRing_interp (R := commRing2 p kv) (interp2 kv) (map2_mulXi kv)

/-- The non-residues of F4, F6B and F12 are the generators of F2, F3 and F6. -/
theorem map2_generator (x : E2) : map2 p kv (kv 0 * x.2 % p, x.1) = QuadExt.mul ⟨0, 1⟩ (map2 p kv x) :=
  quadMap_generator (φ := Fin.ofNat p) (nr := fun x => kv 0 * x % p) (ofNat_kst_mul kv 0) x

theorem map3_generator (x : E3) : map3 p kv (kv 1 * x.2.2 % p, x.1, x.2.1) = CubicExt.mul ⟨0, 1, 0⟩ (map3 p kv x) :=
  cubicMap_generator (φ := Fin.ofNat p) (nr := fun x => kv 1 * x % p) (ofNat_kst_mul kv 1) x

theorem map6_generator (x : E6) :
    letI := commRing2 p kv
    map6 p kv (mulXi p kv x.2.2, x.1, x.2.1) = CubicExt.mul ⟨0, 1, 0⟩ (map6 p kv x) :=
  cubicMap_generator (R := commRing2 p kv) (map2_mulXi kv) x

/-- Every ring of the tower has an interpretation, for every modulus and all constants. -/
theorem exists_ringOf_interp {p : Nat} (kv : Nat → Nat) (hp : 0 < p) (ft : FieldType) :
    ∃ (A : Type) (_ : Lean.Grind.CommRing A) (φ : Elt ft → A), (ringOf p kv ft).Interp p φ := by
  have : NeZero p := ⟨Nat.ne_of_gt hp⟩
  cases ft
  case F1 => exact ⟨_, _, _, primeRing_interp p⟩
  case F2 => exact ⟨_, _, _, interp2 kv⟩
  case F3 => exact ⟨_, _, _, interp3 kv⟩
  case F4 => exact ⟨_, _, _, quadRing_interp (R := commRing2 p kv) (interp2 kv) (map2_generator kv)⟩
  case F6 => exact ⟨_, _, _, interp6 kv⟩
  case F6B => exact ⟨_, _, _, quadRing_interp (R := commRing3 p kv) (interp3 kv) (map3_generator kv)⟩
  case F12 => exact ⟨_, _, _, quadRing_interp (R := commRing6 p kv) (interp6 kv) (map6_generator kv)⟩

theorem ring2_lawfulInv : (ring2 p kv).LawfulInv p :=
  quadRing_lawfulInv (primeRing_interp p) (primeRing_lawfulInv p) (ofNat_kst_mul kv 0)

theorem ring3_lawfulInv : (ring3 p kv).LawfulInv p :=
  cubicRing_lawfulInv (primeRing_interp p) (primeRing_lawfulInv p) (ofNat_kst_mul kv 1)

theorem ring6_lawfulInv : (ring6 p kv).LawfulInv p :=
  cubicRing_lawfulInv (R := commRing2 p kv) (interp2 kv) (ring2_lawfulInv kv) (map2_mulXi kv)

/-- Every ring of the tower finds the inverses there are. -/
theorem ringOf_lawfulInv {p : Nat} (kv : Nat → Nat) (hp : 0 < p) (ft : FieldType) : (ringOf p kv ft).LawfulInv p := by
  have : NeZero p := ⟨Nat.ne_of_gt hp⟩
  cases ft
  case F1 => exact primeRing_lawfulInv p
  case F2 => exact ring2_lawfulInv kv
  case F3 => exact ring3_lawfulInv kv
  case F4 => exact quadRing_lawfulInv (R := commRing2 p kv) (interp2 kv) (ring2_lawfulInv kv) (map2_generator kv)
  case F6 => exact ring6_lawfulInv kv
  case F6B => exact quadRing_lawfulInv (R := commRing3 p kv) (interp3 kv) (ring3_lawfulInv kv) (map3_generator kv)
  case F12 => exact quadRing_lawfulInv (R := commRing6 p kv) (interp6 kv) (ring6_lawfulInv kv) (map6_generator kv)

end Levels

/-! ## Inverses and powers in an interpreted ring -/

section Interpreted

variable {α A : Type} [R : Lean.Grind.CommRing A] {F : RingOps α} {p : Nat} {φ : α → A}

/-- An element has at most one inverse in canonical form, and it is the one computed (R256). -/
theorem RingOps.Interp.inv_eq_some (hF : F.Interp p φ) (hinv : F.LawfulInv p) {x b : α} (hb : F.Below p b)
    (hmul : F.mul x b = F.one) : F.inv x = some b := by
  cases hx : F.inv x with
  | none => exact absurd hmul (hinv.none_spec hx hb)
  | some b' =>
    obtain ⟨hb', hmul'⟩ := hinv.some_spec hx
    have hone (c : α) (h : F.mul x c = F.one) : φ x * φ c = 1 := by rw [← hF.map_mul, h, hF.map_one]
    refine congrArg some (hF.inj hb' hb ?_)
    have h1 := hone b hmul
    have h2 := hone b' hmul'
    grind

theorem RingOps.LawfulInv.inv_eq_none (hinv : F.LawfulInv p) {x : α} (h : ∀ b, F.Below p b → F.mul x b ≠ F.one) :
    F.inv x = none := by
  cases hx : F.inv x with
  | none => rfl
  | some b =>
    obtain ⟨hb, hmul⟩ := hinv.some_spec hx
    exact absurd hmul (h b hb)

theorem RingOps.Interp.map_npow (hF : F.Interp p φ) (x : α) (n : Nat) : φ (F.npow x n) = φ x ^ n := by
  induction n with
  | zero => rw [RingOps.npow, hF.map_one, R.pow_zero]
  | succ n ih => rw [RingOps.npow, hF.map_mul, ih, R.pow_succ]

theorem RingOps.Interp.npow_below (hF : F.Interp p φ) (x : α) (n : Nat) : F.Below p (F.npow x n) := by
  cases n with
  | zero => exact hF.one_below
  | succ n => exact hF.mul_below _ _

/-- The power of a square. -/
theorem mul_self_pow (a : A) (n : Nat) : (a * a) ^ n = a ^ (n + n) := by
  rw [Lean.Grind.CommSemiring.mul_pow, Lean.Grind.Semiring.pow_add]

/-- The bit scan squares for each bit left, and multiplies by x where it is set (R264). -/
theorem RingOps.Interp.map_scan (hF : F.Interp p φ) (x r : α) (e n : Nat) :
    φ (F.scan x e n r) = φ r ^ 2 ^ n * φ x ^ (e % 2 ^ n) := by
  induction n generalizing r with
  | zero => rw [RingOps.scan, Nat.pow_zero, Nat.mod_one, R.pow_zero]; grind
  | succ n ih =>
    have hbits : e % 2 ^ (n + 1) = e % 2 ^ n + 2 ^ n * (e.testBit n).toNat := by
      rw [Nat.pow_succ, Nat.mod_mul, Nat.testBit_eq_decide_div_mod_eq]
      obtain h | h := Nat.mod_two_eq_zero_or_one (e / 2 ^ n) <;> simp [h]
    have hdouble : 2 ^ (n + 1) = 2 ^ n + 2 ^ n := Nat.two_pow_succ n
    rw [RingOps.scan, ih, hbits, hdouble, ← mul_self_pow, ← hF.map_mul, Lean.Grind.Semiring.pow_add]
    cases e.testBit n with
    | false => simp [R.pow_zero, R.mul_one]
    | true =>
      simp only [if_true, hF.map_mul, Bool.toNat_true, Nat.mul_one, Lean.Grind.CommSemiring.mul_pow]
      grind

theorem RingOps.Interp.scan_below (hF : F.Interp p φ) {x r : α} (e n : Nat) (hr : F.Below p r) :
    F.Below p (F.scan x e n r) := by
  induction n generalizing r with
  | zero => exact hr
  | succ n ih =>
    rw [RingOps.scan]
    split
    · exact ih (hF.mul_below _ _)
    · exact ih (hF.mul_below _ _)

theorem lt_two_pow_bitlen (e : Nat) : e < 2 ^ bitlen e := by
  unfold bitlen
  split
  case isTrue hzero => simp [hzero]
  case isFalse => exact Nat.lt_log2_self

/-- The bit scan computes the repeated product (R264). -/
theorem RingOps.Interp.pow_eq_npow (hF : F.Interp p φ) (x : α) (e : Nat) : F.pow x e = F.npow x e := by
  refine hF.inj (hF.scan_below e _ hF.one_below) (hF.npow_below x e) ?_
  rw [RingOps.pow, hF.map_scan, hF.map_npow, hF.map_one, Lean.Grind.Semiring.one_pow, R.one_mul, Nat.mod_eq_of_lt (lt_two_pow_bitlen e)]

end Interpreted

end Sys2Proof.Machine
end

section
/-! PROOFS. Elements in registers (00_scope R18, R19) and the results of the field instructions (41_field) and of the cyclotomic ones
(42_cyclotomic). -/

namespace Sys2Proof.Machine

/-! ## Elements and their coefficients (R18) -/

theorem ringOf_coeffs_ofCoeffs (p : Nat) (kv : Nat → Nat) (ft : FieldType) (f : Nat → Nat) :
    (ringOf p kv ft).coeffs ((ringOf p kv ft).ofCoeffs ((List.range (degree ft)).map f)) = (List.range (degree ft)).map f := by
  cases ft <;> rfl

theorem ringOf_ofCoeffs_coeffs (p : Nat) (kv : Nat → Nat) (ft : FieldType) (x : Elt ft) :
    (ringOf p kv ft).ofCoeffs ((ringOf p kv ft).coeffs x) = x := by
  cases ft <;> rfl

/-- Sums, differences and negatives are those of the coefficients (R237). -/
theorem ringOf_coeffs_add (p : Nat) (kv : Nat → Nat) (ft : FieldType) (f g : Nat → Nat) :
    (ringOf p kv ft).coeffs ((ringOf p kv ft).add ((ringOf p kv ft).ofCoeffs ((List.range (degree ft)).map f))
        ((ringOf p kv ft).ofCoeffs ((List.range (degree ft)).map g)))
      = (List.range (degree ft)).map fun j => (f j + g j) % p := by
  cases ft <;> rfl

theorem ringOf_coeffs_sub (p : Nat) (kv : Nat → Nat) (ft : FieldType) (f g : Nat → Nat) :
    (ringOf p kv ft).coeffs ((ringOf p kv ft).sub ((ringOf p kv ft).ofCoeffs ((List.range (degree ft)).map f))
        ((ringOf p kv ft).ofCoeffs ((List.range (degree ft)).map g)))
      = (List.range (degree ft)).map fun j => (f j + (p - g j % p)) % p := by
  cases ft <;> rfl

theorem ringOf_coeffs_neg (p : Nat) (kv : Nat → Nat) (ft : FieldType) (f : Nat → Nat) :
    (ringOf p kv ft).coeffs ((ringOf p kv ft).neg ((ringOf p kv ft).ofCoeffs ((List.range (degree ft)).map f)))
      = (List.range (degree ft)).map fun j => (p - f j % p) % p := by
  cases ft <;> rfl

/-- Conjugation keeps the lower half of the coefficients and negates the upper half (R262). -/
theorem coeffs_conj (p : Nat) (kv : Nat → Nat) {ft : FieldType} (hft : ft.isQuadratic = true) (f : Nat → Nat) :
    (ringOf p kv ft).coeffs (conj p kv ft ((ringOf p kv ft).ofCoeffs ((List.range (degree ft)).map f)))
      = (List.range (degree ft)).map fun j => if j < degree ft / 2 then f j else (p - f j % p) % p := by
  cases ft
  case F2 | F4 | F6B | F12 => rfl
  all_goals cases hft

theorem ringOf_one_ne_zero {p : Nat} (hp : 1 < p) (kv : Nat → Nat) (ft : FieldType) :
    (ringOf p kv ft).one ≠ (ringOf p kv ft).zero := by
  intro heq
  have hhead : 1 % p = 0 := by
    have hcoeffs := congrArg (fun x => ((ringOf p kv ft).coeffs x).headD 0) heq
    rw [ringOf_coeffs_one] at hcoeffs
    exact hcoeffs.trans (by cases ft <;> rfl)
  rw [Nat.mod_eq_of_lt hp] at hhead
  cases hhead

/-- A word of a group that is checked for reduction is below p. -/
theorem State.Ready.w_lt {s : State} {dsts srcs : List (Nat × Nat)} {ks : List Nat} (h : s.Ready dsts srcs ks) {i n j : Nat}
    (hgroup : (i, n) ∈ srcs) (hj : j < n) : s.w (i + j) < s.p :=
  h.2.2.1 (i, n) hgroup j hj

/-- A listed KST word is below p. -/
theorem State.Ready.kw_lt {s : State} {dsts srcs : List (Nat × Nat)} {ks : List Nat} (h : s.Ready dsts srcs ks) {k : Nat}
    (hk : k ∈ ks) : s.kw k < s.p :=
  h.2.2.2 k hk

/-! ### In a configured state -/

section Configured

variable {s : State} (h : s.Configured)
include h

theorem State.Configured.exists_interp (ft : FieldType) :
    ∃ (A : Type) (_ : Lean.Grind.CommRing A) (φ : Elt ft → A), (s.ring ft).Interp s.p φ := exists_ringOf_interp s.kv h.p_pos ft

theorem State.Configured.lawfulInv (ft : FieldType) : (s.ring ft).LawfulInv s.p := ringOf_lawfulInv s.kv h.p_pos ft

theorem State.Configured.beq_iff (ft : FieldType) (x y : Elt ft) : (s.ring ft).beq x y = true ↔ x = y := by
  obtain ⟨A, _, φ, hF⟩ := h.exists_interp ft
  exact hF.beq_iff x y

theorem State.Configured.pow_eq_npow (ft : FieldType) (x : Elt ft) (e : Nat) : (s.ring ft).pow x e = (s.ring ft).npow x e := by
  obtain ⟨A, _, φ, hF⟩ := h.exists_interp ft
  exact hF.pow_eq_npow x e

theorem State.Configured.inv_eq_some {ft : FieldType} {x b : Elt ft} (hb : Canonical s.p s.kv ft b)
    (hmul : (s.ring ft).mul x b = (s.ring ft).one) : (s.ring ft).inv x = some b := by
  obtain ⟨A, _, φ, hF⟩ := h.exists_interp ft
  exact hF.inv_eq_some (h.lawfulInv ft) hb hmul

theorem State.Configured.inv_eq_none {ft : FieldType} {x : Elt ft}
    (hx : ∀ b : Elt ft, Canonical s.p s.kv ft b → (s.ring ft).mul x b ≠ (s.ring ft).one) : (s.ring ft).inv x = none :=
  (h.lawfulInv ft).inv_eq_none hx

/-- The elements in registers are in canonical form. -/
theorem State.Configured.elt_canonical (ft : FieldType) (i : Nat) : Canonical s.p s.kv ft (s.elt ft i) := by
  intro c hc
  rw [State.elt, State.ring, ringOf_coeffs_ofCoeffs, List.mem_map] at hc
  obtain ⟨j, -, rfl⟩ := hc
  exact h.val_lt _

/-- The word of a product of residues is the Montgomery product of their words (R234). -/
theorem State.Configured.phi_val_mul {a b : Nat} (ha : a < s.p) (hb : b < s.p) :
    s.phi (s.val a * s.val b % s.p) = s.mont a b := by
  rw [State.mont, h.redc_eq_val (s.mul_lt_p_mul_radix ha hb), ← s.val_val_mul, h.phi_val, Nat.mod_eq_of_lt (h.val_lt _)]

theorem State.Configured.phi_val_of_lt {a : Nat} (ha : a < s.p) : s.phi (s.val a) = a := by
  rw [h.phi_val, Nat.mod_eq_of_lt ha]

/-- The word of a sum, a difference or a negative of residues is that of their words (R235). -/
theorem State.Configured.phi_val_add {a b : Nat} (ha : a < s.p) (hb : b < s.p) :
    s.phi ((s.val a + s.val b) % s.p) = (a + b) % s.p := by
  rw [s.phi_add, h.phi_val_of_lt ha, h.phi_val_of_lt hb]

theorem State.Configured.phi_val_sub {a b : Nat} (ha : a < s.p) (hb : b < s.p) :
    s.phi ((s.val a + (s.p - s.val b % s.p)) % s.p) = (a + s.p - b) % s.p := by
  have hlt : s.val b < s.p := h.val_lt b
  rw [Nat.mod_eq_of_lt hlt, ← Nat.add_sub_assoc (Nat.le_of_lt hlt), h.phi_sub _ hlt, h.phi_val_of_lt ha, h.phi_val_of_lt hb]

theorem State.Configured.phi_val_neg {a : Nat} (ha : a < s.p) : s.phi ((s.p - s.val a % s.p) % s.p) = (s.p - a) % s.p := by
  rw [Nat.mod_eq_of_lt (h.val_lt a), h.phi_neg (h.val_lt a), h.phi_val_of_lt ha]

end Configured

/-- Put_ft writes the Montgomery words of the coefficients. -/
theorem State.putElt_of_coeffs {s : State} {ft : FieldType} {i : Nat} {x : Elt ft} {f : Nat → Nat}
    (hx : (s.ring ft).coeffs x = (List.range (degree ft)).map f) {g : Nat → Nat}
    (hfg : ∀ j, j < degree ft → s.phi (f j) = g j) :
    s.putElt ft i x = s.setGroup i ((List.range (degree ft)).map fun j => wordOf (g j)) := by
  rw [State.putElt, State.putCoeffs, hx, List.map_map]
  refine congrArg (s.setGroup i) (List.map_congr_left fun j hj => ?_)
  rw [Function.comp_apply, hfg j (List.mem_range.mp hj)]

/-! ## Field instructions -/

/-- An execution that fails takes its fault (R505). -/
theorem exec_failed {i : Instr} {s : State} {run : State → Except FaultInfo Result} {f : FaultInfo}
    (hexec : exec i s = perform i s run) (hwf : i.wellFormed = true) (hchecks : s.commonChecks (operandsOf i) = none)
    (hrun : run s = .error f) : exec i s = .next (s.takeFault f.1 f.2 (encode i)) :=
  hexec.trans (perform_error hwf hchecks hrun)

theorem State.Ready.commonChecks_two {s : State} {n : Nat} {rd rs1 : Reg} {ks : List Nat}
    (h : s.Ready [(rd.val, n)] [(rs1.val, n)] ks) : s.commonChecks (.two n rd rs1 ks) = none := by
  refine State.Ready.commonChecks_eq_none h ?_ ?_ rfl rfl rfl <;>
    simp [Operands.two, Operands.groups, groupAt, Role.checked]

/-- Settles O19: the words of sums, differences and negatives of residues. -/
theorem faddFsubFnegResults : Obligations.FaddFsubFnegResults := by
  unfold Obligations.FaddFsubFnegResults
  refine fun ft rd rs1 rs2 s => ⟨fun hready => ⟨?add, ?sub⟩, fun hready => ?neg⟩
  case add =>
    rw [← State.putElt_of_coeffs (ringOf_coeffs_add s.p s.kv ft _ _) fun j hj =>
      hready.1.phi_val_add (hready.w_lt (by simp) hj) (hready.w_lt (by simp) hj)]
    exact exec_retired rfl rfl hready.commonChecks_three (by rfl) (by simp)
  case sub =>
    rw [← State.putElt_of_coeffs (ringOf_coeffs_sub s.p s.kv ft _ _) fun j hj =>
      hready.1.phi_val_sub (hready.w_lt (by simp) hj) (hready.w_lt (by simp) hj)]
    exact exec_retired rfl rfl hready.commonChecks_three (by rfl) (by simp)
  case neg =>
    rw [← State.putElt_of_coeffs (ringOf_coeffs_neg s.p s.kv ft _) fun j hj =>
      hready.1.phi_val_neg (hready.w_lt (by simp) hj)]
    exact exec_retired rfl rfl hready.commonChecks_two (by rfl) (by simp)

/-- FMUL writes the ring product, on F1 by the Montgomery multiplier (R243). -/
theorem exec_fmul {ft : FieldType} {rd rs1 rs2 : Reg} {s : State}
    (hready : s.Ready [(rd.val, degree ft)] [(rs1.val, degree ft), (rs2.val, degree ft)] (nrSet ft)) :
    exec (.fmul ft rd rs1 rs2) s
      = .next ((s.putElt ft rd.val ((s.ring ft).mul (s.elt ft rs1) (s.elt ft rs2))).retired (s.pc + 1)) := by
  cases ft
  case F1 =>
    have hrs1 : s.w rs1 < s.p := hready.w_lt (n := 1) (j := 0) (by simp [degree]) (by decide)
    have hrs2 : s.w rs2 < s.p := hready.w_lt (n := 1) (j := 0) (by simp [degree]) (by decide)
    rw [exec_fmul_F1 hready, ← hready.1.phi_val_mul hrs1 hrs2]
    rfl
  all_goals exact exec_retired rfl rfl hready.commonChecks_three (by rfl) (by simp)

theorem exec_fsqr {ft : FieldType} {rd rs1 : Reg} {s : State}
    (hready : s.Ready [(rd.val, degree ft)] [(rs1.val, degree ft)] (nrSet ft)) :
    exec (.fsqr ft rd rs1) s
      = .next ((s.putElt ft rd.val ((s.ring ft).mul (s.elt ft rs1) (s.elt ft rs1))).retired (s.pc + 1)) :=
  exec_retired rfl rfl hready.commonChecks_two (by rfl) (by simp)

/-- A group may be named more than once. -/
theorem State.Ready.of_subset {s : State} {dsts srcs srcs' : List (Nat × Nat)} {ks : List Nat} (h : s.Ready dsts srcs ks)
    (hsub : ∀ g ∈ srcs', g ∈ srcs) : s.Ready dsts srcs' ks := by
  obtain ⟨hcfg, hfits, hreduced, hkst⟩ := h
  refine ⟨hcfg, fun g hg => hfits g ?_, fun g hg => hreduced g (hsub g hg), hkst⟩
  obtain hd | hs := List.mem_append.mp hg
  · exact List.mem_append_left _ hd
  · exact List.mem_append_right _ (hsub g hs)

/-- Settles O22: `exec_fmul` and `exec_fsqr`. -/
theorem fmulFsqrResults : Obligations.FmulFsqrResults := by
  unfold Obligations.FmulFsqrResults
  refine fun ft rd rs1 rs2 s => ⟨exec_fmul, fun hready => ⟨exec_fsqr hready, ?_⟩⟩
  have htwice : s.Ready [(rd.val, degree ft)] [(rs1.val, degree ft), (rs1.val, degree ft)] (nrSet ft) :=
    hready.of_subset (by simp)
  rw [exec_fsqr hready, exec_fmul htwice]

/-- Settles O23: the ring computes the one inverse there is. -/
theorem finvResult : Obligations.FinvResult := by
  unfold Obligations.FinvResult
  refine fun ft rd rs1 s hready => ⟨fun b hb hmul => ?some, fun hnone => ?none⟩
  case some =>
    have hinv : (s.ring ft).inv (s.elt ft rs1) = some b := hready.1.inv_eq_some hb hmul
    refine exec_retired (by rw [exec, execFinv]) rfl hready.commonChecks_two ?_ (by simp)
    simp only [hinv]
  case none =>
    have hinv : (s.ring ft).inv (s.elt ft rs1) = none := hready.1.inv_eq_none hnone
    refine exec_failed (f := (.notInvertible, rs1.val)) (by rw [exec, execFinv]) rfl hready.commonChecks_two ?_
    simp only [hinv]

/-- Settles O24: the formula, and on F1, F2 and F3 its words. -/
theorem ffrobResult : Obligations.FfrobResult := by
  unfold Obligations.FfrobResult
  intro rd rs1 k s
  have hformula (ft : FieldType) (hready : s.Ready [(rd.val, degree ft)] [(rs1.val, degree ft)] (frobSet ft k.val)) :
      exec (.ffrob ft rd rs1 k) s
        = .next ((s.putElt ft rd.val (frob s.p s.kv ft (s.elt ft rs1) k.val)).retired (s.pc + 1)) :=
    exec_retired rfl rfl hready.commonChecks_two (by rfl) (by simp)
  refine ⟨hformula, fun hready => ?F1, fun hready => ?F2, fun hready => ?F3⟩
  case F1 =>
    have h0 : s.w rs1 < s.p := hready.w_lt (n := 1) (j := 0) (by simp) (by decide)
    rw [hformula .F1 hready, ← hready.1.phi_val_of_lt h0]
    rfl
  case F2 =>
    have h0 : s.w rs1 < s.p := hready.w_lt (n := 2) (j := 0) (by simp) (by decide)
    have h1 : s.w (rs1.val + 1) < s.p := hready.w_lt (n := 2) (by simp) (by decide)
    rw [hformula .F2 hready, ← hready.1.phi_val_mul (hready.kw_lt (by simp)) h1]
    conv => rhs; rw [← hready.1.phi_val_of_lt h0]
    rfl
  case F3 =>
    have h0 : s.w rs1 < s.p := hready.w_lt (n := 3) (j := 0) (by simp) (by decide)
    have h1 : s.w (rs1.val + 1) < s.p := hready.w_lt (n := 3) (by simp) (by decide)
    have h2 : s.w (rs1.val + 2) < s.p := hready.w_lt (n := 3) (by simp) (by decide)
    rw [hformula .F3 hready, ← hready.1.phi_val_mul (hready.kw_lt (by simp)) h1,
      ← hready.1.phi_val_mul (hready.kw_lt (by simp)) h2]
    conv => rhs; rw [← hready.1.phi_val_of_lt h0]
    rfl

/-- Settles O25: the words of a negative residue, in the upper half. -/
theorem fconjResult : Obligations.FconjResult := by
  unfold Obligations.FconjResult
  intro ft rd rs1 s hft hready
  have hword {j : Nat} (hj : j < degree ft) : s.w (rs1.val + j) < s.p := hready.w_lt (by simp) hj
  have hwords (j : Nat) (hj : j < degree ft) :
      s.phi (if j < degree ft / 2 then s.val (s.w (rs1.val + j)) else (s.p - s.val (s.w (rs1.val + j)) % s.p) % s.p)
        = if j < degree ft / 2 then s.w (rs1.val + j) else (s.p - s.w (rs1.val + j)) % s.p := by
    split
    · exact hready.1.phi_val_of_lt (hword hj)
    · exact hready.1.phi_val_neg (hword hj)
  rw [← State.putElt_of_coeffs (coeffs_conj s.p s.kv hft _) hwords]
  exact exec_retired rfl hft hready.commonChecks_two (by rfl) (by simp)

/-! ## Powers and conversions (R264, R270, R271) -/

/-- The exponent register of FPOW and FCEXP is raw, and always in the file. -/
theorem State.Ready.commonChecks_power {s : State} {n : Nat} {rd rs1 rs2 : Reg} {ks : List Nat}
    (h : s.Ready [(rd.val, n)] [(rs1.val, n)] ks) :
    s.commonChecks { Operands.two n rd rs1 ks with rs2 := groupAt rs2 1 .raw } = none := by
  obtain ⟨hcfg, hfits, hreduced, hkst⟩ := h
  have hready : s.Ready [(rd.val, n), (rs2.val, 1)] [(rs1.val, n)] ks := by
    refine ⟨hcfg, ?_, hreduced, hkst⟩
    simpa [fits_one] using hfits
  refine hready.commonChecks_eq_none ?_ ?_ rfl rfl rfl <;>
    simp [Operands.two, Operands.groups, groupAt, Role.checked]

/-- Settles O26: the bit scan is the repeated product. -/
theorem fpowResult : Obligations.FpowResult := by
  unfold Obligations.FpowResult
  intro ft rd rs1 rs2 s hready
  rw [← hready.1.pow_eq_npow]
  exact exec_retired rfl rfl hready.commonChecks_power (by rfl) (by simp)

/-- TOM's multiplication by R^2 is one by R: a raw word times RSQ is below p * R (R270). -/
theorem State.Configured.mont_rsq {s : State} (h : s.Configured) (i : Nat) :
    s.mont (s.w i) s.rsq.toNat = s.w i * s.radix % s.p := by
  have hlt : s.w i * s.rsq.toNat < s.p * s.radix := by
    rw [h.rsq, Nat.mul_comm s.p]
    exact Nat.mul_lt_mul'' (s.w_lt_radix i) (Nat.mod_lt _ h.p_pos)
  refine (h.redc_eq_val hlt).trans (h.eq_val (Nat.mod_lt _ h.p_pos) ?_).symm
  rw [h.rsq, Nat.mod_mul_mod, Nat.mul_mod_mod, Nat.mul_assoc]

/-- FROMM's reduction of a raw word, which is below p * R (R271). -/
theorem State.Configured.redc_w {s : State} (h : s.Configured) (i : Nat) : s.redc (s.w i) = s.val (s.w i) :=
  h.redc_eq_val (Nat.lt_of_lt_of_le (s.w_lt_radix i) (Nat.le_mul_of_pos_left _ h.p_pos))

/-- Settles O27: `State.Configured.mont_rsq` and `State.Configured.redc_w`, word by word. -/
theorem tomFrommResults : Obligations.TomFrommResults := by
  unfold Obligations.TomFrommResults
  intro ft rd rs1 s hready
  have hchecks : s.commonChecks (operandsOf (.tom ft rd rs1)) = none := by
    refine hready.commonChecks_eq_none ?_ ?_ rfl rfl rfl <;> simp [operandsOf, Operands.groups, groupAt, Role.checked]
  simp only [← hready.1.mont_rsq, ← hready.1.redc_w]
  refine ⟨exec_retired rfl rfl hchecks (by rfl) (by simp), exec_retired rfl rfl hchecks (by rfl) (by simp), fun x => ?_⟩
  exact hready.1.val_phi x

/-! ## Cyclotomic instructions (R303, R304) -/

/-- The test of the instruction decides membership in G_ft. -/
theorem State.Configured.inCyclotomic_iff {s : State} (h : s.Configured) (ft : FieldType) (x : Elt ft) :
    s.inCyclotomic ft x = true ↔ s.InG ft x := by
  rw [State.inCyclotomic, h.beq_iff, h.pow_eq_npow, State.InG]

/-- The free words of FCSQR and FCEXP: below p, and nothing else of the state but their count (log 5). -/
theorem State.putFree_spec {s : State} (hp : 0 < s.p) (i n : Nat) :
    ∃ ws : List Word, ws.length = n ∧ WordsBelow s.p ws
      ∧ s.putFree i n = { s.setGroup i ws with freeCtr := s.freeCtr + n } := by
  refine ⟨(List.range n).map fun j => wordOf ((Config.freeWord (s.freeCtr + j)).toNat % s.p), by simp, fun w hw => ?_, rfl⟩
  obtain ⟨j, -, rfl⟩ := List.mem_map.mp hw
  have hlt : (Config.freeWord (s.freeCtr + j)).toNat % s.p < s.p := Nat.mod_lt _ hp
  rwa [wordOf_toNat_of_lt s _ (Nat.lt_trans hlt s.p_lt_radix)]

/-- Settles O28: the square on G_ft, free words elsewhere. -/
theorem fcsqrResult : Obligations.FcsqrResult := by
  unfold Obligations.FcsqrResult
  refine fun ft rd rs1 s hft hready => ⟨fun hin => ?square, fun hout => ?free⟩
  case square =>
    have htest := (hready.1.inCyclotomic_iff ft (s.elt ft rs1)).mpr hin
    refine exec_retired (by rw [exec, execFcsqr]) hft hready.commonChecks_two ?_ (by simp)
    simp only [htest, if_true]
  case free =>
    have htest := (not_congr (hready.1.inCyclotomic_iff ft (s.elt ft rs1))).mpr hout
    obtain ⟨ws, hlength, hbelow, hput⟩ := State.putFree_spec hready.1.p_pos rd.val (degree ft)
    refine ⟨ws, hlength, hbelow, ?_⟩
    rw [← hput]
    refine exec_retired (by rw [exec, execFcsqr]) hft hready.commonChecks_two ?_ (by simp)
    simp only [htest, if_false, Bool.false_eq_true]

/-- Settles O29: one for the exponent 0, the power on G_ft, free words elsewhere. -/
theorem fcexpResult : Obligations.FcexpResult := by
  unfold Obligations.FcexpResult
  intro ft rd rs1 rs2 s hft hready
  have hchecks : s.commonChecks (operandsOf (.fcexp ft rd rs1 rs2)) = none := hready.commonChecks_power
  have hone (he : s.w rs2 = 0) :
      exec (.fcexp ft rd rs1 rs2) s = .next ((s.putElt ft rd.val (s.ring ft).one).retired (s.pc + 1)) := by
    refine exec_retired (by rw [exec, execFcexp]) hft hchecks ?_ (by simp)
    simp only [he, if_true]
  refine ⟨hone, fun hin => ?power, fun he hout => ?free⟩
  case power =>
    by_cases he : s.w rs2 = 0
    · rw [hone he, he, RingOps.npow]
    · have htest := (hready.1.inCyclotomic_iff ft (s.elt ft rs1)).mpr hin
      rw [← hready.1.pow_eq_npow]
      refine exec_retired (by rw [exec, execFcexp]) hft hchecks ?_ (by simp)
      simp only [he, htest, if_true, if_false]
  case free =>
    have htest := (not_congr (hready.1.inCyclotomic_iff ft (s.elt ft rs1))).mpr hout
    obtain ⟨ws, hlength, hbelow, hput⟩ := State.putFree_spec hready.1.p_pos rd.val (degree ft)
    refine ⟨ws, hlength, hbelow, ?_⟩
    rw [← hput]
    refine exec_retired (by rw [exec, execFcexp]) hft hchecks ?_ (by simp)
    simp only [he, htest, if_false, Bool.false_eq_true]

end Sys2Proof.Machine
end

section
/-! PROOFS. The point instructions (43_point) and the Miller-loop accumulator (44_pairing). -/

namespace Sys2Proof.Machine

/-! ## Point formulas (R322 to R324) -/

/-- Settles O30: the three instructions check what their formulas read. -/
theorem pointFormulaResults : Obligations.PointFormulaResults := by
  unfold Obligations.PointFormulaResults
  refine fun ft rd rs1 rs2 s hft => ⟨fun hready => ⟨?padd, ?pmadd⟩, fun hready => ?pdbl⟩
  case padd => exact exec_retired rfl hft hready.commonChecks_three (by rfl) (by simp)
  case pmadd => exact exec_retired rfl hft hready.commonChecks_three (by rfl) (by simp)
  case pdbl => exact exec_retired rfl hft hready.commonChecks_two (by rfl) (by simp)

/-! ## PNEG and PMULQ (R325, R328) -/

theorem append_congr {α : Type} {as as' bs bs' : List α} (h : as = as') (h' : bs = bs') : as ++ bs = as' ++ bs' := by
  rw [h, h']

theorem map_range_three_mul {α : Type} (n : Nat) (f : Nat → α) :
    (List.range (3 * n)).map f
      = (List.range n).map f ++ (List.range n).map (fun j => f (n + j)) ++ (List.range n).map fun j => f (2 * n + j) := by
  rw [show 3 * n = n + n + n by omega, List.range_add, List.range_add]
  simp [Function.comp_def, Nat.two_mul]

/-- The words of the negative of a point: those of Y negated, the others kept. -/
theorem State.Configured.putPoint_neg {s : State} (h : s.Configured) {ft : FieldType} (i base : Nat)
    (hbelow : s.Reduced base (3 * degree ft)) :
    s.putPoint ft i (pointNeg (s.ring ft) (s.point ft base))
      = s.setGroup i ((List.range (3 * degree ft)).map fun j =>
          wordOf (if degree ft ≤ j ∧ j < 2 * degree ft then (s.p - s.w (base + j)) % s.p else s.w (base + j))) := by
  have hkept {j k : Nat} (hj : j < 3 * degree ft) (hout : ¬ (degree ft ≤ j ∧ j < 2 * degree ft)) (hk : base + j = k) :
      wordOf (s.phi (s.val (s.w k)))
        = wordOf (if degree ft ≤ j ∧ j < 2 * degree ft then (s.p - s.w (base + j)) % s.p else s.w (base + j)) := by
    rw [if_neg hout, ← hk, h.phi_val_of_lt (hbelow j hj)]
  have hneg {j k : Nat} (hin : degree ft ≤ j ∧ j < 2 * degree ft) (hk : base + j = k) :
      wordOf (s.phi ((s.p - s.val (s.w k) % s.p) % s.p))
        = wordOf (if degree ft ≤ j ∧ j < 2 * degree ft then (s.p - s.w (base + j)) % s.p else s.w (base + j)) := by
    rw [if_pos hin, ← hk, h.phi_val_neg (hbelow j (by omega))]
  have hcoeffs : (s.ring ft).coeffs (pointNeg (s.ring ft) (s.point ft base)).y
      = (List.range (degree ft)).map fun j => (s.p - s.val (s.w (base + degree ft + j)) % s.p) % s.p :=
    ringOf_coeffs_neg s.p s.kv ft _
  rw [State.putPoint, State.putCoeffs, hcoeffs, map_range_three_mul]
  simp only [pointNeg, State.point, State.elt, State.ring, ringOf_coeffs_ofCoeffs, List.map_append, List.map_map]
  refine congrArg (s.setGroup i) (append_congr (append_congr ?x ?y) ?z) <;>
    refine List.map_congr_left fun j hj => ?_ <;> have hlt := List.mem_range.mp hj
  case x => exact hkept (by omega) (by omega) rfl
  case y => exact hneg (by omega) (Nat.add_assoc ..).symm
  case z => exact hkept (by omega) (by omega) (Nat.add_assoc ..).symm

/-- Settles O31: the words of the negative point, and PMULQ's formula. -/
theorem pnegPmulqResults : Obligations.PnegPmulqResults := by
  unfold Obligations.PnegPmulqResults
  refine ⟨fun ft rd rs1 s hft hready => ?pneg, fun ft rd rs1 s hft hready => ?pmulq⟩
  case pneg =>
    rw [← hready.1.putPoint_neg rd rs1 fun j hj => hready.w_lt (by simp) hj]
    exact exec_retired rfl hft hready.commonChecks_two (by rfl) (by simp)
  case pmulq => exact exec_retired rfl hft hready.commonChecks_two (by rfl) (by simp)

/-! ## PAFF and PONC (R326, R327) -/

theorem State.Configured.isZero_iff {s : State} (h : s.Configured) (ft : FieldType) (x : Elt ft) :
    (s.ring ft).isZero x = true ↔ x = (s.ring ft).zero := h.beq_iff ft x _

/-- Zero has no inverse where one is not zero. -/
theorem State.Configured.zero_mul_ne_one {s : State} (h : s.Configured) (ft : FieldType) (b : Elt ft) :
    (s.ring ft).mul (s.ring ft).zero b ≠ (s.ring ft).one := by
  obtain ⟨A, R, φ, hF⟩ := h.exists_interp ft
  intro hmul
  refine ringOf_one_ne_zero (Nat.lt_of_lt_of_le (by decide) h.three) s.kv ft (hF.inj hF.one_below hF.zero_below ?_)
  have hmap := congrArg φ hmul
  rw [hF.map_mul, hF.map_zero, R.zero_mul] at hmap
  exact hmap.symm.trans hF.map_zero.symm

/-- PAFF writes the affine form there is (R326). -/
theorem exec_paff {ft : FieldType} {rd rs1 : Reg} {s : State} {P : Point (Elt ft)} (hft : ft.isPoint = true)
    (hready : s.Ready [(rd.val, 3 * degree ft)] [(rs1.val, 3 * degree ft)] (nrSet ft))
    (haff : pointAffine (s.ring ft) (s.point ft rs1) = some P) :
    exec (.paff ft rd rs1) s = .next ((s.putPoint ft rd.val P).retired (s.pc + 1)) := by
  refine exec_retired (by rw [exec, execPaff]) hft hready.commonChecks_two ?_ (by simp)
  simp only [haff]

/-- Settles O32: the three cases of `pointAffine`. -/
theorem paffResults : Obligations.PaffResults := by
  unfold Obligations.PaffResults
  intro ft rd rs1 s hft hready
  have hzero := hready.1.isZero_iff ft (s.point ft rs1).z
  refine ⟨fun hz => ?identity, fun zi hzi hmul => ?affine, fun hz hnone => ?fault⟩
  case identity =>
    exact exec_paff hft hready (if_pos (hzero.mpr hz))
  case affine =>
    have hz : ¬ (s.ring ft).isZero (s.point ft rs1).z = true := fun h =>
      hready.1.zero_mul_ne_one ft zi (hzero.mp h ▸ hmul)
    have hinv : (s.ring ft).inv (s.point ft rs1).z = some zi := hready.1.inv_eq_some hzi hmul
    refine exec_paff hft hready ?_
    rw [pointAffine, if_neg hz, hinv]
  case fault =>
    have hinv : (s.ring ft).inv (s.point ft rs1).z = none := hready.1.inv_eq_none hnone
    have haff : pointAffine (s.ring ft) (s.point ft rs1) = none := by
      rw [pointAffine, if_neg (not_congr hzero |>.mpr hz), hinv]
    refine exec_failed (f := (.notInvertible, rs1.val + 2 * degree ft)) (by rw [exec, execPaff]) hft
      hready.commonChecks_two ?_
    simp only [haff]

/-- Settles O33: the model's equality test decides equality. -/
theorem poncResult : Obligations.PoncResult := by
  unfold Obligations.PoncResult
  intro ft rs1 s hft hready
  have hchecks : s.commonChecks (operandsOf (.ponc ft rs1)) = none := by
    refine hready.commonChecks_eq_none ?_ ?_ rfl rfl rfl <;> simp [operandsOf, Operands.groups, groupAt]
  refine ⟨pointOnCurve (s.ring ft) (s.curveA ft) (s.curveB ft) (s.point ft rs1),
    exec_retired rfl hft hchecks (by rfl) rfl, ?_⟩
  simp only [pointOnCurve, Bool.and_eq_true, Bool.not_eq_true', ← Bool.not_eq_true, hready.1.beq_iff, hready.1.isZero_iff,
    and_assoc]

/-! ## Laws of the point formulas (R329, R323) -/

section Laws

variable {α A : Type} [R : Lean.Grind.CommRing A] {F : RingOps α} {p : Nat} {φ : α → A}

theorem RingOps.Interp.isZero_iff (hF : F.Interp p φ) (x : α) : F.isZero x = true ↔ x = F.zero := hF.beq_iff x F.zero

theorem RingOps.Interp.mul_one_of_below (hF : F.Interp p φ) {x : α} (hx : F.Below p x) : F.mul x F.one = x :=
  hF.inj (hF.mul_below _ _) hx (by rw [hF.map_mul, hF.map_one, R.mul_one])

/-- P + (-P) has Z = 0: the slopes' denominator v is 0, or P is its own negative and 2 Y Z is 0. -/
theorem RingOps.Interp.pointAdd_neg_z (hF : F.Interp p φ) (a : α) (P : Point α) :
    (pointAdd F a P (pointNeg F P)).z = F.zero := by
  by_cases hz : F.isZero P.z = true
  · simpa [pointAdd, pointNeg, hz] using (hF.isZero_iff P.z).mp hz
  · by_cases hdouble : (F.beq (F.mul P.x P.z) (F.mul P.x P.z) && F.beq (F.mul P.y P.z) (F.mul (F.neg P.y) P.z)) = true
    · have hy : φ P.y * φ P.z = -φ P.y * φ P.z := by
        rw [Bool.and_eq_true, hF.beq_iff, hF.beq_iff] at hdouble
        rw [← hF.map_neg, ← hF.map_mul, ← hF.map_mul, hdouble.2]
      have hs : φ (F.mul (F.twice P.y) P.z) = 0 := by
        rw [hF.map_mul, RingOps.twice, hF.map_add]
        grind
      simp only [pointAdd, pointNeg, pointDouble, hz, hdouble, if_true, if_false, Bool.false_eq_true]
      refine hF.inj (hF.mul_below _ _) hF.zero_below ?_
      rw [hF.map_mul, hs, hF.map_zero, R.zero_mul]
    · have hv : φ (F.sub (F.mul P.x P.z) (F.mul P.x P.z)) = 0 := by rw [hF.map_sub]; grind
      simp only [pointAdd, pointNeg, hz, hdouble, if_false, Bool.false_eq_true]
      refine hF.inj (hF.mul_below _ _) hF.zero_below ?_
      rw [hF.map_mul, hF.map_mul, hv, hF.map_zero, R.zero_mul, R.zero_mul]

/-- P + P is 2P, word for word. -/
theorem RingOps.Interp.pointAdd_self (hF : F.Interp p φ) (a : α) (P : Point α) : pointAdd F a P P = pointDouble F a P := by
  by_cases hz : F.isZero P.z = true
  · simp [pointAdd, pointDouble, hz]
  · have hsame (x : α) : F.beq x x = true := (hF.beq_iff x x).mpr rfl
    simp [pointAdd, hz, hsame]

/-- A mixed addition with a nonzero Z2 is the addition with Z2 = one (D15). -/
theorem RingOps.Interp.pointMixedAdd_eq_pointAdd (hF : F.Interp p φ) (a : α) {P : Point α} {x2 y2 z2 : α}
    (hx : F.Below p P.x) (hy : F.Below p P.y) (hz : F.Below p P.z) (hone : F.one ≠ F.zero) (hz2 : z2 ≠ F.zero) :
    pointMixedAdd F a P { x := x2, y := y2, z := z2 } = pointAdd F a P { x := x2, y := y2, z := F.one } := by
  have hzero : ¬ F.isZero F.one = true := (not_congr (hF.isZero_iff _)).mpr hone
  have hzero2 : ¬ F.isZero z2 = true := (not_congr (hF.isZero_iff _)).mpr hz2
  simp only [pointMixedAdd, pointAdd, hzero, hzero2, hF.mul_one_of_below hx, hF.mul_one_of_below hy, hF.mul_one_of_below hz,
    if_false, Bool.false_eq_true]

/-- A mixed addition with Z2 = 0 is the addition. -/
theorem RingOps.Interp.pointMixedAdd_zero (hF : F.Interp p φ) (a : α) (P : Point α) (x2 y2 : α) :
    pointMixedAdd F a P { x := x2, y := y2, z := F.zero } = pointAdd F a P { x := x2, y := y2, z := F.zero } := by
  have hzero : F.isZero F.zero = true := (hF.isZero_iff _).mpr rfl
  simp only [pointMixedAdd, pointAdd, hzero, if_true]

end Laws

/-- Settles O34: the laws in an interpretation of the ring. -/
theorem pointLaws : Obligations.PointLaws := by
  unfold Obligations.PointLaws
  intro ft s a P x2 y2 z2 h _ hx hy hz _ _ _
  obtain ⟨A, _, φ, hF⟩ := h.exists_interp ft
  have hone : (s.ring ft).one ≠ (s.ring ft).zero := ringOf_one_ne_zero (Nat.lt_of_lt_of_le (by decide) h.three) s.kv ft
  exact ⟨hF.pointAdd_neg_z a P, hF.pointAdd_self a P, hF.pointMixedAdd_eq_pointAdd a hx hy hz hone,
    hF.pointMixedAdd_zero a P x2 y2⟩

/-! ## The accumulator (R366 to R371) -/

/-- The check of R14 passes where the two destination groups are apart. -/
theorem checkOverlap_of_apart {o : Operands} {g h : Group} (hrd : o.rd = some g) (hrs1 : o.rs1 = some h)
    (hapart : Apart g.base g.size h.base h.size) : checkOverlap o = none := by
  simp [checkOverlap, hrd, hrs1, Group.meets_false hapart]

section Checks

variable {rd rs1 rs2 : Reg} {s : State}

theorem State.Ready.commonChecks_ldbl (hapart : Apart rd.val 6 rs1.val 6)
    (h : s.Ready [(rd.val, 6)] [(rs1.val, 6)] [0, 75, 76, 78, 79]) : s.commonChecks (operandsOf (.ldbl rd rs1)) = none := by
  refine h.commonChecks_eq_none ?_ ?_ (checkOverlap_of_apart rfl rfl hapart) rfl rfl <;>
    simp [operandsOf, Operands.groups, groupAt, Role.checked]

theorem State.Ready.commonChecks_ladd (hapart : Apart rd.val 6 rs1.val 6)
    (h : s.Ready [(rd.val, 6)] [(rs1.val, 6), (rs2.val, 4)] [0, 78, 79]) :
    s.commonChecks (operandsOf (.ladd rd rs1 rs2)) = none := by
  refine h.commonChecks_eq_none ?_ ?_ (checkOverlap_of_apart rfl rfl hapart) rfl rfl <;>
    simp [operandsOf, Operands.groups, groupAt, Role.checked]

theorem State.Ready.commonChecks_fmul024 (h : s.Ready [(rd.val, 12)] [(rs1.val, 12), (rs2.val, 6)] [0, 2, 3]) :
    s.commonChecks (operandsOf (.fmul024 rd rs1 rs2)) = none := by
  refine h.commonChecks_eq_none ?_ ?_ rfl rfl rfl <;> simp [operandsOf, Operands.groups, groupAt, Role.checked]

theorem State.Ready.commonChecks_mlacc (h : s.Ready [] [(rd.val, 12), (rs1.val, 6), (rs2.val, 2)] [0, 2, 3]) :
    s.commonChecks (operandsOf (.mlacc rd rs1 rs2)) = none := by
  refine h.commonChecks_eq_none ?_ ?_ rfl rfl rfl <;> simp [operandsOf, Operands.groups, groupAt]

theorem State.Ready.commonChecks_mldbl (hapart : Apart rd.val 12 rs1.val 6)
    (h : s.Ready [] [(rd.val, 12), (rs1.val, 6), (rs2.val, 2)] [0, 2, 3, 75, 76, 78, 79]) :
    s.commonChecks (operandsOf (.mldbl rd rs1 rs2)) = none := by
  refine h.commonChecks_eq_none ?_ ?_ (checkOverlap_of_apart rfl rfl hapart) rfl rfl <;>
    simp [operandsOf, Operands.groups, groupAt]

theorem State.Ready.commonChecks_mladd (hapart : Apart rd.val 12 rs1.val 6)
    (h : s.Ready [] [(rd.val, 12), (rs1.val, 6), (rs2.val, 6)] [0, 2, 3, 78, 79]) :
    s.commonChecks (operandsOf (.mladd rd rs1 rs2)) = none := by
  refine h.commonChecks_eq_none ?_ ?_ (checkOverlap_of_apart rfl rfl hapart) rfl rfl <;>
    simp [operandsOf, Operands.groups, groupAt]

end Checks

/-- Settles O35: the line and the new point of the two line instructions. -/
theorem lineResults : Obligations.LineResults := by
  unfold Obligations.LineResults
  refine fun rd rs1 rs2 s hapart => ⟨fun hready => ?ldbl, fun hready => ?ladd⟩
  case ldbl => exact exec_retired rfl rfl (hready.commonChecks_ldbl hapart) (by rfl) (by simp)
  case ladd => exact exec_retired rfl rfl (hready.commonChecks_ladd hapart) (by rfl) (by simp)

/-- Settles O36: the sparse product, with the coefficients of the line scaled by MLACC. -/
theorem sparseResults : Obligations.SparseResults := by
  unfold Obligations.SparseResults
  refine fun rd rs1 rs2 s => ⟨fun hready => ?fmul024, fun hready => ?mlacc⟩
  case fmul024 => exact exec_retired rfl rfl hready.commonChecks_fmul024 (by rfl) (by simp)
  case mlacc => exact exec_retired rfl rfl hready.commonChecks_mlacc (by rfl) (by simp)

/-- Settles O37: the accumulator and the new point of the two fused instructions. -/
theorem fusedResults : Obligations.FusedResults := by
  unfold Obligations.FusedResults
  refine fun rd rs1 rs2 s hapart => ⟨fun hready => ?mldbl, fun hready => ?mladd⟩
  case mldbl => exact exec_retired rfl rfl (hready.commonChecks_mldbl hapart) (by rfl) (by simp)
  case mladd => exact exec_retired rfl rfl (hready.commonChecks_mladd hapart) (by rfl) (by simp)

end Sys2Proof.Machine
end

section
/-! PROOFS. The fused instructions of the Miller loop do what their parts do in a row (44_pairing R362). -/

namespace Sys2Proof.Machine

theorem State.KstReduced.of_subset {s : State} {ks ks' : List Nat} (h : s.KstReduced ks) (hsub : ∀ k ∈ ks', k ∈ ks) :
    s.KstReduced ks' := fun k hk => h k (hsub k hk)

/-! ## Residues held in registers -/

/-- The registers from `i` up hold the Montgomery words of the residues `xs` in their active width. -/
def State.Holds (s : State) (i : Nat) (xs : List Nat) : Prop := ∀ (k : Nat) (hk : k < xs.length), s.w (i + k) = s.phi xs[k]

/-- Two states with the same configuration and the same constants. -/
def State.SameConfig (s t : State) : Prop := t.commitFields = s.commitFields ∧ t.kst = s.kst

section SameConfig

variable {s t : State} (h : s.SameConfig t)
include h

theorem State.SameConfig.nlimbs : t.nlimbs = s.nlimbs := congrArg Prod.fst h.1

theorem State.SameConfig.modp : t.modp = s.modp := congrArg (·.2.1) h.1

theorem State.SameConfig.p : t.p = s.p := State.p_congr h.nlimbs h.modp

theorem State.SameConfig.radix : t.radix = s.radix := State.radix_congr h.nlimbs

theorem State.SameConfig.phi (x : Nat) : t.phi x = s.phi x := by rw [State.phi, State.phi, h.p, h.radix]

theorem State.SameConfig.val (x : Nat) : t.val x = s.val x := by
  rw [State.val, State.val, h.p, State.width_congr h.nlimbs]

theorem State.SameConfig.kw (k : Nat) : t.kw k = s.kw k := by rw [State.kw, State.kw, h.radix, State.getK_congr h.2]

theorem State.SameConfig.kv : t.kv = s.kv := funext fun k => by rw [State.kv, State.kv, h.val, h.kw]

theorem State.SameConfig.ring (ft : FieldType) : t.ring ft = s.ring ft := by rw [State.ring, State.ring, h.p, h.kv]

theorem State.SameConfig.configured (hs : s.Configured) : t.Configured := by
  have hfields := h.1
  simp only [State.commitFields, Prod.mk.injEq] at hfields
  obtain ⟨hn, hm, hpinv, hrsq, hrone, hok, -⟩ := hfields
  exact hs.congr hn hm hpinv hrsq hrone hok

theorem State.SameConfig.kstReduced {ks : List Nat} (hs : s.KstReduced ks) : t.KstReduced ks := fun k hk => by
  rw [h.kw, h.p]
  exact hs k hk

theorem State.SameConfig.trans {u : State} (htu : t.SameConfig u) : s.SameConfig u :=
  ⟨htu.1.trans h.1, htu.2.trans h.2⟩

end SameConfig

theorem State.sameConfig_retired (s : State) (q : Half) : s.SameConfig (s.retired q) := ⟨rfl, rfl⟩

theorem State.sameConfig_putCoeffs (s : State) (i : Nat) (xs : List Nat) : s.SameConfig (s.putCoeffs i xs) := by
  simp [State.SameConfig, State.commitFields]

/-! ### Writing and reading -/

theorem State.getE_putCoeffs_in (s : State) {i k : Nat} {xs : List Nat} (hk : k < xs.length) (hfits : Fits i xs.length) :
    (s.putCoeffs i xs).getE (i + k) = wordOf (s.phi xs[k]) := by
  rw [State.putCoeffs, State.getE_setGroup_in s i k _ (by simpa using hk) (by simpa [Fits] using hfits), List.getElem_map]

theorem State.getE_putCoeffs_out (s : State) {i j : Nat} {xs : List Nat} (h : j < i ∨ i + xs.length ≤ j) :
    (s.putCoeffs i xs).getE j = s.getE j :=
  State.getE_setGroup_out s i j _ (by simpa using h)

theorem State.w_congr {s t : State} (hc : s.SameConfig t) {i j : Nat} (h : t.getE i = s.getE j) : t.w i = s.w j := by
  rw [State.w, State.w, h, hc.radix]

/-- A written group holds what was written. -/
theorem State.holds_putCoeffs {s : State} (h : s.Configured) {i : Nat} {xs : List Nat} (hfits : Fits i xs.length) :
    (s.putCoeffs i xs).Holds i xs := fun k hk => by
  have hlt : s.phi xs[k] < s.radix := Nat.lt_trans (h.phi_lt _) s.p_lt_radix
  have hc := s.sameConfig_putCoeffs i xs
  rw [State.w, s.getE_putCoeffs_in hk hfits, wordOf_toNat_of_lt s _ hlt, hc.radix, Nat.mod_eq_of_lt hlt, hc.phi]

/-- A group apart from the one written holds what it held. -/
theorem State.Holds.putCoeffs {s : State} {i j : Nat} {xs ys : List Nat} (h : s.Holds i xs)
    (hapart : Apart i xs.length j ys.length) : (s.putCoeffs j ys).Holds i xs := fun k hk => by
  have hc := s.sameConfig_putCoeffs j ys
  rw [State.w_congr hc (s.getE_putCoeffs_out (by unfold Apart at hapart; omega)), hc.phi]
  exact h k hk

theorem State.Holds.retired {s : State} {i : Nat} {xs : List Nat} (h : s.Holds i xs) (q : Half) : (s.retired q).Holds i xs := h

theorem State.Holds.reduced {s : State} (hs : s.Configured) {i n : Nat} {xs : List Nat} (h : s.Holds i xs)
    (hn : xs.length = n) : s.Reduced i n := fun j hj => by
  rw [h j (hn ▸ hj)]
  exact hs.phi_lt _

theorem State.Holds.residue {s : State} (hs : s.Configured) {i k : Nat} {xs : List Nat} (h : s.Holds i xs)
    (hk : k < xs.length) (hlt : xs[k] < s.p) : s.residue (i + k) = xs[k] := by
  rw [State.residue, h k hk, hs.val_phi, Nat.mod_eq_of_lt hlt]

/-- A group that holds the coefficients of an element in canonical form reads as this element. -/
theorem State.Holds.elt {s : State} (hs : s.Configured) {ft : FieldType} {i : Nat} {x : Elt ft}
    (h : s.Holds i ((s.ring ft).coeffs x)) (hx : Canonical s.p s.kv ft x) : s.elt ft i = x := by
  have hlength : ((s.ring ft).coeffs x).length = degree ft := ringOf_coeffs_length s.p s.kv ft x
  have hread : (List.range (degree ft)).map (fun j => s.val (s.w (i + j))) = (s.ring ft).coeffs x := by
    refine List.ext_getElem (by simp [hlength]) fun k _ hk => ?_
    simpa [State.residue] using h.residue hs hk (hx _ (List.getElem_mem hk))
  rw [State.elt, hread]
  exact ringOf_ofCoeffs_coeffs s.p s.kv ft x

/-- A reduced group holds the residues it stands for. -/
theorem State.holds_residues {s : State} (hs : s.Configured) {i n : Nat} (h : s.Reduced i n) :
    s.Holds i ((List.range n).map fun j => s.residue (i + j)) := fun k hk => by
  have hkn : k < n := by simpa using hk
  rw [List.getElem_map, List.getElem_range, State.residue, hs.phi_val_of_lt (h k hkn)]

theorem State.holds_elt {s : State} (hs : s.Configured) {ft : FieldType} {i : Nat} (h : s.Reduced i (degree ft)) :
    s.Holds i ((s.ring ft).coeffs (s.elt ft i)) := by
  rw [State.elt, State.ring, ringOf_coeffs_ofCoeffs]
  exact State.holds_residues hs h

/-! ## Coefficients of a line -/

/-- Every coefficient of the line is below p. -/
def EllCoeff.Below (p : Nat) (c : EllCoeff) : Prop := ∀ x ∈ c.coeffs, x < p

theorem EllCoeff.below_iff {p : Nat} {kv : Nat → Nat} {c : EllCoeff} :
    c.Below p ↔ (ring2 p kv).Below p c.ell0 ∧ (ring2 p kv).Below p c.ellVW ∧ (ring2 p kv).Below p c.ellVV := by
  simp [EllCoeff.Below, EllCoeff.coeffs, RingOps.Below, ring2, quadRing, primeRing, and_assoc]

theorem State.Configured.lineDoubleAt_below {s : State} (h : s.Configured) (i : Nat) : (s.lineDoubleAt i).1.Below s.p := by
  obtain ⟨A, _, φ, hF⟩ := h.exists_interp .F2
  exact (EllCoeff.below_iff (kv := s.kv)).mpr ⟨hF.mul_below _ _, hF.neg_below _, hF.add_below _ _⟩

theorem State.Configured.lineAddAt_below {s : State} (h : s.Configured) (i j : Nat) : (s.lineAddAt i j).1.Below s.p := by
  obtain ⟨A, _, φ, hF⟩ := h.exists_interp .F2
  exact (EllCoeff.below_iff (kv := s.kv)).mpr ⟨hF.mul_below _ _, hF.sub_below _ _, hF.neg_below _⟩

/-- A group that holds the coefficients of a line reads as this line. -/
theorem State.Holds.ellCoeff {s : State} (hs : s.Configured) {i : Nat} {c : EllCoeff} (h : s.Holds i c.coeffs)
    (hc : c.Below s.p) : s.ellCoeff i = c := by
  obtain ⟨ell0, ellVW, ellVV⟩ := c
  have hread (k : Nat) (hk : k < 6) : s.residue (i + k) = (EllCoeff.coeffs ⟨ell0, ellVW, ellVV⟩)[k] :=
    h.residue hs hk (hc _ (List.getElem_mem hk))
  have hell0 : s.elt .F2 i = ell0 := Prod.ext (hread 0 (by decide)) (hread 1 (by decide))
  have hellVW : s.elt .F2 (i + 2) = ellVW := Prod.ext (hread 2 (by decide)) (hread 3 (by decide))
  have hellVV : s.elt .F2 (i + 4) = ellVV := Prod.ext (hread 4 (by decide)) (hread 5 (by decide))
  rw [State.ellCoeff, hell0, hellVW, hellVV]

/-! ## MLACC on a line and an accumulator held in registers -/

/-- What MLACC leaves where its operands hold an accumulator, a line and the two scalars. -/
theorem exec_mlacc_of_holds {rd c rs2 : Reg} {s t : State} {f : E6 × E6} {line : EllCoeff} {px py : Nat} (hs : s.Configured)
    (hcfg : s.SameConfig t) (hkst : s.KstReduced [0, 2, 3]) (hrd : Fits rd.val 12) (hc : Fits c.val 6) (hrs2 : Fits rs2.val 2)
    (hf : t.Holds rd.val ((s.ring .F12).coeffs f)) (hcan : Canonical s.p s.kv .F12 f) (hline : t.Holds c.val line.coeffs)
    (hbelow : line.Below s.p) (hscalars : t.Holds rs2.val [px, py]) (hpx : px < s.p) (hpy : py < s.p) :
    exec (.mlacc rd c rs2) t
      = .next ((t.putCoeffs rd.val ((s.ring .F12).coeffs (s.accumulate f line px py))).retired (t.pc + 1)) := by
  have ht : t.Configured := hcfg.configured hs
  have hready : t.Ready [] [(rd.val, 12), (c.val, 6), (rs2.val, 2)] [0, 2, 3] := by
    refine ⟨ht, by simp [hrd, hc, hrs2], ?_, hcfg.kstReduced hkst⟩
    simp only [List.forall_mem_cons, List.not_mem_nil, false_imp_iff, implies_true, and_true]
    exact ⟨hf.reduced ht (ringOf_coeffs_length ..), hline.reduced ht rfl, hscalars.reduced ht rfl⟩
  have hexec : exec (.mlacc rd c rs2) t
      = .next ((t.putElt .F12 rd.val (t.accumulate (t.elt .F12 rd) (t.ellCoeff c) (t.residue rs2)
          (t.residue (rs2.val + 1)))).retired (t.pc + 1)) :=
    exec_retired rfl rfl hready.commonChecks_mlacc (by rfl) (by simp)
  have hfelt : t.elt .F12 rd = f := by
    rw [← hcfg.ring] at hf
    exact hf.elt ht (by rwa [hcfg.p, hcfg.kv])
  have hcoeff : t.ellCoeff c = line := hline.ellCoeff ht (by rwa [hcfg.p])
  have hx : t.residue rs2 = px := hscalars.residue ht (k := 0) (by simp) (by rwa [hcfg.p])
  have hy : t.residue (rs2.val + 1) = py := hscalars.residue ht (k := 1) (by simp) (by rwa [hcfg.p])
  rw [hexec, hfelt, hcoeff, hx, hy, State.putElt, State.accumulate, State.accumulate, hcfg.ring, hcfg.ring]

/-- What FSQR leaves where its operand holds an accumulator. -/
theorem exec_fsqr_of_holds {rd : Reg} {s t : State} {f : E6 × E6} (hs : s.Configured) (hcfg : s.SameConfig t)
    (hkst : s.KstReduced [0, 2, 3]) (hrd : Fits rd.val 12) (hf : t.Holds rd.val ((s.ring .F12).coeffs f))
    (hcan : Canonical s.p s.kv .F12 f) :
    exec (.fsqr .F12 rd rd) t
      = .next ((t.putCoeffs rd.val ((s.ring .F12).coeffs ((s.ring .F12).mul f f))).retired (t.pc + 1)) := by
  have ht : t.Configured := hcfg.configured hs
  have hready : t.Ready [(rd.val, 12)] [(rd.val, 12)] [0, 2, 3] :=
    ⟨ht, by simp [hrd], by simpa using hf.reduced (n := 12) ht (ringOf_coeffs_length ..), hcfg.kstReduced hkst⟩
  have hfelt : t.elt .F12 rd = f := by
    rw [← hcfg.ring] at hf
    exact hf.elt ht (by rwa [hcfg.p, hcfg.kv])
  rw [exec_fsqr hready, hfelt, State.putElt, hcfg.ring]

/-! ## The state behind LDBL or LADD -/

/-- The state after the coefficients `xs` of a line are written to `c` and those of the new point, `ys`, to `rs1` (R366, R367). -/
def State.afterLine (s : State) (c rs1 : Nat) (xs ys : List Nat) : State :=
  ((s.putCoeffs c xs).putCoeffs rs1 ys).retired (s.pc + 1)

/-- The coefficients of a point over F2. -/
def pointCoeffs (P : Point E2) : List Nat := [P.x.1, P.x.2, P.y.1, P.y.2, P.z.1, P.z.2]

theorem State.putPoint_F2 (s : State) (i : Nat) (P : Point E2) : s.putPoint .F2 i P = s.putCoeffs i (pointCoeffs P) := rfl

section AfterLine

variable {s : State} {c rs1 : Nat} {xs ys : List Nat}

theorem State.sameConfig_afterLine : s.SameConfig (s.afterLine c rs1 xs ys) :=
  ((s.sameConfig_putCoeffs c _).trans (State.sameConfig_putCoeffs _ rs1 _)).trans (State.sameConfig_retired _ _)

theorem State.Holds.afterLine {i : Nat} {zs : List Nat} (h : s.Holds i zs) (hc : Apart i zs.length c xs.length)
    (hrs1 : Apart i zs.length rs1 ys.length) : (s.afterLine c rs1 xs ys).Holds i zs :=
  ((h.putCoeffs hc).putCoeffs hrs1).retired _

theorem State.holds_line_afterLine (hs : s.Configured) (hc : Fits c xs.length) (hapart : Apart c xs.length rs1 ys.length) :
    (s.afterLine c rs1 xs ys).Holds c xs :=
  ((State.holds_putCoeffs hs hc).putCoeffs hapart).retired _

theorem State.getE_point_afterLine (hrs1 : Fits rs1 ys.length) {j : Nat} (hj : j < ys.length) :
    (s.afterLine c rs1 xs ys).getE (rs1 + j) = wordOf (s.phi ys[j]) := by
  rw [State.afterLine, State.getE_retired, State.getE_putCoeffs_in _ hj hrs1, (s.sameConfig_putCoeffs c _).phi]

end AfterLine

/-- Where the parts left the new point in the rs1 group, the accumulator written last gives the words of the fused instruction, which
writes the accumulator first. -/
theorem State.getE_parts_eq_fused {s u : State} {rd rs1 : Nat} {xs ys : List Nat} (hcfg : s.SameConfig u)
    (hrd : Fits rd xs.length) (hrs1 : Fits rs1 ys.length) (hapart : Apart rd xs.length rs1 ys.length)
    (hpoint : ∀ (j : Nat) (hj : j < ys.length), u.getE (rs1 + j) = wordOf (s.phi ys[j])) :
    (∀ j, j < xs.length → (u.putCoeffs rd xs).getE (rd + j) = ((s.putCoeffs rd xs).putCoeffs rs1 ys).getE (rd + j))
      ∧ ∀ j, j < ys.length → (u.putCoeffs rd xs).getE (rs1 + j) = ((s.putCoeffs rd xs).putCoeffs rs1 ys).getE (rs1 + j) := by
  unfold Apart at hapart
  refine ⟨fun j hj => ?accumulator, fun j hj => ?point⟩
  case accumulator =>
    rw [u.getE_putCoeffs_in hj hrd, State.getE_putCoeffs_out _ (by omega), s.getE_putCoeffs_in hj hrd, hcfg.phi]
  case point =>
    rw [u.getE_putCoeffs_out (by omega), hpoint j hj, State.getE_putCoeffs_in _ hj hrs1, (s.sameConfig_putCoeffs rd xs).phi]

/-! ## MLDBL and MLADD by their parts (R362) -/

section Parts

variable {c rd rs1 rs2 rp : Reg} {s : State} {f : E6 × E6} {line : EllCoeff} {P : Point E2} {px py : Nat}

/-- The operands of the parts, before the line is written: the accumulator `f` in rd and the scalars in `rp`, apart from the
groups the line is written to. -/
structure PartsOperands (s : State) (c rd rs1 rp : Reg) (f : E6 × E6) (px py : Nat) : Prop where
  configured : s.Configured
  kst : s.KstReduced [0, 2, 3]
  c_fits : Fits c.val 6
  rd_fits : Fits rd.val 12
  rs1_fits : Fits rs1.val 6
  rp_fits : Fits rp.val 2
  c_rd : Apart c.val 6 rd.val 12
  c_rs1 : Apart c.val 6 rs1.val 6
  rd_rs1 : Apart rd.val 12 rs1.val 6
  c_rp : Apart c.val 6 rp.val 2
  rp_rd : Apart rp.val 2 rd.val 12
  rp_rs1 : Apart rp.val 2 rs1.val 6
  holds_f : s.Holds rd.val ((s.ring .F12).coeffs f)
  f_canonical : Canonical s.p s.kv .F12 f
  holds_scalars : s.Holds rp.val [px, py]
  px_lt : px < s.p
  py_lt : py < s.p

theorem Apart.symm {i m j n : Nat} (h : Apart i m j n) : Apart j n i m := Or.symm h

/-- The accumulator in rd is apart from the groups a line is written to. -/
theorem PartsOperands.holds_f_afterLine (h : PartsOperands s c rd rs1 rp f px py) :
    (s.afterLine c rs1 line.coeffs (pointCoeffs P)).Holds rd.val ((s.ring .F12).coeffs f) := by
  have hlength : ((s.ring .F12).coeffs f).length = 12 := ringOf_coeffs_length s.p s.kv .F12 f
  exact h.holds_f.afterLine (hlength ▸ h.c_rd.symm) (hlength ▸ h.rd_rs1)

/-- MLACC behind LADD. -/
theorem PartsOperands.exec_mlacc (h : PartsOperands s c rd rs1 rp f px py) (hbelow : line.Below s.p) :
    exec (.mlacc rd c rp) (s.afterLine c rs1 line.coeffs (pointCoeffs P))
      = .next (((s.afterLine c rs1 line.coeffs (pointCoeffs P)).putCoeffs rd.val
          ((s.ring .F12).coeffs (s.accumulate f line px py))).retired (s.pc + 1 + 1)) :=
  exec_mlacc_of_holds h.configured State.sameConfig_afterLine h.kst h.rd_fits h.c_fits h.rp_fits h.holds_f_afterLine
    h.f_canonical (State.holds_line_afterLine h.configured h.c_fits h.c_rs1) hbelow
    (h.holds_scalars.afterLine h.c_rp.symm h.rp_rs1) h.px_lt h.py_lt

/-- FSQR and MLACC behind LDBL. -/
theorem PartsOperands.exec_fsqr_mlacc (h : PartsOperands s c rd rs1 rp f px py) (hbelow : line.Below s.p) :
    ∃ t2 : State, exec (.fsqr .F12 rd rd) (s.afterLine c rs1 line.coeffs (pointCoeffs P)) = .next t2
      ∧ s.SameConfig t2 ∧ t2.instret = s.instret + 1 + 1
      ∧ (∀ k, k < rd.val ∨ rd.val + 12 ≤ k → t2.getE k = (s.afterLine c rs1 line.coeffs (pointCoeffs P)).getE k)
      ∧ exec (.mlacc rd c rp) t2
        = .next ((t2.putCoeffs rd.val
          ((s.ring .F12).coeffs (s.accumulate ((s.ring .F12).mul f f) line px py))).retired (t2.pc + 1)) := by
  have hcfg1 : s.SameConfig (s.afterLine c rs1 line.coeffs (pointCoeffs P)) := State.sameConfig_afterLine
  have hlength : ((s.ring .F12).coeffs ((s.ring .F12).mul f f)).length = 12 := ringOf_coeffs_length s.p s.kv .F12 _
  have hcfg2 := hcfg1.trans (State.sameConfig_putCoeffs _ rd.val ((s.ring .F12).coeffs ((s.ring .F12).mul f f)))
  have hsquare := State.holds_putCoeffs (hcfg1.configured h.configured) (hlength ▸ h.rd_fits)
  obtain ⟨A, _, φ, hF⟩ := h.configured.exists_interp .F12
  refine ⟨_, exec_fsqr_of_holds h.configured hcfg1 h.kst h.rd_fits h.holds_f_afterLine h.f_canonical,
    hcfg2.trans (State.sameConfig_retired _ _), by simp [State.afterLine], fun k hk => ?_, ?_⟩
  · rw [State.getE_retired, State.getE_putCoeffs_out _ (hlength ▸ hk)]
  · exact exec_mlacc_of_holds h.configured (hcfg2.trans (State.sameConfig_retired _ _)) h.kst h.rd_fits h.c_fits h.rp_fits
      (hsquare.retired _) (hF.mul_below _ _)
      (((State.holds_line_afterLine h.configured h.c_fits h.c_rs1).putCoeffs (hlength ▸ h.c_rd)).retired _) hbelow
      (((h.holds_scalars.afterLine h.c_rp.symm h.rp_rs1).putCoeffs (hlength ▸ h.rp_rd)).retired _) h.px_lt h.py_lt

/-- The words the parts leave where a state `u` behind the line holds the new point. -/
theorem PartsOperands.getE_eq (h : PartsOperands s c rd rs1 rp f px py) {u : State} (g : E6 × E6) (q q' : Half)
    (hcfg : s.SameConfig u)
    (hu : ∀ k, k < rd.val ∨ rd.val + 12 ≤ k → u.getE k = (s.afterLine c rs1 line.coeffs (pointCoeffs P)).getE k) :
    (∀ j, j < 12 → ((u.putCoeffs rd.val ((s.ring .F12).coeffs g)).retired q).getE (rd.val + j)
        = (((s.putElt .F12 rd.val g).putPoint .F2 rs1.val P).retired q').getE (rd.val + j))
      ∧ ∀ j, j < 6 → ((u.putCoeffs rd.val ((s.ring .F12).coeffs g)).retired q).getE (rs1.val + j)
        = (((s.putElt .F12 rd.val g).putPoint .F2 rs1.val P).retired q').getE (rs1.val + j) := by
  have hlength : ((s.ring .F12).coeffs g).length = 12 := ringOf_coeffs_length s.p s.kv .F12 g
  have hpoint (j : Nat) (hj : j < (pointCoeffs P).length) : u.getE (rs1.val + j) = wordOf (s.phi (pointCoeffs P)[j]) := by
    have hapart := h.rd_rs1
    have hj6 : j < 6 := hj
    rw [hu _ (by unfold Apart at hapart; omega), State.getE_point_afterLine h.rs1_fits hj]
  have hwords := State.getE_parts_eq_fused hcfg (hlength ▸ h.rd_fits) h.rs1_fits (hlength ▸ h.rd_rs1) hpoint
  simp only [State.getE_retired, State.putElt, State.putPoint_F2]
  rw [hlength, show (pointCoeffs P).length = 6 from rfl] at hwords
  exact hwords

end Parts

/-- LDBL, FSQR and MLACC leave the words of MLDBL. -/
theorem mldbl_eq_parts {c rd rs1 rs2 : Reg} {s : State} (hc : Fits c.val 6) (hcrd : Apart c.val 6 rd.val 12)
    (hcrs1 : Apart c.val 6 rs1.val 6) (hapart : Apart rd.val 12 rs1.val 6) (hcrs2 : Apart c.val 6 rs2.val 2)
    (hrs2rd : Apart rs2.val 2 rd.val 12) (hrs2rs1 : Apart rs2.val 2 rs1.val 6)
    (hready : s.Ready [] [(rd.val, 12), (rs1.val, 6), (rs2.val, 2)] [0, 2, 3, 75, 76, 78, 79]) :
    ∃ t1 t2 t3 t : State, exec (.ldbl c rs1) s = .next t1 ∧ exec (.fsqr .F12 rd rd) t1 = .next t2
      ∧ exec (.mlacc rd c rs2) t2 = .next t3 ∧ exec (.mldbl rd rs1 rs2) s = .next t
      ∧ t3.instret = s.instret + 3 ∧ t.instret = s.instret + 1
      ∧ (∀ j, j < 12 → t3.getE (rd.val + j) = t.getE (rd.val + j))
      ∧ ∀ j, j < 6 → t3.getE (rs1.val + j) = t.getE (rs1.val + j) := by
  obtain ⟨hs, hfits, hreduced, hkst⟩ := id hready
  simp only [List.nil_append, List.forall_mem_cons, List.not_mem_nil, false_imp_iff, implies_true, and_true] at hfits hreduced
  obtain ⟨hrd, hrs1, hrs2⟩ := hfits
  obtain ⟨hrdR, hrs1R, hrs2R⟩ := hreduced
  have hline : s.Ready [(c.val, 6)] [(rs1.val, 6)] [0, 75, 76, 78, 79] :=
    ⟨hs, by simp [hc, hrs1], by simpa using hrs1R, hkst.of_subset (by decide)⟩
  have hldbl : exec (.ldbl c rs1) s = .next (s.afterLine c rs1 (s.lineDoubleAt rs1).1.coeffs (pointCoeffs (s.lineDoubleAt rs1).2)) :=
    exec_retired rfl rfl (hline.commonChecks_ldbl hcrs1) (by rfl) (by simp)
  have hparts : PartsOperands s c rd rs1 rs2 (s.elt .F12 rd) (s.residue rs2) (s.residue (rs2.val + 1)) :=
    { configured := hs, kst := hkst.of_subset (by decide), c_fits := hc, rd_fits := hrd, rs1_fits := hrs1
      rp_fits := hrs2, c_rd := hcrd, c_rs1 := hcrs1, rd_rs1 := hapart, c_rp := hcrs2, rp_rd := hrs2rd, rp_rs1 := hrs2rs1
      holds_f := State.holds_elt hs hrdR, f_canonical := hs.elt_canonical .F12 rd
      holds_scalars := State.holds_residues hs hrs2R, px_lt := hs.val_lt _, py_lt := hs.val_lt _ }
  obtain ⟨t2, hfsqr, hcfg, hinstret, hu, hmlacc⟩ :=
    hparts.exec_fsqr_mlacc (P := (s.lineDoubleAt rs1).2) (hs.lineDoubleAt_below rs1)
  obtain ⟨hacc, hpoint⟩ := hparts.getE_eq (s.accumulate ((s.ring .F12).mul (s.elt .F12 rd) (s.elt .F12 rd)) (s.lineDoubleAt rs1).1
    (s.residue rs2) (s.residue (rs2.val + 1))) (t2.pc + 1) (s.pc + 1) hcfg hu
  refine ⟨_, t2, _, _, hldbl, hfsqr, hmlacc, exec_retired rfl rfl (hready.commonChecks_mldbl hapart) (by rfl) (by simp), ?_, by simp,
    hacc, hpoint⟩
  simp [hinstret]
  bv_omega

/-- LADD and MLACC leave the words of MLADD. -/
theorem mladd_eq_parts {c rd rs1 rs2 rsp : Reg} {s : State} (hrsp : rsp.val = rs2.val + 4) (hc : Fits c.val 6)
    (hcrd : Apart c.val 6 rd.val 12) (hcrs1 : Apart c.val 6 rs1.val 6) (hapart : Apart rd.val 12 rs1.val 6)
    (hcrs2 : Apart c.val 6 rs2.val 6) (hrs2rd : Apart rs2.val 6 rd.val 12) (hrs2rs1 : Apart rs2.val 6 rs1.val 6)
    (hready : s.Ready [] [(rd.val, 12), (rs1.val, 6), (rs2.val, 6)] [0, 2, 3, 78, 79]) :
    ∃ t1 t2 t : State, exec (.ladd c rs1 rs2) s = .next t1 ∧ exec (.mlacc rd c rsp) t1 = .next t2
      ∧ exec (.mladd rd rs1 rs2) s = .next t
      ∧ t2.instret = s.instret + 2 ∧ t.instret = s.instret + 1
      ∧ (∀ j, j < 12 → t2.getE (rd.val + j) = t.getE (rd.val + j))
      ∧ ∀ j, j < 6 → t2.getE (rs1.val + j) = t.getE (rs1.val + j) := by
  obtain ⟨hs, hfits, hreduced, hkst⟩ := id hready
  simp only [List.nil_append, List.forall_mem_cons, List.not_mem_nil, false_imp_iff, implies_true, and_true] at hfits hreduced
  obtain ⟨hrd, hrs1, hrs2⟩ := hfits
  obtain ⟨hrdR, hrs1R, hrs2R⟩ := hreduced
  have hrs2R4 : s.Reduced rs2.val 4 := fun j hj => hrs2R j (by omega)
  have hscalars : s.Holds rsp.val [s.residue (rs2.val + 4), s.residue (rs2.val + 5)] := by
    have hreduced4 : s.Reduced (rs2.val + 4) 2 := fun j hj => by rw [Nat.add_assoc]; exact hrs2R (4 + j) (by omega)
    rw [hrsp]
    exact State.holds_residues hs hreduced4
  unfold Apart at hcrs2 hrs2rd hrs2rs1
  unfold Fits at hrs2
  have hrs24 : Fits rs2.val 4 := by unfold Fits; omega
  have hline : s.Ready [(c.val, 6)] [(rs1.val, 6), (rs2.val, 4)] [0, 78, 79] :=
    ⟨hs, by simp [hc, hrs1, hrs24], by simpa using ⟨hrs1R, hrs2R4⟩, hkst.of_subset (by decide)⟩
  have hladd : exec (.ladd c rs1 rs2) s
      = .next (s.afterLine c rs1 (s.lineAddAt rs1 rs2).1.coeffs (pointCoeffs (s.lineAddAt rs1 rs2).2)) :=
    exec_retired rfl rfl (hline.commonChecks_ladd hcrs1) (by rfl) (by simp)
  have hparts : PartsOperands s c rd rs1 rsp (s.elt .F12 rd) (s.residue (rs2.val + 4)) (s.residue (rs2.val + 5)) :=
    { configured := hs, kst := hkst.of_subset (by decide), c_fits := hc, rd_fits := hrd, rs1_fits := hrs1
      rp_fits := by unfold Fits; omega, c_rd := hcrd, c_rs1 := hcrs1, rd_rs1 := hapart
      c_rp := by unfold Apart; omega, rp_rd := by unfold Apart; omega, rp_rs1 := by unfold Apart; omega
      holds_f := State.holds_elt hs hrdR, f_canonical := hs.elt_canonical .F12 rd
      holds_scalars := hscalars, px_lt := hs.val_lt _, py_lt := hs.val_lt _ }
  obtain ⟨hacc, hpoint⟩ := hparts.getE_eq (line := (s.lineAddAt rs1 rs2).1) (P := (s.lineAddAt rs1 rs2).2)
    (s.accumulate (s.elt .F12 rd) (s.lineAddAt rs1 rs2).1 (s.residue (rs2.val + 4)) (s.residue (rs2.val + 5))) (s.pc + 1 + 1) (s.pc + 1)
    State.sameConfig_afterLine fun _ _ => rfl
  refine ⟨_, _, _, hladd, hparts.exec_mlacc (hs.lineAddAt_below rs1 rs2),
    exec_retired rfl rfl (hready.commonChecks_mladd hapart) (by rfl) (by simp), ?_, by simp, hacc, hpoint⟩
  simp [State.afterLine]
  bv_omega

/-- Settles O38: the parts hold the operands of the fused instruction in registers, so that each reads what the fused one computes. -/
theorem fusedAgreeWithParts : Obligations.FusedAgreeWithParts := by
  unfold Obligations.FusedAgreeWithParts
  intro c rd rs1 rs2 s hc hcrd hcrs1 hapart
  exact ⟨mldbl_eq_parts hc hcrd hcrs1 hapart, fun rsp hrsp => mladd_eq_parts hrsp hc hcrd hcrs1 hapart⟩

end Sys2Proof.Machine
end

section
/-! PROOFS. What an instruction writes to the register file, and what it reads of it: the register frame (30_encoding R161), reduced
results (41_field R230), and the bits above W (00_scope R16). -/

namespace Sys2Proof.Machine

/-! ## Writing several groups -/

/-- Write groups of registers, (base, words), one after the other. -/
def State.writeGroups (s : State) : List (Nat × List Word) → State
  | [] => s
  | g :: gs => (s.setGroup g.1 g.2).writeGroups gs

/-- `s` with another register file. -/
def State.withRegs (s : State) (e' : Vector Word 64) : State := { s with e := e' }

theorem State.setGroup_withRegs (s : State) (i : Nat) (ws : List Word) :
    ∃ e', s.setGroup i ws = s.withRegs e' := ⟨_, s.setGroup_eq i ws⟩

/-- Writing registers changes nothing but the register file. -/
theorem State.writeGroups_eq (s : State) (gs : List (Nat × List Word)) : ∃ e', s.writeGroups gs = s.withRegs e' := by
  induction gs generalizing s with
  | nil => exact ⟨s.e, rfl⟩
  | cons g gs ih =>
    obtain ⟨e1, h1⟩ := s.setGroup_withRegs g.1 g.2
    obtain ⟨e2, h2⟩ := ih (s.withRegs e1)
    exact ⟨e2, by rw [State.writeGroups, h1, h2]; rfl⟩

theorem State.getE_writeGroups_out (s : State) {gs : List (Nat × List Word)} {r : Nat}
    (h : ∀ g ∈ gs, r < g.1 ∨ g.1 + g.2.length ≤ r) : (s.writeGroups gs).getE r = s.getE r := by
  induction gs generalizing s with
  | nil => rfl
  | cons g gs ih =>
    obtain ⟨hg, hgs⟩ := List.forall_mem_cons.mp h
    rw [State.writeGroups, ih _ hgs, State.getE_setGroup_out _ _ _ _ hg]

/-- A register of a written group holds one of the words written, the same whatever the register file was. -/
theorem State.getE_writeGroups_in {gs : List (Nat × List Word)} (hfits : ∀ g ∈ gs, Fits g.1 g.2.length) {r : Nat}
    (hr : ∃ g ∈ gs, g.1 ≤ r ∧ r < g.1 + g.2.length) :
    ∃ w, (∃ g ∈ gs, w ∈ g.2) ∧ ∀ s : State, (s.writeGroups gs).getE r = w := by
  induction gs with
  | nil => simp at hr
  | cons g gs ih =>
    obtain ⟨hg, hgs⟩ := List.forall_mem_cons.mp hfits
    by_cases hlater : ∃ g ∈ gs, g.1 ≤ r ∧ r < g.1 + g.2.length
    · obtain ⟨w, ⟨g', hg', hw⟩, hget⟩ := ih hgs hlater
      exact ⟨w, ⟨g', List.mem_cons_of_mem _ hg', hw⟩, fun s => hget _⟩
    · obtain ⟨hlow, hhigh⟩ : g.1 ≤ r ∧ r < g.1 + g.2.length := by
        obtain ⟨g', hg', hin⟩ := hr
        obtain rfl | htail := List.mem_cons.mp hg'
        · exact hin
        · exact absurd ⟨g', htail, hin⟩ hlater
      refine ⟨g.2[r - g.1]'(by omega), ⟨g, List.mem_cons_self, List.getElem_mem _⟩, fun s => ?_⟩
      have hout : ∀ g' ∈ gs, r < g'.1 ∨ g'.1 + g'.2.length ≤ r := fun g' hg' =>
        Classical.byContradiction fun hcon => hlater ⟨g', hg', by omega⟩
      rw [State.writeGroups, State.getE_writeGroups_out _ hout]
      have hread := State.getE_setGroup_in s g.1 (r - g.1) g.2 (by omega) hg
      rwa [show g.1 + (r - g.1) = r by omega] at hread

/-! ## Another register file -/

section WithRegs

variable (s : State) (e' : Vector Word 64)

@[simp] theorem State.withRegs_pc : (s.withRegs e').pc = s.pc := rfl
@[simp] theorem State.withRegs_freeCtr : (s.withRegs e').freeCtr = s.freeCtr := rfl
@[simp] theorem State.withRegs_rsq : (s.withRegs e').rsq = s.rsq := rfl
@[simp] theorem State.withRegs_rone : (s.withRegs e').rone = s.rone := rfl
@[simp] theorem State.withRegs_p : (s.withRegs e').p = s.p := rfl
@[simp] theorem State.withRegs_width : (s.withRegs e').width = s.width := rfl
@[simp] theorem State.withRegs_radix : (s.withRegs e').radix = s.radix := rfl
@[simp] theorem State.withRegs_val (x : Nat) : (s.withRegs e').val x = s.val x := rfl
@[simp] theorem State.withRegs_phi (x : Nat) : (s.withRegs e').phi x = s.phi x := rfl
@[simp] theorem State.withRegs_kv : (s.withRegs e').kv = s.kv := rfl
@[simp] theorem State.withRegs_redc (T : Nat) : (s.withRegs e').redc T = s.redc T := rfl
@[simp] theorem State.withRegs_mont (a b : Nat) : (s.withRegs e').mont a b = s.mont a b := rfl
@[simp] theorem State.withRegs_ring (ft : FieldType) : (s.withRegs e').ring ft = s.ring ft := rfl
@[simp] theorem State.withRegs_kelt (ft : FieldType) (k : Nat) : (s.withRegs e').kelt ft k = s.kelt ft k := rfl
@[simp] theorem State.withRegs_curveA (ft : FieldType) : (s.withRegs e').curveA ft = s.curveA ft := rfl
@[simp] theorem State.withRegs_curveB (ft : FieldType) : (s.withRegs e').curveB ft = s.curveB ft := rfl
@[simp] theorem State.withRegs_inCyclotomic (ft : FieldType) (x : Elt ft) :
    (s.withRegs e').inCyclotomic ft x = s.inCyclotomic ft x := rfl
@[simp] theorem State.withRegs_accumulate (f : E6 × E6) (c : EllCoeff) (px py : Nat) :
    (s.withRegs e').accumulate f c px py = s.accumulate f c px py := rfl
@[simp] theorem State.withRegs_getC (i : Ctr) : (s.withRegs e').getC i = s.getC i := rfl
@[simp] theorem State.withRegs_holds (c : Cond) : (s.withRegs e').holds c = s.holds c := by cases c <;> rfl

end WithRegs

section SameLowBits

variable {s : State} {e' : Vector Word 64} (hw : ∀ k, (s.withRegs e').w k = s.w k)
include hw

theorem State.elt_withRegs (ft : FieldType) (i : Nat) : (s.withRegs e').elt ft i = s.elt ft i := by simp [State.elt, hw]

theorem State.point_withRegs (ft : FieldType) (i : Nat) : (s.withRegs e').point ft i = s.point ft i := by
  simp [State.point, State.elt_withRegs hw]

theorem State.residue_withRegs (i : Nat) : (s.withRegs e').residue i = s.residue i := by simp [State.residue, hw]

theorem State.ellCoeff_withRegs (i : Nat) : (s.withRegs e').ellCoeff i = s.ellCoeff i := by
  simp [State.ellCoeff, State.elt_withRegs hw]

theorem State.lineDoubleAt_withRegs (i : Nat) : (s.withRegs e').lineDoubleAt i = s.lineDoubleAt i := by
  simp [State.lineDoubleAt, State.point_withRegs hw]

theorem State.lineAddAt_withRegs (i j : Nat) : (s.withRegs e').lineAddAt i j = s.lineAddAt i j := by
  simp [State.lineAddAt, State.point_withRegs hw, State.elt_withRegs hw]

theorem State.multiword_withRegs (i n : Nat) : (s.withRegs e').multiword i n = s.multiword i n := by
  induction n generalizing i with
  | zero => rfl
  | succ n ih => simp [State.multiword, hw, ih]

theorem State.bitOf_withRegs (r : Reg) (i : Nat) : (s.withRegs e').bitOf r i = s.bitOf r i := by
  rw [State.bitOf, State.bitOf, hw, State.withRegs_width]

/-- The common checks read the active width of a register alone. -/
theorem State.commonChecks_withRegs (o : Operands) : (s.withRegs e').commonChecks o = s.commonChecks o := by
  have hregs : checkReducedRegs (s.withRegs e') o = checkReducedRegs s o := by simp [checkReducedRegs, hw]
  have hrest : checkConfig (s.withRegs e') o = checkConfig s o ∧ checkDmem (s.withRegs e') o = checkDmem s o
      ∧ checkReducedKst (s.withRegs e') o = checkReducedKst s o := ⟨rfl, rfl, rfl⟩
  obtain ⟨hconfig, hdmem, hkst⟩ := hrest
  rw [State.commonChecks, State.commonChecks, hregs, hconfig, hdmem, hkst]

end SameLowBits

/-- A retired instruction keeps a difference of the register files. -/
theorem State.retire_withRegs (u : State) (e' : Vector Word 64) (q : Half) (b : Bool) :
    ({ state := u.withRegs e', pc := q, halt := b } : Result).retire
      = ({ state := u, pc := q, halt := b } : Result).retire.withRegs e' := by
  cases b
  · simp only [Result.retire_of_not_halt]
    rfl
  · rfl

/-- Words of numbers below p are below p. -/
theorem State.wordsBelow_wordOf (s : State) {α : Type} {f : α → Nat} (h : ∀ x, f x < s.p) (xs : List α) :
    WordsBelow s.p (xs.map fun x => wordOf (f x)) := fun w hw => by
  obtain ⟨x, -, rfl⟩ := List.mem_map.mp hw
  rw [wordOf_toNat_of_lt s _ (Nat.lt_trans (h x) s.p_lt_radix)]
  exact h x

theorem wordsBelow_replicate_zero {p : Nat} (hp : 0 < p) (n : Nat) : WordsBelow p (List.replicate n 0) := fun w hw => by
  rw [List.eq_of_mem_replicate hw, BitVec.ofNat_eq_ofNat, BitVec.toNat_zero]
  exact hp

/-- Free word number `j` from here on, reduced modulo p (log 5). -/
def State.freeWordAt (s : State) (j : Nat) : Word := wordOf ((Config.freeWord (s.freeCtr + j)).toNat % s.p)

theorem State.putFree_eq (s : State) (i n : Nat) :
    s.putFree i n = ({ s with freeCtr := s.freeCtr + n } : State).setGroup i ((List.range n).map s.freeWordAt) := by
  obtain ⟨ws, hws⟩ : ∃ ws, ws = (List.range n).map s.freeWordAt := ⟨_, rfl⟩
  have hcomm (t : State) (m : Nat) : { t.setGroup i ws with freeCtr := m } = ({ t with freeCtr := m } : State).setGroup i ws := by
    clear hws
    induction ws generalizing t i with
    | nil => rfl
    | cons w ws ih => exact ih (i + 1) (t.setE i w)
  rw [← hws, ← hcomm, hws]
  rfl

/-! ## What the meaning of an instruction does to the register file -/

/-- The meaning `run` of the instruction `i`, from `s` and from `s` with the register file `e'`: it takes the same fault, or writes
the same words to the destination groups of R161, from states that differ in their register file alone. The words of a field
result are below p. -/
def RunAgrees (i : Instr) (s : State) (e' : Vector Word 64) (run : State → Except FaultInfo Result) : Prop :=
  (∃ f, run s = .error f ∧ run (s.withRegs e') = .error f)
  ∨ ∃ (u : State) (gs : List (Nat × List Word)) (q : Half) (b : Bool),
      u.e = s.e ∧ gs.map (fun g => (g.1, g.2.length)) = destGroups i
      ∧ run s = .ok { state := u.writeGroups gs, pc := q, halt := b }
      ∧ run (s.withRegs e') = .ok { state := (u.withRegs e').writeGroups gs, pc := q, halt := b }
      ∧ (isFieldResult i.opcode = true → s.Configured → s.commonChecks (operandsOf i) = none → ∀ g ∈ gs, WordsBelow s.p g.2)

section RunAgrees

variable {i : Instr} {s : State} {e' : Vector Word 64} {run : State → Except FaultInfo Result} {rd : Nat}

/-- One group of words. -/
theorem RunAgrees.setGroup {ws : State → List Word} (hrun : ∀ t : State, run t = .ok (t.setGroup rd (ws t)).fallThrough)
    (hws : ws (s.withRegs e') = ws s) (hdest : destGroups i = [(rd, (ws s).length)])
    (hbelow : isFieldResult i.opcode = true → s.Configured → s.commonChecks (operandsOf i) = none → WordsBelow s.p (ws s)) :
    RunAgrees i s e' run := by
  refine .inr ⟨s, [(rd, ws s)], s.pc + 1, false, rfl, hdest.symm, ?_, ?_, by simpa using hbelow⟩
  · simp [hrun, State.fallThrough, State.writeGroups]
  · simp [hrun, hws, State.fallThrough, State.writeGroups]

/-- No register. -/
theorem RunAgrees.none {u : State → State} {q : State → Half} {b : Bool} (hrun : ∀ t : State, run t = .ok ⟨u t, q t, b⟩)
    (hu : u (s.withRegs e') = (u s).withRegs e') (hq : q (s.withRegs e') = q s) (he : (u s).e = s.e) (hdest : destGroups i = []) :
    RunAgrees i s e' run :=
  .inr ⟨u s, [], q s, b, he, hdest.symm, hrun s, by rw [hrun, hu, hq]; rfl, by simp⟩

/-- One group of residues. -/
theorem RunAgrees.putCoeffs {xs : State → List Nat} (hrun : ∀ t : State, run t = .ok (t.putCoeffs rd (xs t)).fallThrough)
    (hxs : xs (s.withRegs e') = xs s) (hdest : destGroups i = [(rd, (xs s).length)]) : RunAgrees i s e' run :=
  .setGroup (ws := fun t => (xs t).map fun x => wordOf (t.phi x)) hrun (by simp [hxs]) (by simpa using hdest)
    fun _ hs _ => s.wordsBelow_wordOf hs.phi_lt _

/-- One element. -/
theorem RunAgrees.putElt {ft : FieldType} {x : State → Elt ft} (hrun : ∀ t : State, run t = .ok (t.putElt ft rd (x t)).fallThrough)
    (hx : x (s.withRegs e') = x s) (hdest : destGroups i = [(rd, degree ft)]) : RunAgrees i s e' run :=
  .putCoeffs (xs := fun t => (t.ring ft).coeffs (x t)) hrun (by simp [hx]) (by rw [hdest, State.ring, ringOf_coeffs_length])

/-- One point. -/
theorem RunAgrees.putPoint {ft : FieldType} {P : State → Point (Elt ft)}
    (hrun : ∀ t : State, run t = .ok (t.putPoint ft rd (P t)).fallThrough) (hP : P (s.withRegs e') = P s)
    (hdest : destGroups i = [(rd, 3 * degree ft)]) : RunAgrees i s e' run := by
  refine .putCoeffs (xs := fun t => (t.ring ft).coeffs (P t).x ++ (t.ring ft).coeffs (P t).y ++ (t.ring ft).coeffs (P t).z) hrun
    (by simp [hP]) ?_
  rw [hdest, List.length_append, List.length_append, State.ring, ringOf_coeffs_length, ringOf_coeffs_length, ringOf_coeffs_length]
  simp only [List.cons.injEq, Prod.mk.injEq, true_and, and_true]
  omega

/-- A group of residues and a point over F2. -/
theorem RunAgrees.coeffsAndPoint {rd' : Nat} {xs : State → List Nat} {P : State → Point E2}
    (hrun : ∀ t : State, run t = .ok ((t.putCoeffs rd (xs t)).putPoint .F2 rd' (P t)).fallThrough)
    (hxs : xs (s.withRegs e') = xs s) (hP : P (s.withRegs e') = P s) (hdest : destGroups i = [(rd, (xs s).length), (rd', 6)]) :
    RunAgrees i s e' run := by
  have hphi (t : State) (zs : List Nat) (x : Nat) : (t.putCoeffs rd zs).phi x = t.phi x := (t.sameConfig_putCoeffs rd zs).phi x
  refine .inr ⟨s, [(rd, (xs s).map fun x => wordOf (s.phi x)), (rd', (pointCoeffs (P s)).map fun x => wordOf (s.phi x))],
    s.pc + 1, false, rfl, by simpa [pointCoeffs] using hdest.symm, ?_, ?_, fun _ hs _ => ?_⟩
  · rw [hrun, State.putPoint_F2, State.putCoeffs, funext (hphi s (xs s))]
    simp [State.fallThrough, State.writeGroups, State.putCoeffs]
  · rw [hrun, State.putPoint_F2, State.putCoeffs, funext (hphi _ _), hxs, hP]
    simp [State.fallThrough, State.writeGroups, State.putCoeffs]
  · simpa using ⟨s.wordsBelow_wordOf hs.phi_lt _, s.wordsBelow_wordOf hs.phi_lt _⟩

/-- One word and the carry. -/
theorem RunAgrees.setWordAndCarry {v : State → Word} {c : State → Bool}
    (hrun : ∀ t : State, run t = .ok ((t.setE rd (v t)).setFlC (c t)).fallThrough) (hv : v (s.withRegs e') = v s)
    (hc : c (s.withRegs e') = c s) (hdest : destGroups i = [(rd, 1)]) (hfield : isFieldResult i.opcode = false) :
    RunAgrees i s e' run :=
  .inr ⟨s.setFlC (c s), [(rd, [v s])], s.pc + 1, false, rfl, hdest.symm, hrun s, by rw [hrun, hv, hc]; rfl, by simp [hfield]⟩

/-- The meaning matters at the two states alone. -/
theorem RunAgrees.of_eq {run' : State → Except FaultInfo Result} (h : RunAgrees i s e' run') (hs : run s = run' s)
    (hs' : run (s.withRegs e') = run' (s.withRegs e')) : RunAgrees i s e' run := by
  unfold RunAgrees at h ⊢
  rwa [hs, hs']

/-- Free words (log 5). -/
theorem RunAgrees.putFree {n : Nat} (hrun : run s = .ok (s.putFree rd n).fallThrough)
    (hrun' : run (s.withRegs e') = .ok ((s.withRegs e').putFree rd n).fallThrough) (hdest : destGroups i = [(rd, n)]) :
    RunAgrees i s e' run := by
  refine .inr ⟨{ s with freeCtr := s.freeCtr + n }, [(rd, (List.range n).map s.freeWordAt)], s.pc + 1, false, rfl,
    by simpa using hdest.symm, ?_, ?_, fun _ hs _ => ?_⟩
  · rw [hrun, State.putFree_eq]
    simp [State.fallThrough, State.writeGroups]
  · rw [hrun', State.putFree_eq]
    simp [State.fallThrough, State.writeGroups]
    rfl
  · rw [List.forall_mem_singleton]
    exact s.wordsBelow_wordOf (fun _ => Nat.mod_lt _ hs.p_pos) (List.range n)

end RunAgrees

theorem State.dmemWrite_withRegs_self (s : State) (ea : Nat) (ws : List Word) :
    (s.dmemWrite ea ws).withRegs s.e = s.dmemWrite ea ws := by
  rw [State.dmemWrite_eq]
  rfl

/-! ## Every instruction -/

/-- The moves, the only instructions that see the bits above W (R16). -/
def isMove (op : Opcode) : Prop := op ∈ [Opcode.mov, .ldk, .ld, .st]

theorem exec_fmul_agrees {ft : FieldType} {rd rs1 rs2 : Reg} {s : State} {e' : Vector Word 64}
    (hw : ∀ k, (s.withRegs e').w k = s.w k) :
    ∃ run, (∀ t, exec (.fmul ft rd rs1 rs2) t = perform (.fmul ft rd rs1 rs2) t run) ∧ RunAgrees (.fmul ft rd rs1 rs2) s e' run := by
  by_cases hft : ft = .F1
  case neg =>
    refine ⟨fun t => .ok (t.putElt ft rd ((t.ring ft).mul (t.elt ft rs1) (t.elt ft rs2))).fallThrough, fun t => ?_,
      .putElt (fun _ => rfl) (by simp [State.elt_withRegs hw]) rfl⟩
    cases ft
    case F1 => exact absurd rfl hft
    all_goals rfl
  case pos =>
    subst hft
    refine ⟨_, fun _ => rfl, .setGroup (ws := fun t => [wordOf (t.mont (t.w rs1) (t.w rs2))]) (fun _ => rfl) (by simp [hw]) rfl
      fun _ hs hchecks => ?_⟩
    obtain ⟨-, -, -, -, -, hregs, -⟩ := (s.commonChecks_none _).mp hchecks
    have hreduced := (checkReducedRegs_none s _).mp hregs
    have hrs1 : s.w rs1 < s.p := hreduced _ (by simp [operandsOf, Operands.three, Operands.checkedRegs, groupAt, Role.checked, degree])
    have hrs2 : s.w rs2 < s.p := hreduced _ (by simp [operandsOf, Operands.three, Operands.checkedRegs, groupAt, Role.checked, degree])
    have hlt : s.mont (s.w rs1) (s.w rs2) < s.p := by
      rw [State.mont, hs.redc_eq_val (s.mul_lt_p_mul_radix hrs1 hrs2)]
      exact hs.val_lt _
    simpa [WordsBelow, wordOf_toNat_of_lt s _ (Nat.lt_trans hlt s.p_lt_radix)] using hlt

/-- The meaning of every instruction writes its destination groups, from what it reads of the active width; a move is compared with
itself. -/
theorem exec_agrees (i : Instr) (s : State) (e' : Vector Word 64) (hw : ∀ k, (s.withRegs e').w k = s.w k)
    (hmove : isMove i.opcode → e' = s.e) : ∃ run, (∀ t, exec i t = perform i t run) ∧ RunAgrees i s e' run := by
  cases i
  case fmul => exact exec_fmul_agrees hw
  case fadd | fsub | fneg | fsqr | ffrob | fconj | fpow =>
    exact ⟨_, fun _ => rfl, .putElt (fun _ => rfl) (by simp [State.elt_withRegs hw, hw]) rfl⟩
  case fmul024 | mlacc =>
    exact ⟨_, fun _ => rfl, .putElt (fun _ => rfl)
      (by simp [State.elt_withRegs hw, State.ellCoeff_withRegs hw, State.residue_withRegs hw]) rfl⟩
  case padd | pmadd | pdbl | pneg | pmulq =>
    exact ⟨_, fun _ => rfl, .putPoint (fun _ => rfl) (by simp [State.point_withRegs hw]) rfl⟩
  case jmp | bf | bcnz | cset | caddi | nop | halt =>
    exact ⟨_, fun _ => rfl, .none (fun _ => rfl) rfl (by simp) rfl rfl⟩
  case bbs | bbc => exact ⟨_, fun _ => rfl, .none (fun _ => rfl) rfl (by simp [State.bitOf_withRegs hw]) rfl rfl⟩
  case bcmp => exact ⟨_, fun _ => rfl, .none (fun _ => rfl) (by simp only [State.multiword_withRegs hw]; rfl) rfl rfl rfl⟩
  case ponc => exact ⟨_, fun _ => rfl, .none (fun _ => rfl) (by simp only [State.point_withRegs hw]; rfl) rfl rfl rfl⟩
  case cblen => exact ⟨_, fun _ => rfl, .none (fun _ => rfl) (by simp only [hw]; rfl) rfl rfl rfl⟩
  case ldbl | ladd =>
    exact ⟨_, fun _ => rfl, .coeffsAndPoint (fun _ => rfl) (by simp [State.lineDoubleAt_withRegs hw, State.lineAddAt_withRegs hw])
      (by simp [State.lineDoubleAt_withRegs hw, State.lineAddAt_withRegs hw]) rfl⟩
  case mldbl | mladd =>
    exact ⟨_, fun _ => rfl, .coeffsAndPoint (fun _ => rfl)
      (by simp [State.lineDoubleAt_withRegs hw, State.lineAddAt_withRegs hw, State.elt_withRegs hw, State.residue_withRegs hw])
      (by simp [State.lineDoubleAt_withRegs hw, State.lineAddAt_withRegs hw]) rfl⟩
  case bmul => exact ⟨_, fun _ => rfl, .setGroup (fun _ => rfl) (by simp [hw]) rfl nofun⟩
  case badd | bsub =>
    exact ⟨_, fun _ => rfl, .setWordAndCarry (fun _ => rfl) (by simp [hw]) (by simp [hw]) rfl rfl⟩
  case bredc rd rs1 =>
    exact ⟨_, fun _ => rfl, .setGroup (ws := fun t => [wordOf (t.redc (t.w (rs1.val + 1) * t.radix + t.w rs1))]) (fun _ => rfl)
      (by simp [hw]) rfl nofun⟩
  case bseti rd imm => exact ⟨_, fun _ => rfl, .setGroup (ws := fun _ => [wordOf imm.toNat]) (fun _ => rfl) rfl rfl nofun⟩
  case mov | ldk | ld =>
    exact ⟨_, fun _ => rfl, .setGroup (fun _ => rfl) (by rw [hmove (by simp [isMove, Instr.opcode])]; rfl)
      (by simp [destGroups, State.group, State.dmemRead]) nofun⟩
  case st =>
    obtain rfl : e' = s.e := hmove (by simp [isMove, Instr.opcode])
    exact ⟨_, fun _ => rfl, .none (fun _ => rfl) (s.dmemWrite_withRegs_self _ _).symm rfl (by simp) rfl⟩
  case finv ft rd rs1 =>
    refine ⟨_, fun _ => rfl, ?_⟩
    cases hinv : (s.ring ft).inv (s.elt ft rs1) with
    | none => exact .inl ⟨(.notInvertible, rs1.val), by simp [hinv], by simp [State.elt_withRegs hw, hinv]⟩
    | some b =>
      exact .of_eq (run' := fun t => .ok (t.putElt ft rd b).fallThrough) (.putElt (fun _ => rfl) rfl rfl) (by simp [hinv])
        (by simp [State.elt_withRegs hw, hinv])
  case paff ft rd rs1 =>
    refine ⟨_, fun _ => rfl, ?_⟩
    cases haff : pointAffine (s.ring ft) (s.point ft rs1) with
    | none => exact .inl ⟨(.notInvertible, rs1.val + 2 * degree ft), by simp [haff], by simp [State.point_withRegs hw, haff]⟩
    | some P =>
      exact .of_eq (run' := fun t => .ok (t.putPoint ft rd P).fallThrough) (.putPoint (fun _ => rfl) rfl rfl) (by simp [haff])
        (by simp [State.point_withRegs hw, haff])
  case fcsqr ft rd rs1 =>
    refine ⟨_, fun _ => rfl, ?_⟩
    cases hin : s.inCyclotomic ft (s.elt ft rs1) with
    | true =>
      exact .of_eq (run' := fun t => .ok (t.putElt ft rd ((t.ring ft).mul (t.elt ft rs1) (t.elt ft rs1))).fallThrough)
        (.putElt (fun _ => rfl) (by simp [State.elt_withRegs hw]) rfl) (by simp [hin]) (by simp [State.elt_withRegs hw, hin])
    | false => exact .putFree (by simp [hin]) (by simp [State.elt_withRegs hw, hin]) rfl
  case fcexp ft rd rs1 rs2 =>
    refine ⟨_, fun _ => rfl, ?_⟩
    by_cases he : s.w rs2 = 0
    · exact .of_eq (run' := fun t => .ok (t.putElt ft rd (t.ring ft).one).fallThrough) (.putElt (fun _ => rfl) (by simp) rfl)
        (by simp [he]) (by simp [hw, he])
    cases hin : s.inCyclotomic ft (s.elt ft rs1) with
    | true =>
      exact .of_eq (run' := fun t => .ok (t.putElt ft rd ((t.ring ft).pow (t.elt ft rs1) (t.w rs2))).fallThrough)
        (.putElt (fun _ => rfl) (by simp [State.elt_withRegs hw, hw]) rfl) (by simp [hin, he])
        (by simp [State.elt_withRegs hw, hin, hw, he])
    | false => exact .putFree (by simp [hin, he]) (by simp [State.elt_withRegs hw, hin, hw, he]) rfl
  case fzero =>
    exact ⟨_, fun _ => rfl, .setGroup (fun _ => rfl) rfl (by simp [destGroups]) fun _ hs _ =>
      wordsBelow_replicate_zero hs.p_pos _⟩
  case fone ft rd =>
    refine ⟨_, fun _ => rfl, .setGroup (fun _ => rfl) rfl ?_ fun _ hs _ => ?_⟩
    · rw [List.length_cons, List.length_replicate, Nat.sub_one_add_one (Nat.ne_of_gt (degree_pos ft))]
      rfl
    · exact List.forall_mem_cons.mpr ⟨hs.rone ▸ Nat.mod_lt _ hs.p_pos, wordsBelow_replicate_zero hs.p_pos _⟩
  case tom =>
    exact ⟨_, fun _ => rfl, .setGroup (fun _ => rfl) (by simp [hw]) (by simp [destGroups]) fun _ hs _ =>
      s.wordsBelow_wordOf (fun _ => hs.mont_rsq _ ▸ Nat.mod_lt _ hs.p_pos) _⟩
  case fromm =>
    exact ⟨_, fun _ => rfl, .setGroup (fun _ => rfl) (by simp [hw]) (by simp [destGroups]) fun _ hs _ =>
      s.wordsBelow_wordOf (fun _ => hs.redc_w _ ▸ hs.val_lt _) _⟩

/-- Two runs from register files of the same active width take the same fault or write the same words: what the three rules below
rest on. -/
theorem exec_pair_cases (i : Instr) (s : State) (e' : Vector Word 64) (hw : ∀ k, (s.withRegs e').w k = s.w k)
    (hmove : isMove i.opcode → e' = s.e) :
    (∃ cause einfo, exec i s = .next (s.takeFault cause einfo (encode i))
        ∧ exec i (s.withRegs e') = .next ((s.withRegs e').takeFault cause einfo (encode i)))
    ∨ ∃ (u : State) (gs : List (Nat × List Word)) (q : Half) (b : Bool),
        u.e = s.e ∧ gs.map (fun g => (g.1, g.2.length)) = destGroups i ∧ s.commonChecks (operandsOf i) = none
        ∧ exec i s = .next ({ state := u.writeGroups gs, pc := q, halt := b } : Result).retire
        ∧ exec i (s.withRegs e') = .next ({ state := (u.withRegs e').writeGroups gs, pc := q, halt := b } : Result).retire
        ∧ (isFieldResult i.opcode = true → s.Configured → ∀ g ∈ gs, WordsBelow s.p g.2) := by
  obtain ⟨run, hexec, hrun⟩ := exec_agrees i s e' hw hmove
  have hchecks := State.commonChecks_withRegs hw (operandsOf i)
  cases hwf : i.wellFormed with
  | false => exact .inl ⟨_, _, exec_illegal hwf, exec_illegal hwf⟩
  | true =>
    cases hc : s.commonChecks (operandsOf i) with
    | some f => exact .inl ⟨_, _, exec_check hwf hc, exec_check hwf (hchecks.trans hc)⟩
    | none =>
      rw [hexec, hexec]
      obtain ⟨f, hs, hs'⟩ | ⟨u, gs, q, b, he, hdest, hs, hs', hbelow⟩ := hrun
      · exact .inl ⟨_, _, perform_error hwf hc hs, perform_error hwf (hchecks.trans hc) hs'⟩
      · exact .inr ⟨u, gs, q, b, he, hdest, rfl, perform_ok hwf hc hs, perform_ok hwf (hchecks.trans hc) hs',
          fun hfield hconf => hbelow hfield hconf hc⟩

/-! ## The three rules -/

/-- Settles O45: an instruction writes its destination groups, and `State.getE_writeGroups_out` the rest. -/
theorem registerFrame : Obligations.RegisterFrame := by
  unfold Obligations.RegisterFrame
  intro i s t hexec r hr
  obtain ⟨cause, einfo, hfault, -⟩ | ⟨u, gs, q, b, he, hdest, -, hnext, -, -⟩ :=
    exec_pair_cases i s s.e (fun _ => rfl) fun _ => rfl
  · obtain rfl := Host.Outcome.next.inj (hexec.symm.trans hfault)
    rfl
  · obtain rfl := Host.Outcome.next.inj (hexec.symm.trans hnext)
    have hout : ∀ g ∈ gs, r < g.1 ∨ g.1 + g.2.length ≤ r := fun g hg =>
      hr (g.1, g.2.length) (hdest ▸ List.mem_map_of_mem hg)
    calc _ = (u.writeGroups gs).getE r := State.getE_congr (Result.retire_e _) r
      _ = u.getE r := u.getE_writeGroups_out hout
      _ = s.getE r := State.getE_congr he r

/-- The destination groups are among the groups whose range is checked. -/
theorem destGroups_fits {i : Instr} {s : State} (hchecks : s.commonChecks (operandsOf i) = none) :
    ∀ g ∈ destGroups i, Fits g.1 g.2 := by
  obtain ⟨hregs, -⟩ := (s.commonChecks_none _).mp hchecks
  have hfits := (checkRegRange_none _).mp hregs
  have hnamed : ∀ g ∈ destGroups i, ∃ h ∈ (operandsOf i).groups, h.base = g.1 ∧ h.size = g.2 := by
    cases i <;> simp [destGroups, operandsOf, Operands.groups, Operands.three, Operands.two, groupAt]
  intro g hg
  obtain ⟨h, hh, hbase, hsize⟩ := hnamed g hg
  exact hbase ▸ hsize ▸ hfits h hh

/-- A register of a destination group holds the word that both runs wrote. -/
theorem getE_dest {i : Instr} {gs : List (Nat × List Word)} (hdest : gs.map (fun g => (g.1, g.2.length)) = destGroups i)
    {s : State} (hchecks : s.commonChecks (operandsOf i) = none) {g : Nat × Nat} (hg : g ∈ destGroups i) {j : Nat} (hj : j < g.2) :
    ∃ w, (∃ h ∈ gs, w ∈ h.2) ∧ ∀ u : State, (u.writeGroups gs).getE (g.1 + j) = w := by
  have hfits := destGroups_fits hchecks
  rw [← hdest] at hg hfits
  obtain ⟨h, hh, rfl⟩ := List.mem_map.mp hg
  exact State.getE_writeGroups_in (fun h hh => hfits _ (List.mem_map_of_mem hh)) ⟨h, hh, by omega, by simpa using hj⟩

theorem State.takeFault_instret_ne (s : State) (cause : Cause) (einfo : Nat) (insn : InsnWord) :
    (s.takeFault cause einfo insn).instret ≠ s.instret + 1 := by
  simp only [State.takeFault]
  bv_omega

/-- The families of R231: a field result needs the configuration. -/
theorem config_of_isFieldResult {i : Instr} (h : isFieldResult i.opcode = true) : (operandsOf i).config = true := by
  revert h
  cases i <;> simp [isFieldResult, Instr.opcode, operandsOf, Operands.two, Operands.three]

/-- Settles O49: the words written are Montgomery words of residues, reductions, or free words below p. -/
theorem fieldResultsReduced : Obligations.FieldResultsReduced := by
  unfold Obligations.FieldResultsReduced
  intro i s t hinv hexec hinstret hfield g hg j hj
  obtain ⟨cause, einfo, hfault, -⟩ | ⟨u, gs, q, b, he, hdest, hchecks, hnext, -, hbelow⟩ :=
    exec_pair_cases i s s.e (fun _ => rfl) fun _ => rfl
  · obtain rfl := Host.Outcome.next.inj (hexec.symm.trans hfault)
    exact absurd hinstret (s.takeFault_instret_ne _ _ _)
  · obtain rfl := Host.Outcome.next.inj (hexec.symm.trans hnext)
    obtain ⟨-, -, -, hok, -⟩ := (s.commonChecks_none _).mp hchecks
    have hconf : s.Configured := hinv ((checkConfig_none s _).mp hok (config_of_isFieldResult hfield))
    obtain ⟨w, ⟨h, hh, hw⟩, hget⟩ := getE_dest hdest hchecks hg hj
    have hread := (State.getE_congr (Result.retire_e { state := u.writeGroups gs, pc := q, halt := b }) (g.1 + j)).trans (hget u)
    rw [hread]
    exact hbelow hfield hconf h hh w hw

/-- Settles O50: the two runs write the same words, over register files that stay the only difference. -/
theorem highBitsIgnored : Obligations.HighBitsIgnored := by
  unfold Obligations.HighBitsIgnored
  intro i s e' hmove hw
  obtain ⟨cause, einfo, hfault, hfault'⟩ | ⟨u, gs, q, b, he, hdest, hchecks, hnext, hnext', -⟩ :=
    exec_pair_cases i s e' hw fun h => absurd h hmove
  · exact ⟨_, _, hfault, hfault', rfl, fun h => absurd h (s.takeFault_instret_ne _ _ _)⟩
  · refine ⟨_, _, hnext, hnext', ?_, fun _ g hg j hj => ?_⟩
    · obtain ⟨e1, h1⟩ := u.writeGroups_eq gs
      obtain ⟨e2, h2⟩ := (u.withRegs e').writeGroups_eq gs
      rw [h1, h2, show (u.withRegs e').withRegs e2 = u.withRegs e2 from rfl, State.retire_withRegs, State.retire_withRegs]
      rfl
    · obtain ⟨w, -, hget⟩ := getE_dest hdest hchecks hg hj
      rw [State.getE_congr (Result.retire_e _), State.getE_congr (Result.retire_e _), hget, hget]

end Sys2Proof.Machine
end

section
/-! PROOFS. The address map (20_memory R101, 10_state R46), refused accesses (R111, R112), reads and window padding (R103, R107). -/

namespace Sys2Proof.Machine

/-! ## The CSR page -/

theorem Csr.offset_lt (r : Csr) : r.offset < 0x100 := by
  cases r with
  | ctr i => simp only [Csr.offset]; omega
  | _ => simp [Csr.offset]

/-- The CSR at the offset of a CSR is this one. -/
theorem Csr.at_offset (r : Csr) : Csr.at r.offset = some r := by
  cases r with
  | ctr i => revert i; decide
  | _ => rfl

theorem Csr.offset_of_at {off : Nat} {r : Csr} (h : Csr.at off = some r) : r.offset = off := by
  simpa using List.find?_some h

theorem Csr.csrOffset (r : Csr) : CsrOffset r.offset := by
  cases r with
  | ctr i => simp only [CsrOffset, Csr.offset]; omega
  | _ => simp [CsrOffset, Csr.offset]

theorem Csr.at_eq_none {off : Nat} (h : ¬ CsrOffset off) : Csr.at off = none := by
  rw [Option.eq_none_iff_forall_ne_some]
  rintro r hr
  exact h (Csr.offset_of_at hr ▸ r.csrOffset)

/-! ## The address map -/

section Locate

variable {s : State} {off : Nat}

theorem State.locate_csr (s : State) (r : Csr) : s.locate r.offset = .csr r := by
  rw [State.locate, if_pos r.offset_lt, r.at_offset]

theorem State.locate_csrWindow (hlow : 0x100 ≤ off) (hhigh : off < 0x200) :
    s.locate off = .window (csrWindow off) (off % 64 / 4) := by
  rw [State.locate, if_neg (by omega), if_pos hhigh]

theorem State.locate_ereg (hlow : 0x1000 ≤ off) (hhigh : off < 0x2000) :
    s.locate off = .window (.ereg ((off - 0x1000) / 64)) (off % 64 / 4) := by
  rw [State.locate, if_neg (by omega), if_neg (by omega), if_neg (by omega), if_pos hhigh]

theorem State.locate_kst (hlow : 0x2000 ≤ off) (hhigh : off < 0x4000) :
    s.locate off = .window (.kst ((off - 0x2000) / 64)) (off % 64 / 4) := by
  rw [State.locate, if_neg (by omega), if_neg (by omega), if_neg (by omega), if_neg (by omega), if_pos hhigh]

/-- The offsets of IMEM, whether the word exists or not. -/
theorem State.locate_imemRange (hlow : 0x40000 ≤ off) (hhigh : off < 0x80000) :
    s.locate off = if (off - 0x40000) / 4 < s.params.imemWords then .imem ((off - 0x40000) / 4) else .reserved := by
  rw [State.locate, if_neg (by omega), if_neg (by omega), if_neg (by omega), if_neg (by omega), if_neg (by omega),
    if_neg (by omega), if_pos hhigh]

/-- The offsets of DMEM, whether the word exists or not. -/
theorem State.locate_dmemRange (hlow : 0x80000 ≤ off) :
    s.locate off = if (off - 0x80000) / 64 < s.params.dmemWords then .window (.dmem ((off - 0x80000) / 64)) (off % 64 / 4)
      else .reserved := by
  rw [State.locate, if_neg (by omega), if_neg (by omega), if_neg (by omega), if_neg (by omega), if_neg (by omega),
    if_neg (by omega), if_neg (by omega)]

theorem State.locate_reserved (h : ReservedOffset s.params off) : s.locate off = .reserved := by
  obtain ⟨-, ⟨hpage, hcsr⟩ | ⟨hlow, hhigh⟩ | ⟨hlow, hhigh⟩ | ⟨hlow, hhigh⟩ | ⟨hlow, -⟩⟩ := h
  · rw [State.locate, if_pos hpage, Csr.at_eq_none hcsr]
  · rw [State.locate, if_neg (by omega), if_neg (by omega), if_pos hhigh]
  · rw [State.locate, if_neg (by omega), if_neg (by omega), if_neg (by omega), if_neg (by omega), if_neg (by omega), if_pos hhigh]
  · rw [State.locate_imemRange (by omega) hhigh, if_neg (by omega)]
  · rw [State.locate_dmemRange (by omega), if_neg (by omega)]

/-- The padding of a window is one of its bus words from 12 on. -/
theorem State.locate_padding (h : PaddingOffset s.params off) : ∃ w slot, s.locate off = .window w slot ∧ 12 ≤ slot := by
  obtain ⟨-, hpad, ⟨hlow, hhigh⟩ | ⟨hlow, hhigh⟩ | ⟨hlow, hhigh⟩⟩ := h
  · exact ⟨_, _, State.locate_csrWindow hlow hhigh, by omega⟩
  · by_cases hkst : 0x2000 ≤ off
    · exact ⟨_, _, State.locate_kst hkst hhigh, by omega⟩
    · exact ⟨_, _, State.locate_ereg hlow (by omega), by omega⟩
  · exact ⟨_, _, (State.locate_dmemRange hlow).trans (if_pos (by omega)), by omega⟩

/-- Behind the CSR page everything is storage or reserved, and closed to HOST while SEQ runs. -/
theorem State.refuses_storage (hrun : s.running = true) (hlow : 0x1000 ≤ off) :
    s.refusesRead (s.locate off) = true ∧ s.refusesWrite (s.locate off) = true := by
  obtain ⟨w, slot, hw, hstorage⟩ | ⟨i, hi⟩ | hreserved :
      (∃ w slot, s.locate off = .window w slot ∧ w.isStorage = true) ∨ (∃ i, s.locate off = .imem i)
        ∨ s.locate off = .reserved := by
    by_cases hereg : off < 0x2000
    · exact .inl ⟨_, _, State.locate_ereg hlow hereg, rfl⟩
    by_cases hkst : off < 0x4000
    · exact .inl ⟨_, _, State.locate_kst (by omega) hkst, rfl⟩
    by_cases hgap : off < 0x40000
    · refine .inr (.inr ?_)
      rw [State.locate, if_neg (by omega), if_neg (by omega), if_neg (by omega), if_neg hereg, if_neg hkst, if_pos hgap]
    by_cases himem : off < 0x80000
    · rw [State.locate_imemRange (by omega) himem]
      split
      · exact .inr (.inl ⟨_, rfl⟩)
      · exact .inr (.inr rfl)
    · rw [State.locate_dmemRange (by omega)]
      split
      · exact .inl ⟨_, _, rfl, rfl⟩
      · exact .inr (.inr rfl)
  · simp [hw, State.refusesRead, State.refusesWrite, hrun, hstorage]
  · simp [hi, State.refusesRead, State.refusesWrite, hrun]
  · simp [hreserved, State.refusesRead, State.refusesWrite]

end Locate

/-! ## Refused accesses (R111) -/

section Accesses

variable {s : State} {off : Nat}

theorem State.hostRead_of_refused {size : Nat} (h : aligned32 off size = false ∨ s.refusesRead (s.locate off) = true) :
    s.hostRead off size = { s with rdata := 0, herr := true } := by
  rw [State.hostRead, if_neg (by obtain h | h := h <;> simp [h])]
  rfl

theorem State.hostWrite_of_refused {size : Nat} (d : BitVec 32)
    (h : aligned32 off size = false ∨ s.refusesWrite (s.locate off) = true) :
    s.hostWrite off size d = { s with herr := true } := by
  rw [State.hostWrite, if_neg (by obtain h | h := h <;> simp [h])]
  rfl

theorem aligned32_of_mod {off : Nat} (h : off % 4 = 0) : aligned32 off 4 = true := by simp [aligned32, h]

theorem State.hostRead_of_accepted (halign : off % 4 = 0) (h : s.refusesRead (s.locate off) = false) :
    s.hostRead off 4 = { s with rdata := s.targetValue (s.locate off) } := by
  rw [State.hostRead, if_pos (by simp [aligned32_of_mod halign, h])]

theorem State.hostWrite_of_accepted (d : BitVec 32) (halign : off % 4 = 0) (h : s.refusesWrite (s.locate off) = false) :
    s.hostWrite off 4 d = s.writeTarget d (s.locate off) := by
  rw [State.hostWrite, if_pos (by simp [aligned32_of_mod halign, h])]

/-- The RWI registers and MODP refuse writes while SEQ runs (R112). -/
theorem State.refusesWrite_rwi (hrun : s.running = true)
    (h : (∃ r : Csr, r.isRwi = true ∧ off = r.offset) ∨ (0x100 ≤ off ∧ off < 0x130)) :
    s.refusesWrite (s.locate off) = true := by
  obtain ⟨r, hr, rfl⟩ | ⟨hlow, hhigh⟩ := h
  · simp [State.locate_csr, State.refusesWrite, hrun, hr]
  · rw [State.locate_csrWindow hlow (by omega), csrWindow, if_pos (by omega)]
    simp [State.refusesWrite, hrun]

end Accesses

/-- Settles O53: each kind of refused access, by what `State.locate` makes of its offset. -/
theorem refusedAccesses : Obligations.RefusedAccesses := by
  unfold Obligations.RefusedAccesses
  intro s off size d
  refine ⟨fun hbad => ?unaligned, fun hres => ?reserved, fun hseq hstorage => ?storage, fun hseq halign hoff => ?rwi⟩
  case unaligned =>
    have halign : aligned32 off size = false := by
      simp only [aligned32, Bool.and_eq_false_iff, beq_eq_false_iff_ne]
      exact hbad
    exact ⟨State.hostRead_of_refused (.inl halign), State.hostWrite_of_refused d (.inl halign)⟩
  case reserved =>
    have hlocate := State.locate_reserved hres
    exact ⟨State.hostRead_of_refused (.inr (by rw [hlocate]; rfl)), State.hostWrite_of_refused d (.inr (by rw [hlocate]; rfl))⟩
  case storage =>
    have hlow : 0x1000 ≤ off := by unfold StorageOffset at hstorage; omega
    obtain ⟨hread, hwrite⟩ := State.refuses_storage (State.running_eq_true hseq) hlow
    exact ⟨State.hostRead_of_refused (.inr hread), State.hostWrite_of_refused d (.inr hwrite)⟩
  case rwi =>
    refine State.hostWrite_of_refused d (.inr (State.refusesWrite_rwi (State.running_eq_true hseq) ?_))
    obtain rfl | rfl | rfl | rfl | rfl | ⟨hlow, hhigh⟩ | hmodp := hoff
    · exact .inl ⟨.flags, rfl, rfl⟩
    · exact .inl ⟨.pc, rfl, rfl⟩
    · exact .inl ⟨.nlimbs, rfl, rfl⟩
    · exact .inl ⟨.instretLo, rfl, rfl⟩
    · exact .inl ⟨.instretHi, rfl, rfl⟩
    · exact .inl ⟨.ctr ⟨(off - 0x60) / 4, by omega⟩, rfl, by simp only [Csr.offset]; omega⟩
    · exact .inr hmodp

/-! ## Reads and padding (R103, R107) -/

/-- What a target reads as does not depend on the bus data. -/
theorem State.targetValue_setRdata (s : State) (v : BitVec 32) (target : Target) :
    ({ s with rdata := v } : State).targetValue target = s.targetValue target := by
  cases target with
  | csr r => cases r <;> rfl
  | window w slot => cases w <;> rfl
  | imem i => rfl
  | reserved => rfl

theorem State.refusesRead_congr {s t : State} (h : t.seq = s.seq) (target : Target) :
    t.refusesRead target = s.refusesRead target := by
  cases target <;> simp [State.refusesRead, State.running, h]

theorem State.locate_congr {s t : State} (h : t.params = s.params) (off : Nat) : t.locate off = s.locate off := by
  simp [State.locate, h]

theorem State.windowValue_padding (s : State) (w : Window) {slot : Nat} (h : 12 ≤ slot) : s.windowValue w slot = 0 := if_pos h

theorem State.writeWindow_padding (s : State) (d : BitVec 32) (w : Window) {slot : Nat} (h : 12 ≤ slot) :
    s.writeWindow d w slot = s := if_pos h

/-- Settles O55: a read that is refused, one that is not, and an access to padding. -/
theorem hostReadsAndPadding : Obligations.HostReadsAndPadding := by
  unfold Obligations.HostReadsAndPadding
  refine ⟨fun s off size => ?reads, fun s off d hseq hpad => ?padding⟩
  case reads =>
    cases hok : aligned32 off size && !s.refusesRead (s.locate off) with
    | true =>
      obtain ⟨halign, hread⟩ : aligned32 off size = true ∧ s.refusesRead (s.locate off) = false := by simpa using hok
      have hvalue (t : State) (h : aligned32 off size && !t.refusesRead (t.locate off)) :
          t.hostRead off size = { t with rdata := t.targetValue (t.locate off) } := if_pos h
      rw [hvalue s hok, hvalue]
      · simp [halign, hread, State.targetValue_setRdata, State.locate_congr (s := s)]
      · simpa [State.locate_congr (s := s), State.refusesRead_congr (s := s)] using hok
    | false =>
      have hrefused : aligned32 off size = false ∨ s.refusesRead (s.locate off) = true := by
        simpa [Classical.or_iff_not_imp_left] using hok
      rw [State.hostRead_of_refused hrefused, State.hostRead_of_refused]
      · obtain h | h := hrefused <;> simp [h]
      · rwa [State.locate_congr (s := s), State.refusesRead_congr (s := s)] <;> rfl
  case padding =>
    have hrun := State.running_eq_false hseq
    obtain ⟨w, slot, hlocate, hslot⟩ := State.locate_padding hpad
    have halign : off % 4 = 0 := hpad.1
    constructor
    · rw [State.hostRead_of_accepted halign (by simp [hlocate, State.refusesRead, hrun]), hlocate, State.targetValue,
        s.windowValue_padding w hslot]
    · rw [State.hostWrite_of_accepted d halign (by simp [hlocate, State.refusesWrite, hrun]), hlocate, State.writeTarget,
        s.writeWindow_padding d w hslot]

end Sys2Proof.Machine
end

section
/-! PROOFS. Storage read and written by HOST (20_memory R101, R103, R106). -/

namespace Sys2Proof.Machine

/-! ## The bus words of a 384-bit word (R106) -/

theorem getLsbD_sliceOf (w : Word) (k b : Nat) : (sliceOf w k).getLsbD b = (decide (b < 32) && w.getLsbD (32 * k + b)) := by
  rw [sliceOf, BitVec.getLsbD_ofNat, Nat.testBit_div_two_pow, Nat.add_comm, BitVec.getLsbD]

theorem sum_eq_mul_add (low d high B S : Nat) : low + d * B + high * (B * S) = B * (S * high + d) + low := by grind

theorem getLsbD_setSlice (w : Word) (k : Nat) (d : BitVec 32) {b : Nat} (hb : b < 384) :
    (setSlice w k d).getLsbD b
      = if b < 32 * k then w.getLsbD b else if b < 32 * (k + 1) then d.getLsbD (b - 32 * k) else w.getLsbD b := by
  have hsplit : w.toNat % 2 ^ (32 * k) + d.toNat * 2 ^ (32 * k) + w.toNat / 2 ^ (32 * (k + 1)) * 2 ^ (32 * (k + 1))
      = 2 ^ (32 * k) * (2 ^ 32 * (w.toNat / 2 ^ (32 * (k + 1))) + d.toNat) + w.toNat % 2 ^ (32 * k) := by
    rw [show 32 * (k + 1) = 32 * k + 32 by omega, Nat.pow_add]
    exact sum_eq_mul_add ..
  rw [setSlice, hsplit, BitVec.getLsbD_ofNat, Nat.testBit_two_pow_mul_add _ (Nat.mod_lt _ (Nat.two_pow_pos _)),
    Nat.testBit_two_pow_mul_add _ d.isLt]
  simp only [hb, decide_true, Bool.true_and, Nat.testBit_mod_two_pow, Nat.testBit_div_two_pow, BitVec.getLsbD]
  split
  · simp [*]
  · by_cases hin : b < 32 * (k + 1)
    · rw [if_pos (by omega), if_pos hin]
    · rw [if_neg (by omega), if_neg hin, show b - 32 * k - 32 + 32 * (k + 1) = b by omega]

/-- A bus word reads back as written, and the others stay. -/
theorem sliceOf_setSlice (w : Word) {k j : Nat} (d : BitVec 32) (hj : j < 12) :
    sliceOf (setSlice w k d) j = if j = k then d else sliceOf w j := by
  refine BitVec.eq_of_getLsbD_eq fun b hb => ?_
  rw [getLsbD_sliceOf, getLsbD_setSlice w k d (by omega)]
  by_cases hjk : j = k
  · subst hjk
    rw [if_neg (show ¬ 32 * j + b < 32 * j by omega), if_pos (show 32 * j + b < 32 * (j + 1) by omega), if_pos rfl,
      Nat.add_sub_cancel_left, decide_eq_true hb, Bool.true_and]
  · rw [if_neg hjk, getLsbD_sliceOf]
    by_cases hlow : 32 * j + b < 32 * k
    · rw [if_pos hlow]
    · rw [if_neg hlow, if_neg (by omega)]

/-! ## Bus words of storage -/

/-- A bus word of storage: a slot of a register or a constant, or four bytes of memory. -/
inductive StorageWord where
  | ereg (i slot : Nat)
  | kst (k slot : Nat)
  | bytes (a : Nat)

/-- The bus word lies in storage: its register, constant or byte exists. -/
def StorageWord.inRange : StorageWord → Prop
  | .ereg i slot => i < 64 ∧ slot < 12
  | .kst k slot => k < 128 ∧ slot < 12
  | .bytes a => a % 4 = 0

/-- The block offset of the bus word (R101). -/
def StorageWord.offset : StorageWord → Nat
  | .ereg i slot => 0x1000 + 64 * i + 4 * slot
  | .kst k slot => 0x2000 + 64 * k + 4 * slot
  | .bytes a => a

/-- What HOST reads from the bus word. -/
def StorageWord.read (s : State) : StorageWord → BitVec 32
  | .ereg i slot => sliceOf (s.getE i) slot
  | .kst k slot => sliceOf (s.getK k) slot
  | .bytes a => BitVec.ofNat 32 (s.readNat a 4)

/-- What a write of the bus word leaves. -/
def StorageWord.write (s : State) (d : BitVec 32) : StorageWord → State
  | .ereg i slot => s.setE i (setSlice (s.getE i) slot d)
  | .kst k slot => { s with kst := s.kst.setIfInBounds k (setSlice (s.getK k) slot d) }
  | .bytes a => s.storeBytes a (bytesOfNat 4 d.toNat)

/-- A storage offset names a bus word of storage. -/
theorem StorageOffset.storageWord {P : Params} (hvalid : P.valid = true) {off : Nat} (h : StorageOffset P off) :
    ∃ c : StorageWord, c.inRange ∧ c.offset = off ∧ ∀ s : State, s.params = P →
      s.locate off ≠ .reserved ∧ s.targetValue (s.locate off) = c.read s ∧ ∀ d, s.writeTarget d (s.locate off) = c.write s d := by
  obtain ⟨halign, ⟨hlow, hhigh, hslot⟩ | ⟨hlow, hhigh⟩ | ⟨hlow, hhigh, hslot⟩⟩ := h
  · have hbus : ¬ 12 ≤ off % 64 / 4 := by omega
    by_cases hkst : 0x2000 ≤ off
    · refine ⟨.kst ((off - 0x2000) / 64) (off % 64 / 4), ⟨by omega, by omega⟩, by simp only [StorageWord.offset]; omega,
        fun s _ => ?_⟩
      rw [State.locate_kst hkst hhigh]
      exact ⟨nofun, if_neg hbus, fun d => if_neg hbus⟩
    · refine ⟨.ereg ((off - 0x1000) / 64) (off % 64 / 4), ⟨by omega, by omega⟩, by simp only [StorageWord.offset]; omega,
        fun s _ => ?_⟩
      rw [State.locate_ereg hlow (by omega)]
      exact ⟨nofun, if_neg hbus, fun d => if_neg hbus⟩
  · have himem : P.imemWords ≤ 65536 := by
      simp only [Params.valid, Bool.and_eq_true, decide_eq_true_eq] at hvalid
      omega
    refine ⟨.bytes off, halign, rfl, fun s hs => ?_⟩
    have haddr : imemAddr ((off - 0x40000) / 4) = off := by unfold imemAddr; omega
    rw [State.locate_imemRange hlow (by omega), hs, if_pos (by omega), State.targetValue, State.imemWord, haddr]
    exact ⟨nofun, rfl, fun d => by rw [State.writeTarget, haddr]; rfl⟩
  · have hbus : ¬ 12 ≤ off % 64 / 4 := by omega
    refine ⟨.bytes off, halign, rfl, fun s hs => ?_⟩
    have haddr : dmemAddr ((off - 0x80000) / 64) + 4 * (off % 64 / 4) = off := by unfold dmemAddr; omega
    rw [State.locate_dmemRange hlow, hs, if_pos (by omega)]
    refine ⟨nofun, (if_neg hbus).trans ?_, fun d => (if_neg hbus).trans ?_⟩
    · simp only [haddr, StorageWord.read]
    · simp only [haddr, StorageWord.write]

theorem State.getK_setK (s : State) (i k : Nat) (v : Word) (hi : i < 128) :
    ({ s with kst := s.kst.setIfInBounds i v } : State).getK k = if i = k then v else s.getK k := by
  simp only [State.getK, Vector.getD]
  by_cases h : i = k
  · subst h
    simp [hi]
  · by_cases h2 : k < 128 <;> simp [h, h2]

/-- The bus word of memory reads back as written. -/
theorem State.readNat_storeBytes_self (s : State) (a : Nat) (d : BitVec 32) :
    BitVec.ofNat 32 ((s.storeBytes a (bytesOfNat 4 d.toNat)).readNat a 4) = d := by
  have hbyte (k : Nat) (hk : k < 4) :
      (s.storeBytes a (bytesOfNat 4 d.toNat)).readByte (a + k) = BitVec.ofNat 8 (d.toNat / 256 ^ k) := by
    rw [State.readByte_storeBytes_in s a k _ (by simpa using hk)]
    have hget := bytesOfNat_getElem? 4 d.toNat k hk
    rwa [List.getElem?_eq_getElem (by simpa using hk), Option.some.injEq] at hget
  rw [State.readNat_of_bytes hbyte, show 256 ^ 4 = 2 ^ 32 from rfl, Nat.mod_eq_of_lt d.isLt, BitVec.ofNat_toNat, BitVec.setWidth_eq]

theorem State.readNat_storeBytes_out (s : State) {a b : Nat} (d : BitVec 32) (h : b + 4 ≤ a ∨ a + 4 ≤ b) :
    (s.storeBytes a (bytesOfNat 4 d.toNat)).readNat b 4 = s.readNat b 4 := by
  rw [State.readNat, State.readNat]
  refine congrArg natOfBytes (List.map_congr_left fun k hk => ?_)
  have hk4 : k < 4 := by simpa using hk
  exact State.readByte_storeBytes_out s a (b + k) _ (by rw [bytesOfNat_length]; omega)

/-- A bus word of storage reads back as written. -/
theorem StorageWord.read_write_self (s : State) (d : BitVec 32) {c : StorageWord} (h : c.inRange) : c.read (c.write s d) = d := by
  cases c with
  | ereg i slot => simp only [read, write, State.getE_setE_self _ _ _ h.1, sliceOf_setSlice _ _ h.2, if_pos]
  | kst k slot => simp only [read, write, State.getK_setK _ _ _ _ h.1, sliceOf_setSlice _ _ h.2, if_pos]
  | bytes a => exact s.readNat_storeBytes_self a d

/-- The other bus words of storage stay. -/
theorem StorageWord.read_write_ne (s : State) (d : BitVec 32) {c c' : StorageWord} (h : c.inRange) (h' : c'.inRange) (hne : c' ≠ c) :
    c'.read (c.write s d) = c'.read s := by
  cases c with
  | ereg i slot =>
    cases c' with
    | ereg j slot' =>
      by_cases hij : i = j
      · subst hij
        have hslot : slot' ≠ slot := fun heq => hne (heq ▸ rfl)
        simp only [read, write, State.getE_setE_self _ _ _ h.1, sliceOf_setSlice _ _ h'.2, if_neg hslot]
      · simp only [read, write, State.getE_setE_ne _ _ _ _ hij]
    | kst k slot' => rfl
    | bytes a => rfl
  | kst k slot =>
    cases c' with
    | ereg j slot' => rfl
    | kst k' slot' =>
      by_cases hkk : k = k'
      · subst hkk
        have hslot : slot' ≠ slot := fun heq => hne (heq ▸ rfl)
        simp only [read, write, State.getK_setK _ _ _ _ h.1, sliceOf_setSlice _ _ h'.2, if_neg hslot, if_pos]
      · simp only [read, write, State.getK_setK _ _ _ _ h.1, if_neg hkk]
    | bytes a => rfl
  | bytes a =>
    cases c' with
    | ereg j slot' => rfl
    | kst k slot' => rfl
    | bytes b =>
      have hab : b ≠ a := fun heq => hne (heq ▸ rfl)
      simp only [inRange] at h h'
      exact congrArg (BitVec.ofNat 32) (s.readNat_storeBytes_out d (by omega))

theorem StorageWord.write_keeps (s : State) (d : BitVec 32) (c : StorageWord) :
    (c.write s d).params = s.params ∧ (c.write s d).seq = s.seq ∧ (c.write s d).herr = s.herr := by
  cases c <;> exact ⟨rfl, rfl, rfl⟩

/-- While SEQ does not run, only reserved offsets are refused (R111). -/
theorem State.not_refused {s : State} (hrun : s.running = false) {target : Target} (h : target ≠ .reserved) :
    s.refusesRead target = false ∧ s.refusesWrite target = false := by
  cases target with
  | reserved => exact absurd rfl h
  | _ => simp [State.refusesRead, State.refusesWrite, hrun]

/-- Settles O54: a storage offset names one bus word of storage, which reads back as written and lies apart from every other. -/
theorem hostStorage : Obligations.HostStorage := by
  unfold Obligations.HostStorage
  intro s off d hvalid hseq hoff
  have hrun := State.running_eq_false hseq
  obtain ⟨c, hc, hoffset, hword⟩ := hoff.storageWord hvalid
  obtain ⟨hparams, hseq', hherr⟩ := c.write_keeps s d
  have hrun' : (c.write s d).running = false := by rw [State.running, hseq']; exact hrun
  have hwrite : s.hostWrite off 4 d = c.write s d := by
    obtain ⟨hres, -, hw⟩ := hword s rfl
    rw [State.hostWrite_of_accepted d hoff.1 (State.not_refused hrun hres).2, hw]
  rw [hwrite]
  refine ⟨?same, hherr, fun off' hoff' hne => ?other⟩
  case same =>
    obtain ⟨hres, hr, -⟩ := hword _ hparams
    rw [State.hostRead_of_accepted hoff.1 (State.not_refused hrun' hres).1, hr]
    exact c.read_write_self s d hc
  case other =>
    obtain ⟨c', hc', hoffset', hword'⟩ := hoff'.storageWord hvalid
    obtain ⟨hres, hr, -⟩ := hword' s rfl
    obtain ⟨hres', hr', -⟩ := hword' _ hparams
    rw [State.hostRead_of_accepted hoff'.1 (State.not_refused hrun' hres').1, hr',
      State.hostRead_of_accepted hoff'.1 (State.not_refused hrun hres).1, hr]
    exact StorageWord.read_write_ne s d hc hc' fun heq => hne (by rw [← hoffset, ← hoffset', heq])

end Sys2Proof.Machine
end

section
/-! PROOFS. The registers HOST reads and writes while SEQ does not run (10_state, sections 3 and 4). -/

namespace Sys2Proof.Machine

section NotRunning

variable {s : State} (hseq : s.seq ≠ .running)
include hseq

/-! ## Accesses by the register or window they name -/

theorem State.hostRead_csr (r : Csr) : (s.hostRead r.offset 4).rdata = s.csrValue r := by
  have hlocate := s.locate_csr r
  rw [State.hostRead_of_accepted r.csrOffset.1 (State.not_refused (State.running_eq_false hseq) (by simp [hlocate])).1, hlocate]
  rfl

theorem State.hostWrite_csr (r : Csr) (d : BitVec 32) : s.hostWrite r.offset 4 d = s.writeCsr d r := by
  have hlocate := s.locate_csr r
  rw [State.hostWrite_of_accepted d r.csrOffset.1 (State.not_refused (State.running_eq_false hseq) (by simp [hlocate])).2, hlocate]
  rfl

theorem State.hostRead_csrWindow {off : Nat} (halign : off % 4 = 0) (hlow : 0x100 ≤ off) (hhigh : off < 0x200) :
    (s.hostRead off 4).rdata = s.windowValue (csrWindow off) (off % 64 / 4) := by
  have hlocate := State.locate_csrWindow (s := s) hlow hhigh
  rw [State.hostRead_of_accepted halign (State.not_refused (State.running_eq_false hseq) (by simp [hlocate])).1, hlocate]
  rfl

theorem State.hostWrite_csrWindow (d : BitVec 32) {off : Nat} (halign : off % 4 = 0) (hlow : 0x100 ≤ off) (hhigh : off < 0x200) :
    s.hostWrite off 4 d = s.writeWindow d (csrWindow off) (off % 64 / 4) := by
  have hlocate := State.locate_csrWindow (s := s) hlow hhigh
  rw [State.hostWrite_of_accepted d halign (State.not_refused (State.running_eq_false hseq) (by simp [hlocate])).2, hlocate]
  rfl

/-! ## The configuration words -/

/-- A bus word of one of the four configuration windows. -/
theorem State.hostRead_configWindow {base k : Nat} {w : Window} (hk : k < 12)
    (hbase : base ∈ [0x100, 0x140, 0x180, 0x1C0]) (hw : csrWindow (base + 4 * k) = w) :
    (s.hostRead (base + 4 * k) 4).rdata = s.windowValue w k := by
  have hbounds : base % 64 = 0 ∧ 0x100 ≤ base ∧ base ≤ 0x1C0 := by
    simp only [List.mem_cons, List.not_mem_nil, or_false] at hbase
    omega
  rw [State.hostRead_csrWindow hseq (by omega) (by omega) (by omega), hw, show (base + 4 * k) % 64 / 4 = k by omega]

/-- A word of MODP. -/
theorem State.hostWrite_modp (d : BitVec 32) {k : Nat} (hk : k < 12) :
    s.hostWrite (0x100 + 4 * k) 4 d = { s.unconfigure with modp := setSlice s.modp k d } := by
  have hwindow : csrWindow (0x100 + 4 * k) = .modp := if_pos (by omega)
  rw [State.hostWrite_csrWindow hseq d (by omega) (by omega) (by omega), hwindow, show (0x100 + 4 * k) % 64 / 4 = k by omega]
  exact if_neg (by omega)

end NotRunning

theorem sliceOf_eq_extractLsb' (w : Word) (k : Nat) : sliceOf w k = w.extractLsb' (32 * k) 32 := by
  rw [sliceOf, BitVec.extractLsb', Nat.shiftRight_eq_div_pow]

/-- Not padding: the slice of the word of the window. -/
theorem State.windowValue_config (s : State) {k : Nat} (hk : k < 12) :
    s.windowValue .modp k = s.modp.extractLsb' (32 * k) 32 ∧ s.windowValue .pinv k = s.pinv.extractLsb' (32 * k) 32
      ∧ s.windowValue .rsq k = s.rsq.extractLsb' (32 * k) 32 ∧ s.windowValue .rone k = s.rone.extractLsb' (32 * k) 32 := by
  have hslot : ¬ 12 ≤ k := by omega
  simp only [← sliceOf_eq_extractLsb']
  exact ⟨if_neg hslot, if_neg hslot, if_neg hslot, if_neg hslot⟩

/-! ## Bits -/

theorem csrValue_status_toNat (s : State) :
    (s.csrValue .status).toNat
      = (match s.seq with
        | .idle => 0
        | .running => 1
        | .done => 2
        | .error => 3) + 4 * s.cfgok.toNat + 8 * s.herr.toNat := by
  rw [State.csrValue]
  cases s.seq <;> cases s.cfgok <;> cases s.herr <;> rfl

/-- A register of two bits. -/
theorem bitsToNat_two_toNat (a b : Bool) : (BitVec.ofNat 32 (bitsToNat [a, b])).toNat = a.toNat + 2 * b.toNat := by
  cases a <;> cases b <;> rfl

/-- A register of three bits. -/
theorem bitsToNat_three_toNat (a b c : Bool) :
    (BitVec.ofNat 32 (bitsToNat [a, b, c])).toNat = a.toNat + 2 * b.toNat + 4 * c.toNat := by
  cases a <;> cases b <;> cases c <;> rfl

theorem State.limbs_le (s : State) : s.limbs ≤ 6 := s.nlimbs.isLt

/-! ## INSTRET (R58) -/

theorem ofNat_toNat_eq_extractLsb' (v : BitVec 64) : BitVec.ofNat 32 v.toNat = v.extractLsb' 0 32 := by
  rw [BitVec.extractLsb', Nat.shiftRight_zero]

theorem ofNat_div_eq_extractLsb' (v : BitVec 64) : BitVec.ofNat 32 (v.toNat / 2 ^ 32) = v.extractLsb' 32 32 := by
  rw [BitVec.extractLsb', Nat.shiftRight_eq_div_pow]

theorem append_toNat (hi lo : BitVec 32) : (hi ++ lo : BitVec 64).toNat = hi.toNat * 2 ^ 32 + lo.toNat := by
  rw [BitVec.toNat_append, ← Nat.shiftLeft_add_eq_or_of_lt lo.isLt, Nat.shiftLeft_eq]

/-- The low half replaced. -/
theorem instret_setLow (v : BitVec 64) (d : BitVec 32) :
    BitVec.ofNat 64 (v.toNat / 2 ^ 32 * 2 ^ 32 + d.toNat) = v.extractLsb' 32 32 ++ d := by
  refine BitVec.eq_of_toNat_eq ?_
  rw [append_toNat, ← ofNat_div_eq_extractLsb', BitVec.toNat_ofNat, BitVec.toNat_ofNat]
  have := v.isLt
  have := d.isLt
  omega

/-- The high half replaced. -/
theorem instret_setHigh (v : BitVec 64) (d : BitVec 32) :
    BitVec.ofNat 64 (d.toNat * 2 ^ 32 + v.toNat % 2 ^ 32) = d ++ v.extractLsb' 0 32 := by
  refine BitVec.eq_of_toNat_eq ?_
  rw [append_toNat, ← ofNat_toNat_eq_extractLsb', BitVec.toNat_ofNat, BitVec.toNat_ofNat]
  have := v.isLt
  have := d.isLt
  omega

/-! ## Writes -/

theorem State.writeStatus (s : State) (d : BitVec 32) : s.writeCsr d .status = { s with herr := s.herr && !d.getLsbD 3 } := by
  rw [State.writeCsr]
  cases d.getLsbD 3 <;> simp

/-- A write of NLIMBS that is not ignored (R52). -/
theorem State.writeNlimbs_legal (s : State) {n : Nat} (hlow : 1 ≤ n) (hhigh : n ≤ 6) :
    (s.writeNlimbs n).limbs = n ∧ s.writeNlimbs n = { s.unconfigure with nlimbs := (s.writeNlimbs n).nlimbs } := by
  obtain rfl | rfl | rfl | rfl | rfl | rfl : n = 1 ∨ n = 2 ∨ n = 3 ∨ n = 4 ∨ n = 5 ∨ n = 6 := by omega
  all_goals exact ⟨rfl, rfl⟩

/-- The bus words of MODP after a write of one of them (R53). -/
theorem extractLsb'_setSlice (w : Word) {k j : Nat} (d : BitVec 32) (hj : j < 12) :
    (setSlice w k d).extractLsb' (32 * j) 32 = if j = k then d else w.extractLsb' (32 * j) 32 := by
  rw [← sliceOf_eq_extractLsb', ← sliceOf_eq_extractLsb', sliceOf_setSlice w d hj]

/-- The offsets whose writes are ignored name a read-only register or a read-only window. -/
theorem State.hostWrite_readOnly {s : State} (hseq : s.seq ≠ .running) (d : BitVec 32) {off : Nat} (halign : off % 4 = 0)
    (h : off ∈ [0x000, 0x014, 0x018, 0x01C, 0x020, 0x030, 0x034, 0x038] ∨ (0x140 ≤ off ∧ off < 0x200)) :
    s.hostWrite off 4 d = s := by
  obtain hcsr | ⟨hlow, hhigh⟩ := h
  · obtain ⟨r, hr, rfl⟩ :
        ∃ r : Csr, r ∈ [.id, .cause, .epc, .einfo, .faultinsn, .cfgstat, .imemsz, .dmemsz] ∧ r.offset = off := by
      simpa [Csr.offset, eq_comm] using hcsr
    rw [State.hostWrite_csr hseq]
    simp only [List.mem_cons, List.not_mem_nil, or_false] at hr
    obtain rfl | rfl | rfl | rfl | rfl | rfl | rfl | rfl := hr <;> rfl
  · have hwindow : csrWindow off = .pinv ∨ csrWindow off = .rsq ∨ csrWindow off = .rone := by
      rw [csrWindow, if_neg (by omega)]
      split
      · exact .inl rfl
      · split
        · exact .inr (.inl rfl)
        · exact .inr (.inr rfl)
    rw [State.hostWrite_csrWindow hseq d halign (by omega) hhigh]
    obtain hw | hw | hw := hwindow <;> rw [hw] <;> exact ite_self s

/-- Settles O60: register by register, through the offsets of the map. -/
theorem csrReadsAndWrites : Obligations.CsrReadsAndWrites := by
  unfold Obligations.CsrReadsAndWrites
  intro s d hseq
  have hread := State.hostRead_csr hseq
  have hwrite (r : Csr) := State.hostWrite_csr hseq r d
  have hwindow {base k : Nat} {w : Window} := State.hostRead_configWindow hseq (base := base) (k := k) (w := w)
  refine ⟨⟨hread .id, hread .ctrl, (congrArg BitVec.toNat (hread .status)).trans (csrValue_status_toNat s),
    (congrArg BitVec.toNat (hread .flags)).trans (bitsToNat_three_toNat ..), ?pc, ?cause, ?epc, hread .einfo, hread .faultinsn,
    (congrArg BitVec.toNat (hread .irqen)).trans (bitsToNat_two_toNat ..),
    (congrArg BitVec.toNat (hread .irqpend)).trans (bitsToNat_two_toNat ..), ?nlimbs,
    (congrArg BitVec.toNat (hread .cfgstat)).trans (bitsToNat_three_toNat ..), hread .imemsz, hread .dmemsz,
    (hread .instretLo).trans (ofNat_toNat_eq_extractLsb' _), (hread .instretHi).trans (ofNat_div_eq_extractLsb' _), fun i => ?ctr,
    fun k hk => ?config⟩, (hwrite .status).trans (s.writeStatus d), hwrite .flags, ?writePc, hwrite .irqen, hwrite .irqpend,
    (hwrite .instretLo).trans ?low, (hwrite .instretHi).trans ?high, fun i => ?writeCtr, fun hn => ?ignored,
    fun n hn hlow hhigh => ?legal, fun k hk => ?modp, fun off halign hoff => State.hostWrite_readOnly hseq d halign hoff⟩
  case pc => exact (congrArg BitVec.toNat (hread .pc)).trans (BitVec.toNat_setWidth_of_le (by decide))
  case epc => exact (congrArg BitVec.toNat (hread .epc)).trans (BitVec.toNat_setWidth_of_le (by decide))
  case cause => exact (congrArg BitVec.toNat (hread .cause)).trans (BitVec.toNat_setWidth_of_le (by decide))
  case nlimbs =>
    have hlimbs := s.limbs_le
    exact (congrArg BitVec.toNat (hread .nlimbs)).trans (Nat.mod_eq_of_lt (by omega))
  case ctr => exact (congrArg BitVec.toNat (hread (.ctr i))).trans (BitVec.toNat_setWidth_of_le (by decide))
  case config =>
    obtain ⟨hmodp, hpinv, hrsq, hrone⟩ := s.windowValue_config hk
    refine ⟨(hwindow hk (by decide) ?_).trans hmodp, (hwindow hk (by decide) ?_).trans hpinv,
      (hwindow hk (by decide) ?_).trans hrsq, (hwindow hk (by decide) ?_).trans hrone⟩
    · rw [csrWindow, if_pos (by omega)]
    · rw [csrWindow, if_neg (by omega), if_pos (by omega)]
    · rw [csrWindow, if_neg (by omega), if_neg (by omega), if_pos (by omega)]
    · rw [csrWindow, if_neg (by omega), if_neg (by omega), if_neg (by omega)]
  case writePc => rw [← BitVec.setWidth_eq_extractLsb' (by decide)]; exact hwrite .pc
  case low => rw [State.writeCsr, instret_setLow]
  case high => rw [State.writeCsr, instret_setHigh]
  case writeCtr => rw [← BitVec.setWidth_eq_extractLsb' (by decide)]; exact hwrite (.ctr i)
  case ignored =>
    have hnlimbs : s.hostWrite 0x02C 4 d = s.writeNlimbs (d.toNat % 8) := hwrite .nlimbs
    obtain h0 | h7 := hn
    · rw [hnlimbs, h0]; rfl
    · rw [hnlimbs, h7]; rfl
  case legal =>
    have hnlimbs : s.hostWrite 0x02C 4 d = s.writeNlimbs n := hn ▸ hwrite .nlimbs
    rw [hnlimbs]
    exact s.writeNlimbs_legal hlow hhigh
  case modp =>
    rw [State.hostWrite_modp hseq d hk]
    exact ⟨fun j hj => extractLsb'_setSlice s.modp d hj, rfl⟩

end Sys2Proof.Machine
end
